-- ==== Sys2Proof/Word.lean ====
section
/-! DEFINITION. The widths of the block: every header field, address, status, command, id, length and skip
count is a u8 (R10, 00_scope.md); the host command word has 64 bits (R93) and an RX transaction 9 (R102). -/
namespace Sys2Proof

/-- A u8 (R10). -/
abbrev Byte := BitVec 8

/-- The 64-bit host command word `cw` (R93). -/
abbrev CmdBits := BitVec 64

/-- One RX transaction, `prior_error` at bit 8 and the byte at bits 7:0 (R102). -/
abbrev RxBits := BitVec 9

end Sys2Proof
end

