-- ==== Sys2Proof/Config.lean ====
section
/-! DEFINITION. The parameters the source leaves open (R8, 00_scope.md), the conditions a model refuses a
configuration for, and the model's free values. -/
namespace Sys2Proof

/-- The answer of the Bit Transport to one frame write (R104). -/
inductive TxAnswer where
  | ok
  | collisionDetected
  | writeError
  deriving DecidableEq, Repr, Inhabited

/-- Which agent moves next (R5, R6): one constructor per step kind, and the Bit Transport's withholding of a
byte (R160). -/
inductive Turn where
  /-- HOST: the oldest offered command (R200). -/
  | host
  /-- RX: the next byte of the stream is delivered (R140). -/
  | rx
  /-- The Bit Transport withholds the next byte of the stream (R160, R296). -/
  | drop
  /-- The Bit Transport delivers one whole frame of the stream (R108, R161). -/
  | frame
  /-- TICK (R206). -/
  | tick
  /-- SEQ: a transmit attempt (R203). -/
  | seqTx
  /-- SEQ: a poll of the slot (R205). -/
  | seqPoll
  /-- CKA: the Check acknowledgement's one attempt (R152). -/
  | cka
  /-- RESET (R290). -/
  | reset
  deriving DecidableEq, Repr, Inhabited

/-- The open parameters, by the names of R8. DESIGN CHOICE (log 1): State holds them, so every statement about
every state is a statement about every configuration. -/
structure Config where
  addrNone : Byte
  addrBroadcast : Byte
  addrMin : Byte
  addrMax : Byte
  stNone : Byte
  stCheck : Byte
  stAck : Byte
  stRequest : Byte
  stResponse : Byte
  cmdNone : Byte
  maxTxAttempts : Nat
  maxSendAttempts : Nat
  ackTimeout : Nat
  checkTimeout : Nat
  priorErrorInvalidates : Bool
  txEcho : Bool
  deriving DecidableEq, Repr

/-- The default column of R8. -/
def Config.default : Config where
  addrNone := 0x00
  addrBroadcast := 0xFF
  addrMin := 0x01
  addrMax := 0xFE
  stNone := 0x00
  stCheck := 0x01
  stAck := 0x02
  stRequest := 0x03
  stResponse := 0x04
  cmdNone := 0x00
  maxTxAttempts := 3
  maxSendAttempts := 3
  ackTimeout := 10
  checkTimeout := 3
  priorErrorInvalidates := true
  txEcho := false

/-- `ADDR_MIN <= a <= ADDR_MAX` (R90, R217), unsigned (R10). -/
def Config.claimable (c : Config) (a : Byte) : Bool := c.addrMin ≤ a && a ≤ c.addrMax

/-- R8's conditions on a configuration; a model refuses one that breaks them (U20). -/
def Config.wf (c : Config) : Bool :=
  c.addrNone != c.addrBroadcast
    && decide (c.addrMin ≤ c.addrMax)
    && !c.claimable c.addrNone && !c.claimable c.addrBroadcast
    && decide [c.stNone, c.stCheck, c.stAck, c.stRequest, c.stResponse].Nodup
    && decide (1 ≤ c.maxTxAttempts) && decide (1 ≤ c.maxSendAttempts)
    && decide (c.ackTimeout ≤ 32767) && decide (c.checkTimeout ≤ 32767)

/-- FREE VALUE (log 2): the turn taken when the schedule names none; R5 lets the steps interleave in any order. -/
opaque Config.freeTurn : Nat → Turn

/-- FREE VALUE (log 3): the TX answer drawn when none is listed; R104 admits all three at every attempt. -/
opaque Config.freeTxAnswer : Nat → TxAnswer

end Sys2Proof
end

