-- ==== Sys2Proof/Syntax.lean ====
section
/-! DEFINITION. The instruction set: one constructor per row of spec/opcode_table.json (host commands, frame
kinds and port transactions). -/
namespace Sys2Proof

/-- The fields of a command word below `rsv` (R93). Every opcode carries all of them: a field the opcode ignores
(R96) changes nothing but stands in the record `cur` (R35). -/
structure CmdFields where
  idAny : Bool
  a : Byte
  s : Byte
  c : Byte
  i : Byte
  l : Byte
  t : BitVec 16
  deriving DecidableEq, Repr

/-- The seven header bytes of a frame in wire order (R80). -/
structure Header where
  destination : Byte
  source : Byte
  status : Byte
  command : Byte
  id : Byte
  length : Byte
  checksum : Byte
  deriving DecidableEq, Repr

/-- A header without its status byte: the operands of a frame row whose status the row itself fixes. -/
structure FrameFields where
  destination : Byte
  source : Byte
  command : Byte
  id : Byte
  length : Byte
  checksum : Byte
  deriving DecidableEq, Repr

/-- One constructor per row of spec/opcode_table.json. -/
inductive Instr where
  /-- R210, op 0x1. -/
  | send (f : CmdFields) (data : List Byte)
  /-- R211, op 0x2. -/
  | waitForPacket (f : CmdFields) (data : List Byte)
  /-- R212, op 0x3. -/
  | getRequest (f : CmdFields) (data : List Byte)
  /-- R213, op 0x4. -/
  | sendResponse (f : CmdFields) (data : List Byte)
  /-- R214, op 0x5. -/
  | getResponse (f : CmdFields) (data : List Byte)
  /-- R215, op 0x6. -/
  | probe (f : CmdFields) (data : List Byte)
  /-- R216, op 0x7. -/
  | acknowledge (f : CmdFields) (data : List Byte)
  /-- R217, op 0x8. -/
  | setAddress (f : CmdFields) (data : List Byte)
  /-- R218, op 0x9. -/
  | getAddress (f : CmdFields) (data : List Byte)
  /-- R219, op 0x0 with `rsv` 0. -/
  | reserved0 (f : CmdFields) (data : List Byte)
  /-- R219, op 0xA with `rsv` 0. -/
  | reservedA (f : CmdFields) (data : List Byte)
  /-- R219, op 0xB with `rsv` 0. -/
  | reservedB (f : CmdFields) (data : List Byte)
  /-- R219, op 0xC with `rsv` 0. -/
  | reservedC (f : CmdFields) (data : List Byte)
  /-- R219, op 0xD with `rsv` 0. -/
  | reservedD (f : CmdFields) (data : List Byte)
  /-- R219, op 0xE with `rsv` 0. -/
  | reservedE (f : CmdFields) (data : List Byte)
  /-- R219, op 0xF with `rsv` 0. -/
  | reservedF (f : CmdFields) (data : List Byte)
  /-- R99, R219: any op with `rsv` nonzero (log 15 on the overlap with the reserved ops). -/
  | reservedRsv (op : BitVec 4) (rsv : BitVec 3) (f : CmdFields) (data : List Byte)
  /-- R108: a frame of status `ST_CHECK`, delivered whole. -/
  | frameCheck (h : FrameFields) (payload : List Byte)
  /-- R108: a frame of status `ST_ACK`, delivered whole. -/
  | frameAck (h : FrameFields) (payload : List Byte)
  /-- R108: a frame of status `ST_REQUEST`, delivered whole. -/
  | frameRequest (h : FrameFields) (payload : List Byte)
  /-- R108: a frame of status `ST_RESPONSE`, delivered whole. -/
  | frameResponse (h : FrameFields) (payload : List Byte)
  /-- R108, R155: a frame of any other status, delivered whole. -/
  | frameOtherStatus (status : Byte) (h : FrameFields) (payload : List Byte)
  /-- R140: one received byte with its prior-error bit. -/
  | rxByte (err : Bool) (b : Byte)
  /-- R203: one transmit attempt of `txf`. -/
  | txFrame
  /-- R152: the one transmit attempt of `cka_frame`. -/
  | ckaTx
  /-- R206: one polling tick. -/
  | tick
  /-- R290: reset. -/
  | reset
  deriving DecidableEq, Repr

end Sys2Proof
end

