-- ==== Sys2Proof/WellFormed.lean ====
section
/-! DEFINITION. Which terms of Instr are instructions: the conditions the encodings put on the operands. -/
namespace Sys2Proof

/-- `data` is a sequence of exactly `l` bytes (R97, R98). -/
def CmdFields.lengthOk (f : CmdFields) (data : List Byte) : Bool := data.length == f.l.toNat

/-- The payload is exactly `length` bytes (R88). -/
def FrameFields.lengthOk (h : FrameFields) (payload : List Byte) : Bool := payload.length == h.length.toNat

/-- The statuses a SEND may carry (R99) and that have a frame row of their own (R91). -/
def Config.wireStatus (c : Config) (s : Byte) : Bool :=
  s == c.stCheck || s == c.stAck || s == c.stRequest || s == c.stResponse

/-- Well-formed: the payload has its length; RESERVED_RSV has a nonzero `rsv`; FRAME_OTHER_STATUS has a status that
is none of the four. -/
def Instr.wf (c : Config) : Instr → Bool
  | .send f data => f.lengthOk data
  | .waitForPacket f data => f.lengthOk data
  | .getRequest f data => f.lengthOk data
  | .sendResponse f data => f.lengthOk data
  | .getResponse f data => f.lengthOk data
  | .probe f data => f.lengthOk data
  | .acknowledge f data => f.lengthOk data
  | .setAddress f data => f.lengthOk data
  | .getAddress f data => f.lengthOk data
  | .reserved0 f data => f.lengthOk data
  | .reservedA f data => f.lengthOk data
  | .reservedB f data => f.lengthOk data
  | .reservedC f data => f.lengthOk data
  | .reservedD f data => f.lengthOk data
  | .reservedE f data => f.lengthOk data
  | .reservedF f data => f.lengthOk data
  | .reservedRsv _ rsv f data => rsv != 0 && f.lengthOk data
  | .frameCheck h p => h.lengthOk p
  | .frameAck h p => h.lengthOk p
  | .frameRequest h p => h.lengthOk p
  | .frameResponse h p => h.lengthOk p
  | .frameOtherStatus st h p => !c.wireStatus st && h.lengthOk p
  | .rxByte _ _ => true
  | .txFrame => true
  | .ckaTx => true
  | .tick => true
  | .reset => true

end Sys2Proof
end

