-- ==== Sys2Proof/Decode.lean ====
section
/-! DEFINITION. From what stands at a port to an instruction, and back: the command word (R93, R94), the wire frame
(R80), the RX transaction (R102) and the ports that carry no bits (R105, R106). -/
namespace Sys2Proof

/-- The transactions the opcode table gives no bits. -/
inductive Event where
  | txWrite
  | ckaWrite
  | tick
  | reset
  deriving DecidableEq, Repr

/-- What an environment port can offer the block. -/
inductive Offer where
  /-- The host port: a command word and its payload (R93). -/
  | host (cw : CmdBits) (data : List Byte)
  /-- The bytes of a frame, first byte first (R80). -/
  | frame (bytes : List Byte)
  /-- One RX transaction (R102). -/
  | rx (w : RxBits)
  /-- A transaction that carries no bits. -/
  | event (e : Event)
  deriving DecidableEq, Repr

/-- Why an offer is no instruction. -/
inductive DecodeError where
  /-- `|data| != l` (R98): the command port cannot spell it. -/
  | payloadLengthMismatch
  /-- Fewer than seven bytes: no header (R80). -/
  | truncatedHeader
  /-- Fewer than `length` bytes after the header (R89). -/
  | truncatedPayload
  /-- Bytes follow the frame's last byte, `7 + length` (R89). -/
  | trailingBytes
  deriving DecidableEq, Repr

/-- `op`, bits 63:60 (R93). -/
def cwOp (cw : CmdBits) : BitVec 4 := cw.extractLsb' 60 4

/-- `rsv`, bits 59:57 (R93). -/
def cwRsv (cw : CmdBits) : BitVec 3 := cw.extractLsb' 57 3

/-- The fields of bits 56:0 (R93): no field is scaled, shifted or sign-extended here. -/
def cwFields (cw : CmdBits) : CmdFields where
  idAny := cw.getLsbD 56
  a := cw.extractLsb' 48 8
  s := cw.extractLsb' 40 8
  c := cw.extractLsb' 32 8
  i := cw.extractLsb' 24 8
  l := cw.extractLsb' 16 8
  t := cw.extractLsb' 0 16

/-- The opcode map (R94, R219) for a word with `rsv` 0. -/
def instrOfOp (op : BitVec 4) (f : CmdFields) (data : List Byte) : Instr :=
  match op.toNat with
  | 0x0 => .reserved0 f data
  | 0x1 => .send f data
  | 0x2 => .waitForPacket f data
  | 0x3 => .getRequest f data
  | 0x4 => .sendResponse f data
  | 0x5 => .getResponse f data
  | 0x6 => .probe f data
  | 0x7 => .acknowledge f data
  | 0x8 => .setAddress f data
  | 0x9 => .getAddress f data
  | 0xA => .reservedA f data
  | 0xB => .reservedB f data
  | 0xC => .reservedC f data
  | 0xD => .reservedD f data
  | 0xE => .reservedE f data
  | _ => .reservedF f data

/-- A host offer: refused when `|data| != l` (R98); every other command word is an instruction (R99). -/
def decodeCommand (cw : CmdBits) (data : List Byte) : Except DecodeError Instr :=
  if (cwFields cw).lengthOk data = false then .error .payloadLengthMismatch
  else if cwRsv cw ≠ 0 then .ok (.reservedRsv (cwOp cw) (cwRsv cw) (cwFields cw) data)
  else .ok (instrOfOp (cwOp cw) (cwFields cw) data)

/-- The frame kind, by the status byte (R91, R108). -/
def instrOfStatus (c : Config) (st : Byte) (h : FrameFields) (payload : List Byte) : Instr :=
  if st = c.stCheck then .frameCheck h payload
  else if st = c.stAck then .frameAck h payload
  else if st = c.stRequest then .frameRequest h payload
  else if st = c.stResponse then .frameResponse h payload
  else .frameOtherStatus st h payload

/-- The first frame of a byte stream and the bytes after it (R80, R89). -/
def decodeFrame (c : Config) : List Byte → Except DecodeError (Instr × List Byte)
  | d :: u :: st :: cmd :: i :: l :: k :: rest =>
    if rest.length < l.toNat then .error .truncatedPayload
    else .ok (instrOfStatus c st ⟨d, u, cmd, i, l, k⟩ (rest.take l.toNat), rest.drop l.toNat)
  | _ => .error .truncatedHeader

/-- A transaction without bits. -/
def decodeEvent : Event → Instr
  | .txWrite => .txFrame
  | .ckaWrite => .ckaTx
  | .tick => .tick
  | .reset => .reset

/-- The decoder, total on every offer. -/
def decode (c : Config) : Offer → Except DecodeError Instr
  | .host cw data => decodeCommand cw data
  | .frame bytes =>
    match decodeFrame c bytes with
    | .ok (i, []) => .ok i
    | .ok (_, _ :: _) => .error .trailingBytes
    | .error e => .error e
  | .rx w => .ok (.rxByte (w.getLsbD 8) (w.extractLsb' 0 8))
  | .event e => .ok (decodeEvent e)

/-- The command word of R93, from its fields, most significant first. -/
def encodeCommand (op : BitVec 4) (rsv : BitVec 3) (f : CmdFields) : CmdBits :=
  op ++ rsv ++ BitVec.ofBool f.idAny ++ f.a ++ f.s ++ f.c ++ f.i ++ f.l ++ f.t

/-- A header in wire order (R80). -/
def Header.bytes (h : Header) : List Byte :=
  [h.destination, h.source, h.status, h.command, h.id, h.length, h.checksum]

/-- The header of a frame row, with the row's status. -/
def FrameFields.header (h : FrameFields) (st : Byte) : Header :=
  ⟨h.destination, h.source, st, h.command, h.id, h.length, h.checksum⟩

/-- The bytes of a frame row: the header, then the payload (R80). -/
def frameBytes (st : Byte) (h : FrameFields) (payload : List Byte) : List Byte :=
  (h.header st).bytes ++ payload

/-- The encoder, from the same tables (R80, R93, R94, R102). -/
def encode (c : Config) : Instr → Offer
  | .reserved0 f data => .host (encodeCommand 0x0 0 f) data
  | .send f data => .host (encodeCommand 0x1 0 f) data
  | .waitForPacket f data => .host (encodeCommand 0x2 0 f) data
  | .getRequest f data => .host (encodeCommand 0x3 0 f) data
  | .sendResponse f data => .host (encodeCommand 0x4 0 f) data
  | .getResponse f data => .host (encodeCommand 0x5 0 f) data
  | .probe f data => .host (encodeCommand 0x6 0 f) data
  | .acknowledge f data => .host (encodeCommand 0x7 0 f) data
  | .setAddress f data => .host (encodeCommand 0x8 0 f) data
  | .getAddress f data => .host (encodeCommand 0x9 0 f) data
  | .reservedA f data => .host (encodeCommand 0xA 0 f) data
  | .reservedB f data => .host (encodeCommand 0xB 0 f) data
  | .reservedC f data => .host (encodeCommand 0xC 0 f) data
  | .reservedD f data => .host (encodeCommand 0xD 0 f) data
  | .reservedE f data => .host (encodeCommand 0xE 0 f) data
  | .reservedF f data => .host (encodeCommand 0xF 0 f) data
  | .reservedRsv op rsv f data => .host (encodeCommand op rsv f) data
  | .frameCheck h p => .frame (frameBytes c.stCheck h p)
  | .frameAck h p => .frame (frameBytes c.stAck h p)
  | .frameRequest h p => .frame (frameBytes c.stRequest h p)
  | .frameResponse h p => .frame (frameBytes c.stResponse h p)
  | .frameOtherStatus st h p => .frame (frameBytes st h p)
  | .rxByte err b => .rx (BitVec.ofBool err ++ b)
  | .txFrame => .event .txWrite
  | .ckaTx => .event .ckaWrite
  | .tick => .event .tick
  | .reset => .event .reset

/-- The seven header bytes of a frame row's 56-bit pattern, byte 0 first, which the table writes leftmost: the
most significant byte (DESIGN CHOICE, log 6). -/
def headerBytesOfTableWord (w : Nat) : List Byte :=
  [48, 40, 32, 24, 16, 8, 0].map fun k => BitVec.ofNat 8 (w >>> k)

/-- The event code of a row the table gives no bits (DESIGN CHOICE, log 7). -/
def eventOfCode : Nat → Option Event
  | 0 => some .tick
  | 1 => some .reset
  | 2 => some .ckaWrite
  | 3 => some .txWrite
  | _ => none

/-- A table word laid out as its port carries it: 64 bits are a command word with `l` zero bytes of payload, 56 bits
a frame header with `length` zero bytes of payload, 9 to 16 bits an RX transaction, up to 8 bits an event code. -/
def offerOfTableWord (nbits w : Nat) : Option Offer :=
  if nbits = 64 then
    let cw := BitVec.ofNat 64 w
    some (.host cw (List.replicate (cwFields cw).l.toNat 0))
  else if nbits = 56 then
    let h := headerBytesOfTableWord w
    some (.frame (h ++ List.replicate (h.getD 5 0).toNat 0))
  else if 9 ≤ nbits ∧ nbits ≤ 16 then some (.rx (BitVec.ofNat 9 w))
  else if nbits ≤ 8 then (eventOfCode w).map .event
  else none

/-- The instruction the decoder reads from a table word, under the default codes of R8. -/
def decodeTableWord (nbits w : Nat) : Option Instr :=
  match offerOfTableWord nbits w with
  | none => none
  | some o =>
    match decode .default o with
    | .ok i => some i
    | .error _ => none

end Sys2Proof
end

