-- ==== Sys2Proof/Machine/State.lean ====
section
/-! DEFINITION. The state of one node (R22, 10_state.md), its parameters (R8) and its ports (R102 to R107), as plain
data, and the state after reset (R290). -/
namespace Sys2Proof.Machine

/-- One byte-addressed space (R60): strictly rising addresses; an unlisted address holds no value (R22, U17). -/
abbrev Memory := List Host.Cell

/-- The canonical form of a space of `size` bytes: every address exists and the addresses rise strictly. -/
def Memory.wf (size : Nat) : Memory → Bool
  | [] => true
  | (a, _) :: m => decide (a < size) && m.all (fun c => decide (a < c.1)) && Memory.wf size m

/-- A header together with its payload (R14): a frame to send or a packet received. -/
structure Packet where
  hdr : Header
  data : List Byte
  deriving DecidableEq, Repr

/-- The filter record of a wait (R39). -/
structure Filter where
  src : Byte
  st : Byte
  cmd : Byte
  id : Byte
  idAny : Bool
  deriving DecidableEq, Repr

/-- The sequencer's phases (R34). -/
inductive SeqPhase where
  | idle
  | transmit
  | ackWait
  | pktWait
  | ackEmit
  deriving DecidableEq, Repr

/-- The opcodes that are commands (R94). -/
inductive CmdOp where
  | send
  | waitForPacket
  | getRequest
  | sendResponse
  | getResponse
  | probe
  | acknowledge
  | setAddress
  | getAddress
  deriving DecidableEq, Repr

/-- The outstanding host command (R35): the decoded command word and its payload. -/
structure Command where
  op : CmdOp
  f : CmdFields
  data : List Byte
  deriving DecidableEq, Repr

/-- The response codes (R101). -/
inductive RespCode where
  | ok
  | notInitialized
  | noAddressAvailable
  | timeoutExceeded
  | collisionDetected
  | writeError
  | illegalCommand
  deriving DecidableEq, Repr

/-- The response record (R100): a field a command does not name is absent. -/
structure Response where
  code : RespCode
  hdr : Option Header := none
  data : Option (List Byte) := none
  inUse : Option Bool := none
  addr : Option Byte := none
  init : Option Bool := none
  deriving DecidableEq, Repr

/-- A command offered at the host port (R93, R107). -/
structure HostOffer where
  cw : CmdBits
  data : List Byte
  deriving DecidableEq, Repr

/-- One frame write and its answer (R104). -/
structure TxWrite where
  bytes : List Byte
  answer : TxAnswer
  deriving DecidableEq, Repr

/-- Connection registers (R23 to R25). -/
structure Connection where
  ownAddr : Byte
  isInitialized : Bool
  lastId : Byte
  deriving DecidableEq, Repr

/-- Reassembler registers (R26 to R31). -/
structure Reassembler where
  bytesRead : Nat
  hdrBuf : Memory
  frameValid : Bool
  payBuf : Memory
  ckaPending : Bool
  ckaFrame : Option Header
  deriving DecidableEq, Repr

/-- The receive slot (R32, R33). -/
structure Slot where
  hasPacket : Bool
  hdr : Memory
  pay : Memory
  deriving DecidableEq, Repr

/-- Sequencer registers (R34 to R41). -/
structure Sequencer where
  phase : SeqPhase
  cur : Option Command
  txf : Option Packet
  txTry : Nat
  sendTry : Nat
  flt : Option Filter
  forever : Bool
  remaining : Nat
  pollDue : Bool
  got : Option Packet
  inUse : Bool
  deriving DecidableEq, Repr

/-- What stands at the ports (R102 to R107): the environment's offers, the block's answers, and the model's own
schedule and counters (log 2, 3). Every list is oldest first. -/
structure Ports where
  schedule : List Turn
  hostPort : List HostOffer
  rxPort : List RxBits
  txAnswers : List TxAnswer
  txStream : List TxWrite
  skips : List Byte
  responses : List Response
  freeTurns : Nat
  freeDraws : Nat
  deriving DecidableEq, Repr

/-- One node. -/
structure State where
  cfg : Config
  conn : Connection
  rsm : Reassembler
  slot : Slot
  seq : Sequencer
  ports : Ports
  deriving DecidableEq, Repr

/-- The state elements that can hold no value (R22), and the counter that can be stepped out of its range. -/
inductive Element where
  | hdrBuf
  | payBuf
  | ckaFrame
  | slotHdr
  | slotPay
  | cur
  | txf
  | flt
  | got
  deriving DecidableEq, Repr

/-- The model's own stops. The block has no fault state (R12); no state that meets the invariant raises one. -/
inductive Fault where
  /-- Raised by a read of an element that holds no value (R22 asks for it). Safe. -/
  | readOfNoValue (e : Element)
  /-- Raised by a write to an index a buffer does not have (R60; R68 says no rule makes one). Safe. -/
  | indexOutOfRange (e : Element)
  /-- Raised by TICK when `remaining` is 0 and would leave its range 0..32767 (R10, R40, R206). Safe. -/
  | remainingBelowZero
  /-- Raised by SEQ_TX when the outstanding command is one R204 has no case for. Safe. -/
  | noTransmissionCase
  deriving DecidableEq, Repr

/-- What the model refuses. -/
inductive Refusal where
  /-- Raised by an arm of `exec` whose instruction has no meaning yet. Safe. -/
  | notModelled (mnemonic : String)
  /-- Raised by `step` when the configuration breaks R8's conditions (U20). Safe: R8 says a model refuses it. -/
  | illFormedConfig
  /-- Raised by `step` when an offered payload's length is not `l` (R98, U21). Safe: R98 says the model refuses it. -/
  | payloadLengthMismatch
  deriving DecidableEq, Repr

/-- R22, R290: the connection after reset. -/
def Connection.atReset (c : Config) : Connection where
  ownAddr := c.addrNone
  isInitialized := false
  lastId := 0x00

/-- R22, R290: the reassembler after reset. -/
def Reassembler.atReset : Reassembler where
  bytesRead := 0
  hdrBuf := []
  frameValid := true
  payBuf := []
  ckaPending := false
  ckaFrame := none

/-- R22, R290: the slot after reset. -/
def Slot.atReset : Slot where
  hasPacket := false
  hdr := []
  pay := []

/-- R22, R290: the sequencer after reset. -/
def Sequencer.atReset : Sequencer where
  phase := .idle
  cur := none
  txf := none
  txTry := 0
  sendTry := 0
  flt := none
  forever := false
  remaining := 0
  pollDue := false
  got := none
  inUse := false

/-- DESIGN CHOICE (log 5): nothing is offered and nothing has been answered. -/
def Ports.atReset : Ports where
  schedule := []
  hostPort := []
  rxPort := []
  txAnswers := []
  txStream := []
  skips := []
  responses := []
  freeTurns := 0
  freeDraws := 0

/-- The machine right after reset under the configuration `c` (R290, R293). -/
def State.resetWith (c : Config) : State where
  cfg := c
  conn := .atReset c
  rsm := .atReset
  slot := .atReset
  seq := .atReset
  ports := .atReset

/-- The machine right after reset under the defaults of R8. -/
def State.reset : State := .resetWith .default

end Sys2Proof.Machine
end

