-- ==== Sys2Proof/Machine/Ops.lean ====
section
/-! DEFINITION. The operations the steps share: reads and writes of the byte spaces (R60), the ports (R102 to R107),
and the completion that stands where a trap entry would (R209, R268). -/
namespace Sys2Proof.Machine

/-! ### Byte spaces (R60) -/

/-- The byte at `a`; `none` where nothing has been written (R22). -/
def Memory.read : Memory → Nat → Option Byte
  | [], _ => none
  | (k, b) :: m, a => if k = a then some b else Memory.read m a

/-- `m` with `b` at `a`, in the canonical form. -/
def Memory.write : Memory → Nat → Byte → Memory
  | [], a, b => [(a, b)]
  | (k, v) :: m, a, b =>
    if a < k then (a, b) :: (k, v) :: m
    else if a = k then (a, b) :: m
    else (k, v) :: Memory.write m a b

/-- The space that holds `bs` from address `a` on and nothing else. -/
def Memory.fromBytes (a : Nat) : List Byte → Memory
  | [] => []
  | b :: bs => (a, b) :: Memory.fromBytes (a + 1) bs

/-- `n` bytes from `a` on, when all of them hold a value. -/
def Memory.readRange (m : Memory) (a : Nat) : Nat → Option (List Byte)
  | 0 => some []
  | n + 1 =>
    match Memory.read m a, Memory.readRange m (a + 1) n with
    | some b, some bs => some (b :: bs)
    | _, _ => none

/-- The header held by a 7-byte space, when all of it holds a value (R80). -/
def Memory.header? (m : Memory) : Option Header :=
  match m.readRange 0 7 with
  | some [d, u, st, c, i, l, k] => some ⟨d, u, st, c, i, l, k⟩
  | _ => none

/-- The value of an element, or the fault of reading one that has none (R22). -/
def need {α : Type} (e : Element) : Option α → Except Fault α
  | some x => .ok x
  | none => .error (.readOfNoValue e)

/-- MemWrite of one byte (R11) into a space of `size` bytes. -/
def writeByte (e : Element) (size : Nat) (m : Memory) (a : Nat) (b : Byte) : Except Fault Memory :=
  if a < size then .ok (m.write a b) else .error (.indexOutOfRange e)

/-! ### Outcomes -/

/-- A step that was taken, or the fault it met. -/
def outcomeOf : Except Fault State → Host.Outcome State Fault Refusal
  | .ok s => .next s
  | .error f => .fault f

/-- `hold` (R11, R12): the step is not enabled, nothing changes, and what was offered stays offered (log 4). -/
def hold (s : State) : Host.Outcome State Fault Refusal := .next s

/-! ### Ports -/

/-- The wire bytes of a packet, `frame(h, p)` (R11, R80). -/
def Packet.wire (p : Packet) : List Byte := p.hdr.bytes ++ p.data

/-- The ISSUE step takes the oldest host offer (R107, R272). -/
def takeHostOffer (s : State) : State :=
  { s with ports := { s.ports with hostPort := s.ports.hostPort.tail } }

/-- `n` transactions leave the RX stream (R102). -/
def takeRx (n : Nat) (s : State) : State :=
  { s with ports := { s.ports with rxPort := s.ports.rxPort.drop n } }

/-- The skip answer of a delivered byte (R103). -/
def answerSkip (k : Byte) (s : State) : State :=
  { s with ports := { s.ports with skips := s.ports.skips ++ [k] } }

/-- The answer the next frame write gets: the TX oracle's draw (R104), listed or free (log 3). -/
def nextTxAnswer (s : State) : TxAnswer :=
  match s.ports.txAnswers with
  | r :: _ => r
  | [] => Config.freeTxAnswer s.ports.freeDraws

/-- An error-free RX transaction that carries `b` (R102). -/
def rxBits (b : Byte) : RxBits := (0#1 ++ b : BitVec 9)

/-- `TX.write(frame)` (R11, R104): the frame and its answer join the TX stream; under `TX_ECHO` the frame's bytes
also join the node's own RX stream (R305, log 14). The answer is `nextTxAnswer s`. -/
def txWrite (bytes : List Byte) (s : State) : State :=
  { s with ports := { s.ports with
      txStream := s.ports.txStream ++ [⟨bytes, nextTxAnswer s⟩]
      txAnswers := s.ports.txAnswers.tail
      freeDraws := if s.ports.txAnswers = [] then s.ports.freeDraws + 1 else s.ports.freeDraws
      rxPort := if s.cfg.txEcho then s.ports.rxPort ++ bytes.map rxBits else s.ports.rxPort } }

/-! ### Completion (R209), the block's counterpart of a trap entry (R268) and of the return from one (R270) -/

/-- The number of a response code (R101). -/
def RespCode.number : RespCode → Byte
  | .ok => 0
  | .notInitialized => 1
  | .noAddressAvailable => 2
  | .timeoutExceeded => 3
  | .collisionDetected => 4
  | .writeError => 5
  | .illegalCommand => 6

/-- The response code of the same name as a TX answer (R204). -/
def codeOfAnswer : TxAnswer → RespCode
  | .ok => .ok
  | .collisionDetected => .collisionDetected
  | .writeError => .writeError

/-- `respond` (R209): deliver the response; `cur` and `got` become none; the sequencer is Idle. -/
def respond (r : Response) (s : State) : State :=
  { s with
    ports := { s.ports with responses := s.ports.responses ++ [r] }
    seq := { s.seq with cur := none, got := none, phase := .idle } }

/-! ### Entries of a wait and of a transmission -/

/-- `start_wait` (R195); `T` is a signed integer. -/
def startWait (ph : SeqPhase) (f : Filter) (T : Int) (s : State) : State :=
  { s with seq := { s.seq with
      phase := ph
      flt := some f
      forever := decide (T < 0)
      remaining := if T < 0 then 0 else T.toNat
      pollDue := true } }

/-- `start_tx` (R196). -/
def startTx (p : Packet) (ph : SeqPhase) (s : State) : State :=
  { s with seq := { s.seq with phase := ph, txf := some p, txTry := 0 } }

end Sys2Proof.Machine
end

