-- ==== Sys2Proof/Machine/Checksum.lean ====
section
/-! DEFINITION. The checksum_generator (40_checksum.md) and the frames the block builds with it (R191, R194, R149). -/
namespace Sys2Proof.Machine

/-- `checksum(h)` (R120): the XOR of bytes 0 to 5, the checksum byte taken as zero. -/
def checksum (h : Header) : Byte :=
  h.destination ^^^ h.source ^^^ h.status ^^^ h.command ^^^ h.id ^^^ h.length ^^^ 0x00

/-- A received header passes the checksum check (R121). -/
def checksumOk (h : Header) : Bool := checksum h == h.checksum

/-- `h` with its checksum byte computed after bytes 0 to 5 are final (R123). -/
def sealHeader (h : Header) : Header := { h with checksum := checksum h }

/-- `build(d, s, c, id, data)` (R191); `own` is `own_addr` in the step that builds the frame. -/
def build (own d s c id : Byte) (data : List Byte) : Packet where
  hdr := sealHeader ⟨d, own, s, c, id, BitVec.ofNat 8 data.length, 0x00⟩
  data := data

/-- `ack_frame(p)` (R194). -/
def ackFrame (cfg : Config) (own : Byte) (p : Packet) : Packet :=
  build own p.hdr.source cfg.stAck cfg.cmdNone p.hdr.id []

/-- The Acknowledge of a Check with header `h` (R149). -/
def checkAckHeader (cfg : Config) (own : Byte) (h : Header) : Header :=
  sealHeader ⟨h.source, own, cfg.stAck, cfg.cmdNone, h.id, 0x00, 0x00⟩

end Sys2Proof.Machine
end

