-- ==== Sys2Proof/Machine/Operands.lean ====
section
/-! DEFINITION. What a command's fields mean to it (R93, R96): the timeout, the filters of its waits and the id of
the frame it sends. -/
namespace Sys2Proof.Machine

/-- `t` as a signed count of ticks, `sext_16` (R9, R93): negative means forever. -/
def timeoutOf (f : CmdFields) : Int := f.t.toInt

/-- The filter of WAIT_FOR_PACKET (R202, R211). -/
def waitFilter (f : CmdFields) : Filter := ⟨f.a, f.s, f.c, f.i, f.idAny⟩

/-- The filter of GET_REQUEST (R202, R212): any Request. -/
def requestFilter (c : Config) : Filter := ⟨c.addrNone, c.stRequest, c.cmdNone, 0x00, true⟩

/-- The filter of GET_RESPONSE's second wait (R204, R214). -/
def responseFilter (c : Config) (f : CmdFields) : Filter := ⟨f.a, c.stResponse, f.c, 0x00, true⟩

/-- The filter of the wait for the Acknowledge of id `id` from `src` (R204). -/
def ackFilter (c : Config) (src id : Byte) : Filter := ⟨src, c.stAck, c.cmdNone, id, false⟩

/-- The id of the next send: `last_id + 1 mod 256` (R192). -/
def nextId (s : State) : Byte := s.conn.lastId + 1

end Sys2Proof.Machine
end

