-- ==== Sys2Proof/Machine/Flags.lean ====
section
/-! DEFINITION. The conditions the steps test: the destination check (R154), match (R173), needs_ack (R176), control
and wants_ack_wait (R193), the gate and the other issue checks (R200, R201), and when each step is enabled. -/
namespace Sys2Proof.Machine

/-- `dest_ok(d)` (R154). -/
def destOk (cfg : Config) (own d : Byte) : Bool := d == own || d == cfg.addrBroadcast

/-- `match(h, f)` (R173): each filter field may be its wildcard. -/
def matchesFilter (cfg : Config) (h : Header) (f : Filter) : Bool :=
  (f.src == cfg.addrNone || h.source == f.src)
    && (f.st == cfg.stNone || h.status == f.st)
    && (f.cmd == cfg.cmdNone || h.command == f.cmd)
    && (f.idAny || h.id == f.id)

/-- `needs_ack(p)` (R176). -/
def needsAck (cfg : Config) (p : Packet) : Bool :=
  p.hdr.status != cfg.stAck && p.hdr.destination != cfg.addrBroadcast

/-- `control(s)` (R193). -/
def isControl (cfg : Config) (st : Byte) : Bool := st == cfg.stCheck || st == cfg.stAck

/-- `wants_ack_wait(f)` (R193). -/
def wantsAckWait (cfg : Config) (f : Packet) : Bool :=
  !isControl cfg f.hdr.status && f.hdr.destination != cfg.addrBroadcast

/-- `gated(op)` (R201). -/
def CmdOp.gated : CmdOp → Bool
  | .send => true
  | .waitForPacket => true
  | .getRequest => true
  | .sendResponse => true
  | .getResponse => true
  | .acknowledge => true
  | .probe => false
  | .setAddress => false
  | .getAddress => false

/-- The checks of an issue after the opcode itself, in their order (R200, R265): the first that fails is reported. -/
def issueError (op : CmdOp) (f : CmdFields) (s : State) : Option RespCode :=
  if op.gated && !s.conn.isInitialized then some .notInitialized
  else if op = .send && !s.cfg.wireStatus f.s then some .illegalCommand
  else if op = .setAddress && !s.cfg.claimable f.a then some .illegalCommand
  else none

/-- The phases that transmit (R203). -/
def SeqPhase.transmits : SeqPhase → Bool
  | .transmit => true
  | .ackEmit => true
  | .idle => false
  | .ackWait => false
  | .pktWait => false

/-- The phases that wait (R205, R206). -/
def SeqPhase.waits : SeqPhase → Bool
  | .ackWait => true
  | .pktWait => true
  | .idle => false
  | .transmit => false
  | .ackEmit => false

/-- ISSUE is enabled exactly when `seq_phase == Idle` (R200). -/
def issueEnabled (s : State) : Bool := decide (s.seq.phase = .idle)

/-- The RX step is enabled exactly when `cka_pending == false` (R140). -/
def rxEnabled (s : State) : Bool := !s.rsm.ckaPending

/-- SEQ_TX is enabled exactly when the phase transmits and `cka_pending == false` (R203). -/
def seqTxEnabled (s : State) : Bool := s.seq.phase.transmits && !s.rsm.ckaPending

/-- SEQ_POLL is enabled exactly when the phase waits and a poll is owed (R205). -/
def seqPollEnabled (s : State) : Bool := s.seq.phase.waits && s.seq.pollDue

/-- CKA_TX is enabled exactly when `cka_pending == true` (R152). -/
def ckaEnabled (s : State) : Bool := s.rsm.ckaPending

end Sys2Proof.Machine
end

