-- ==== Sys2Proof/Machine/Receive.lean ====
section
/-! DEFINITION. The single_slot_receive_buffer (42_receive_slot.md): publish, consume. -/
namespace Sys2Proof.Machine

/-- The packet of length `h.length` that stands in a payload space behind the header `h`. -/
def readPacket (e : Element) (h : Header) (pay : Memory) : Except Fault Packet := do
  let data ← need e (pay.readRange 0 h.length.toNat)
  .ok ⟨h, data⟩

/-- publish (R170): the slot takes the header and the payload and is occupied, in one step. Bytes of the payload
space at and beyond the length hold no value (R33, R170; log 10). -/
def publish (p : Packet) (s : State) : State :=
  { s with slot := ⟨true, Memory.fromBytes 0 p.hdr.bytes, Memory.fromBytes 0 p.data⟩ }

/-- consume (R174): the packet of the slot, and the slot empty in the same step. -/
def consume (s : State) : Except Fault (Packet × State) := do
  let h ← need .slotHdr s.slot.hdr.header?
  let p ← readPacket .slotPay h s.slot.pay
  .ok (p, { s with slot := { s.slot with hasPacket := false } })

end Sys2Proof.Machine
end

