-- ==== Sys2Proof/Machine/Sequencer.lean ====
section
/-! DEFINITION. The ack_retry_sequencer's generic steps (43_sequencer.md, sections 1 and 2): SEQ_TX, SEQ_POLL and TICK.
Meanings of TX_FRAME and TICK. -/
namespace Sys2Proof.Machine

/-- `sent_ok()` (R204). -/
def sentOk (cmd : Command) (f : Packet) (s : State) : State :=
  if cmd.op = .getResponse then
    if f.hdr.destination ≠ s.cfg.addrBroadcast then
      startWait .pktWait (responseFilter s.cfg cmd.f) (timeoutOf cmd.f) s
    else respond { code := .ok, data := some [] } s
  else respond { code := .ok } s

/-- `tx_done(r)` (R204). -/
def txDone (cmd : Command) (f : Packet) (r : TxAnswer) (s : State) : Except Fault State :=
  match cmd.op with
  | .probe => .ok (startWait .pktWait (ackFilter s.cfg cmd.f.a f.hdr.id) s.cfg.checkTimeout s)
  | .acknowledge => .ok (respond { code := codeOfAnswer r } s)
  | .send | .sendResponse | .getResponse =>
    .ok (if r ≠ .ok then respond { code := codeOfAnswer r } s
      else if wantsAckWait s.cfg f then
        startWait .ackWait (ackFilter s.cfg f.hdr.destination f.hdr.id) s.cfg.ackTimeout s
      else sentOk cmd f s)
  | .waitForPacket | .getRequest | .setAddress | .getAddress => .error .noTransmissionCase

/-- The response that carries a consumed packet (R100). -/
def packetResponse (p : Packet) : Response := { code := .ok, hdr := some p.hdr, data := some p.data }

/-- `ack_done()` (R208): the answer of the Acknowledge is not reported. -/
def ackDone (s : State) : Except Fault State := do
  let p ← need .got s.seq.got
  .ok (respond (packetResponse p) s)

/-- SEQ_TX's pseudocode (R203): one attempt; a collision short of `MAX_TX_ATTEMPTS` stays for the next. -/
def seqTx (s : State) : Except Fault State := do
  let f ← need .txf s.seq.txf
  let r := nextTxAnswer s
  let s := txWrite f.wire s
  let s := { s with seq := { s.seq with txTry := s.seq.txTry + 1 } }
  if r = .collisionDetected ∧ s.seq.txTry < s.cfg.maxTxAttempts then .ok s
  else if s.seq.phase = .ackEmit then ackDone s
  else
    let cmd ← need .cur s.seq.cur
    txDone cmd f r s

/-- TX_FRAME: SEQ_TX (R203). -/
def execTxFrame (s : State) : Host.Outcome State Fault Refusal :=
  if seqTxEnabled s then outcomeOf (seqTx s) else hold s

/-- `on_match()` (R207) with the consumed packet `p`, which stands in `got`. -/
def onMatch (p : Packet) (s : State) : Except Fault State := do
  if s.seq.phase = .ackWait then
    let cmd ← need .cur s.seq.cur
    let f ← need .txf s.seq.txf
    .ok (sentOk cmd f { s with seq := { s.seq with got := none } })
  else
    let cmd ← need .cur s.seq.cur
    if cmd.op = .probe then
      .ok (respond { code := .ok, inUse := some true } { s with seq := { s.seq with inUse := true, got := none } })
    else if needsAck s.cfg p then .ok (startTx (ackFrame s.cfg s.conn.ownAddr p) .ackEmit s)
    else .ok (respond (packetResponse p) s)

/-- `on_timeout()` (R207). -/
def onTimeout (s : State) : Except Fault State := do
  if s.seq.phase = .ackWait then
    if s.seq.sendTry < s.cfg.maxSendAttempts then
      let f ← need .txf s.seq.txf
      .ok (startTx f .transmit { s with seq := { s.seq with sendTry := s.seq.sendTry + 1 } })
    else .ok (respond { code := .timeoutExceeded } s)
  else
    let cmd ← need .cur s.seq.cur
    if cmd.op = .probe then .ok (respond { code := .ok, inUse := some false } s)
    else .ok (respond { code := .timeoutExceeded } s)

/-- Whether the slot holds a packet that matches the wait's filter (R205). -/
def slotMatches (s : State) : Except Fault Bool := do
  if s.slot.hasPacket then
    let h ← need .slotHdr s.slot.hdr.header?
    let f ← need .flt s.seq.flt
    .ok (matchesFilter s.cfg h f)
  else .ok false

/-- SEQ_POLL's pseudocode (R205): a match is consumed; otherwise the slot is left as it is (R175). -/
def pollStep (s : State) : Except Fault State := do
  let hit ← slotMatches s
  if hit then
    let (p, s) ← consume s
    onMatch p { s with seq := { s.seq with got := some p } }
  else
    let s := { s with seq := { s.seq with pollDue := false } }
    if !s.seq.forever && s.seq.remaining == 0 then onTimeout s else .ok s

/-- SEQ_POLL (R205): a step of the machine that has no row of the opcode table. -/
def seqPoll (s : State) : Host.Outcome State Fault Refusal :=
  if seqPollEnabled s then outcomeOf (pollStep s) else hold s

/-- TICK's pseudocode (R206) in a wait that owes no poll. -/
def countTick (s : State) : Except Fault State :=
  if s.seq.forever then .ok { s with seq := { s.seq with pollDue := true } }
  else if s.seq.remaining = 0 then .error .remainingBelowZero
  else .ok { s with seq := { s.seq with remaining := s.seq.remaining - 1, pollDue := true } }

/-- TICK (R206): always enabled; in every other state it has no effect and is not remembered. -/
def execTick (s : State) : Host.Outcome State Fault Refusal :=
  if s.seq.phase.waits && !s.seq.pollDue then outcomeOf (countTick s) else .next s

end Sys2Proof.Machine
end

