-- ==== Sys2Proof/Machine/Commands.lean ====
section
/-! DEFINITION. ISSUE (R200) and the dispatch of each opcode (R202, R210 to R219). Meanings of the nine commands and of
the reserved encodings. -/
namespace Sys2Proof.Machine

/-- ISSUE of a command (R200): held while another is outstanding (R107); an issue that a check turns away writes nothing
but its response; otherwise `cur` takes the command and `go` dispatches it (R202). -/
def issue (op : CmdOp) (f : CmdFields) (data : List Byte) (go : State → State) (s : State) :
    Host.Outcome State Fault Refusal :=
  if issueEnabled s then
    match issueError op f s with
    | some code => .next (respond { code := code } (takeHostOffer s))
    | none =>
      let s := takeHostOffer s
      .next (go { s with seq := { s.seq with cur := some ⟨op, f, data⟩ } })
  else hold s

/-- ISSUE of an illegal encoding (R219): answered at once; writes no state. -/
def issueIllegal (s : State) : Host.Outcome State Fault Refusal :=
  if issueEnabled s then .next (respond { code := .illegalCommand } (takeHostOffer s)) else hold s

/-- The id increment of the four send-class commands (R192). -/
def takeId (s : State) : State := { s with conn := { s.conn with lastId := nextId s } }

/-- `send_try <- 1` (R202). -/
def firstSendTry (s : State) : State := { s with seq := { s.seq with sendTry := 1 } }

/-- SEND (R202, R210). -/
def dispatchSend (f : CmdFields) (data : List Byte) (s : State) : State :=
  startTx (build s.conn.ownAddr f.a f.s f.c (nextId s) data) .transmit (firstSendTry (takeId s))

/-- SEND_RESPONSE (R202, R213). -/
def dispatchSendResponse (f : CmdFields) (data : List Byte) (s : State) : State :=
  startTx (build s.conn.ownAddr f.a s.cfg.stResponse f.c (nextId s) data) .transmit (firstSendTry (takeId s))

/-- GET_RESPONSE (R202, R214). -/
def dispatchGetResponse (f : CmdFields) (data : List Byte) (s : State) : State :=
  startTx (build s.conn.ownAddr f.a s.cfg.stRequest f.c (nextId s) data) .transmit (firstSendTry (takeId s))

/-- PROBE (R202, R215). -/
def dispatchProbe (f : CmdFields) (s : State) : State :=
  let p := build s.conn.ownAddr f.a s.cfg.stCheck s.cfg.cmdNone (nextId s) []
  let s := firstSendTry (takeId s)
  startTx p .transmit { s with seq := { s.seq with inUse := false } }

/-- ACKNOWLEDGE (R202, R216): `last_id` stays. -/
def dispatchAcknowledge (f : CmdFields) (s : State) : State :=
  startTx (build s.conn.ownAddr f.a s.cfg.stAck s.cfg.cmdNone f.i []) .transmit (firstSendTry s)

/-- WAIT_FOR_PACKET (R202, R211). -/
def dispatchWaitForPacket (f : CmdFields) (s : State) : State :=
  startWait .pktWait (waitFilter f) (timeoutOf f) s

/-- GET_REQUEST (R202, R212). -/
def dispatchGetRequest (f : CmdFields) (s : State) : State :=
  startWait .pktWait (requestFilter s.cfg) (timeoutOf f) s

/-- SET_ADDRESS (R202, R217). -/
def dispatchSetAddress (f : CmdFields) (s : State) : State :=
  respond { code := .ok } { s with conn := { s.conn with ownAddr := f.a, isInitialized := true } }

/-- GET_ADDRESS (R202, R218). -/
def dispatchGetAddress (s : State) : State :=
  respond { code := .ok, addr := some s.conn.ownAddr, init := some s.conn.isInitialized } s

/-- SEND (R210). -/
def execSend (f : CmdFields) (data : List Byte) (s : State) : Host.Outcome State Fault Refusal :=
  issue .send f data (dispatchSend f data) s

/-- WAIT_FOR_PACKET (R211). -/
def execWaitForPacket (f : CmdFields) (data : List Byte) (s : State) : Host.Outcome State Fault Refusal :=
  issue .waitForPacket f data (dispatchWaitForPacket f) s

/-- GET_REQUEST (R212). -/
def execGetRequest (f : CmdFields) (data : List Byte) (s : State) : Host.Outcome State Fault Refusal :=
  issue .getRequest f data (dispatchGetRequest f) s

/-- SEND_RESPONSE (R213). -/
def execSendResponse (f : CmdFields) (data : List Byte) (s : State) : Host.Outcome State Fault Refusal :=
  issue .sendResponse f data (dispatchSendResponse f data) s

/-- GET_RESPONSE (R214). -/
def execGetResponse (f : CmdFields) (data : List Byte) (s : State) : Host.Outcome State Fault Refusal :=
  issue .getResponse f data (dispatchGetResponse f data) s

/-- PROBE (R215). -/
def execProbe (f : CmdFields) (data : List Byte) (s : State) : Host.Outcome State Fault Refusal :=
  issue .probe f data (dispatchProbe f) s

/-- ACKNOWLEDGE (R216). -/
def execAcknowledge (f : CmdFields) (data : List Byte) (s : State) : Host.Outcome State Fault Refusal :=
  issue .acknowledge f data (dispatchAcknowledge f) s

/-- SET_ADDRESS (R217). -/
def execSetAddress (f : CmdFields) (data : List Byte) (s : State) : Host.Outcome State Fault Refusal :=
  issue .setAddress f data (dispatchSetAddress f) s

/-- GET_ADDRESS (R218). -/
def execGetAddress (f : CmdFields) (data : List Byte) (s : State) : Host.Outcome State Fault Refusal :=
  issue .getAddress f data dispatchGetAddress s

/-- RESERVED_0 (R219). -/
def execReserved0 (s : State) : Host.Outcome State Fault Refusal := issueIllegal s

/-- RESERVED_A (R219). -/
def execReservedA (s : State) : Host.Outcome State Fault Refusal := issueIllegal s

/-- RESERVED_B (R219). -/
def execReservedB (s : State) : Host.Outcome State Fault Refusal := issueIllegal s

/-- RESERVED_C (R219). -/
def execReservedC (s : State) : Host.Outcome State Fault Refusal := issueIllegal s

/-- RESERVED_D (R219). -/
def execReservedD (s : State) : Host.Outcome State Fault Refusal := issueIllegal s

/-- RESERVED_E (R219). -/
def execReservedE (s : State) : Host.Outcome State Fault Refusal := issueIllegal s

/-- RESERVED_F (R219). -/
def execReservedF (s : State) : Host.Outcome State Fault Refusal := issueIllegal s

/-- RESERVED_RSV (R99, R219). -/
def execReservedRsv (s : State) : Host.Outcome State Fault Refusal := issueIllegal s

end Sys2Proof.Machine
end

