-- ==== Sys2Proof/Machine/Reassembler.lean ====
section
/-! DEFINITION. The packet_reassembler and framing_parser (41_reassembler.md): the RX step, whole frames, and the
Check acknowledgement's transmitter. Meanings of RX_BYTE, CKA_TX and the five frame rows. -/
namespace Sys2Proof.Machine

/-- `frame_valid <- false`. -/
def markInvalid (s : State) : State := { s with rsm := { s.rsm with frameValid := false } }

/-- `to_idle()` (R148): the buffers keep their bytes. -/
def toIdle (s : State) : State := { s with rsm := { s.rsm with bytesRead := 0, frameValid := true } }

/-- `queue_check_ack()` (R149). -/
def queueCheckAck (h : Header) (s : State) : State :=
  { s with rsm := { s.rsm with
      ckaFrame := some (checkAckHeader s.cfg s.conn.ownAddr h), ckaPending := true } }

/-- `complete()` (R147): a valid Check is acknowledged, any other valid frame is published if the slot is empty, the
rest is discarded (R151, R171); then Idle. -/
def complete (s : State) : Except Fault State := do
  if s.rsm.frameValid then
    let h ← need .hdrBuf s.rsm.hdrBuf.header?
    if h.status = s.cfg.stCheck then .ok (toIdle (queueCheckAck h s))
    else if s.slot.hasPacket then .ok (toIdle s)
    else
      let p ← readPacket .payBuf h s.rsm.payBuf
      .ok (toIdle (publish p s))
  else .ok (toIdle s)

/-- The destination check (R143), made in the step that stores byte 1, with `own_addr` of that step (R158). -/
def checkDestination (s : State) : Except Fault State := do
  let d ← need .hdrBuf (s.rsm.hdrBuf.read 0)
  if destOk s.cfg s.conn.ownAddr d then .ok s else .ok (markInvalid s)

/-- The seventh byte (R144, R145, R147): the checksum check; an invalid header answers its length as the skip count;
a zero-length frame completes. -/
def finishHeader (s : State) : Except Fault (State × Byte) := do
  let h ← need .hdrBuf s.rsm.hdrBuf.header?
  let s := if checksumOk h then s else markInvalid s
  if s.rsm.frameValid then
    if h.length = 0 then
      let s ← complete s
      .ok (s, 0)
    else .ok (s, 0)
  else .ok (toIdle s, h.length)

/-- The header phase (R141). -/
def headerByte (b : Byte) (s : State) : Except Fault (State × Byte) := do
  let m ← writeByte .hdrBuf 7 s.rsm.hdrBuf s.rsm.bytesRead b
  let s := { s with rsm := { s.rsm with hdrBuf := m, bytesRead := s.rsm.bytesRead + 1 } }
  if s.rsm.bytesRead = 2 then
    let s ← checkDestination s
    .ok (s, 0)
  else if s.rsm.bytesRead = 7 then finishHeader s
  else .ok (s, 0)

/-- The payload phase (R146, R147, R156): the answer is never a nonzero skip. -/
def payloadByte (b : Byte) (s : State) : Except Fault (State × Byte) := do
  let m ← writeByte .payBuf 255 s.rsm.payBuf (s.rsm.bytesRead - 7) b
  let s := { s with rsm := { s.rsm with payBuf := m, bytesRead := s.rsm.bytesRead + 1 } }
  let l ← need .hdrBuf (s.rsm.hdrBuf.read 5)
  if s.rsm.bytesRead = 7 + l.toNat then
    let s ← complete s
    .ok (s, 0)
  else .ok (s, 0)

/-- RX_BYTE's pseudocode (R140): the state after and the skip count. A byte with a prior error marks the frame
invalid under `PRIOR_ERROR_INVALIDATES` and is still stored and counted (R142). -/
def rxStep (err : Bool) (b : Byte) (s : State) : Except Fault (State × Byte) :=
  let s := if err && s.cfg.priorErrorInvalidates then markInvalid s else s
  if s.rsm.bytesRead < 7 then headerByte b s else payloadByte b s

/-- The RX step with its answer delivered (R102). -/
def deliverByte (err : Bool) (b : Byte) (s : State) : Except Fault (State × Byte) := do
  let (s, k) ← rxStep err b s
  .ok (answerSkip k s, k)

/-- RX_BYTE (R140): held while a Check acknowledgement is pending (R153). -/
def execRxByte (err : Bool) (b : Byte) (s : State) : Host.Outcome State Fault Refusal :=
  if rxEnabled s then
    outcomeOf (do
      let (s, _) ← deliverByte err b (takeRx 1 s)
      .ok s)
  else hold s

/-- Error-free bytes delivered one after the other, `k` of them still to be withheld (R160), until RX holds: the state
after and the bytes RX has not taken. -/
def deliverBytes : List Byte → Nat → State → Except Fault (State × List Byte)
  | [], _, s => .ok (s, [])
  | _ :: bs, k + 1, s => deliverBytes bs k s
  | b :: bs, 0, s =>
    if rxEnabled s then
      match deliverByte false b s with
      | .ok (s, k) => deliverBytes bs k.toNat s
      | .error f => .error f
    else .ok (s, b :: bs)

/-- A whole frame (R108, R161; log 8): the run of RX steps over its bytes, the skip duty kept, as one step. Bytes RX
holds stay at the port. -/
def deliverFrame (bytes : List Byte) (s : State) : Host.Outcome State Fault Refusal :=
  outcomeOf (do
    let (t, left) ← deliverBytes bytes 0 s
    .ok (takeRx (bytes.length - left.length) t))

/-- FRAME_CHECK (R108, R149). -/
def execFrameCheck (h : FrameFields) (payload : List Byte) (s : State) : Host.Outcome State Fault Refusal :=
  deliverFrame (frameBytes s.cfg.stCheck h payload) s

/-- FRAME_ACK (R108, R170). -/
def execFrameAck (h : FrameFields) (payload : List Byte) (s : State) : Host.Outcome State Fault Refusal :=
  deliverFrame (frameBytes s.cfg.stAck h payload) s

/-- FRAME_REQUEST (R108, R170). -/
def execFrameRequest (h : FrameFields) (payload : List Byte) (s : State) : Host.Outcome State Fault Refusal :=
  deliverFrame (frameBytes s.cfg.stRequest h payload) s

/-- FRAME_RESPONSE (R108, R170). -/
def execFrameResponse (h : FrameFields) (payload : List Byte) (s : State) : Host.Outcome State Fault Refusal :=
  deliverFrame (frameBytes s.cfg.stResponse h payload) s

/-- FRAME_OTHER_STATUS (R108, R155). -/
def execFrameOtherStatus (st : Byte) (h : FrameFields) (payload : List Byte) (s : State) :
    Host.Outcome State Fault Refusal :=
  deliverFrame (frameBytes st h payload) s

/-- CKA_TX (R152): one attempt; its answer is dropped. -/
def execCkaTx (s : State) : Host.Outcome State Fault Refusal :=
  if ckaEnabled s then
    outcomeOf (do
      let h ← need .ckaFrame s.rsm.ckaFrame
      let s := txWrite h.bytes s
      .ok { s with rsm := { s.rsm with ckaPending := false } })
  else hold s

end Sys2Proof.Machine
end

