-- ==== Sys2Proof/Machine/Reset.lean ====
section
/-! DEFINITION. The meaning of RESET (70_reset_and_hazards.md). -/
namespace Sys2Proof.Machine

/-- RESET (R290): every element of R22 takes its reset value in one step. The outstanding command ends with no response
(R291); a pending Check acknowledgement is dropped unsent and the slot's packet is lost (R292). The parameters stay
(R295), and so do the ports: frames already written stay written, offers stay the environment's (log 12). -/
def execReset (s : State) : Host.Outcome State Fault Refusal :=
  .next { s with
    conn := { ownAddr := s.cfg.addrNone, isInitialized := false, lastId := 0x00 }
    rsm := { bytesRead := 0, hdrBuf := [], frameValid := true, payBuf := [], ckaPending := false, ckaFrame := none }
    slot := { hasPacket := false, hdr := [], pay := [] }
    seq := { phase := .idle, cur := none, txf := none, txTry := 0, sendTry := 0, flt := none, forever := false,
             remaining := 0, pollDue := false, got := none, inUse := false } }

end Sys2Proof.Machine
end

