-- ==== Sys2Proof/Machine/Dispatch.lean ====
section
/-! DEFINITION. One arm per constructor of Instr. -/
namespace Sys2Proof.Machine

/-- The meaning of an instruction that stands at the head of its port. -/
def exec (i : Instr) (s : State) : Host.Outcome State Fault Refusal :=
  match i with
  | .send f data => Sys2Proof.Machine.execSend f data s
  | .waitForPacket f data => Sys2Proof.Machine.execWaitForPacket f data s
  | .getRequest f data => Sys2Proof.Machine.execGetRequest f data s
  | .sendResponse f data => Sys2Proof.Machine.execSendResponse f data s
  | .getResponse f data => Sys2Proof.Machine.execGetResponse f data s
  | .probe f data => Sys2Proof.Machine.execProbe f data s
  | .acknowledge f data => Sys2Proof.Machine.execAcknowledge f data s
  | .setAddress f data => Sys2Proof.Machine.execSetAddress f data s
  | .getAddress f data => Sys2Proof.Machine.execGetAddress f data s
  | .reserved0 _ _ => Sys2Proof.Machine.execReserved0 s
  | .reservedA _ _ => Sys2Proof.Machine.execReservedA s
  | .reservedB _ _ => Sys2Proof.Machine.execReservedB s
  | .reservedC _ _ => Sys2Proof.Machine.execReservedC s
  | .reservedD _ _ => Sys2Proof.Machine.execReservedD s
  | .reservedE _ _ => Sys2Proof.Machine.execReservedE s
  | .reservedF _ _ => Sys2Proof.Machine.execReservedF s
  | .reservedRsv _ _ _ _ => Sys2Proof.Machine.execReservedRsv s
  | .frameCheck h payload => Sys2Proof.Machine.execFrameCheck h payload s
  | .frameAck h payload => Sys2Proof.Machine.execFrameAck h payload s
  | .frameRequest h payload => Sys2Proof.Machine.execFrameRequest h payload s
  | .frameResponse h payload => Sys2Proof.Machine.execFrameResponse h payload s
  | .frameOtherStatus st h payload => Sys2Proof.Machine.execFrameOtherStatus st h payload s
  | .rxByte err b => Sys2Proof.Machine.execRxByte err b s
  | .txFrame => Sys2Proof.Machine.execTxFrame s
  | .ckaTx => Sys2Proof.Machine.execCkaTx s
  | .tick => Sys2Proof.Machine.execTick s
  | .reset => Sys2Proof.Machine.execReset s

end Sys2Proof.Machine
end

