-- ==== Sys2Proof/Machine/Fetch.lean ====
section
/-! DEFINITION. Whose turn it is and what stands at its port (R5, R6, R102 to R107). The block fetches nothing from a
memory and has no program counter (R21): the HOST supplies each command and the environment each byte. -/
namespace Sys2Proof.Machine

/-- Whose turn it is: the head of the schedule, or the free turn where it names none (R5, R267; log 2). -/
def nextTurn (s : State) : Turn :=
  match s.ports.schedule with
  | t :: _ => t
  | [] => Config.freeTurn s.ports.freeTurns

/-- The state once the turn is taken. -/
def takeTurn (s : State) : State :=
  { s with ports := { s.ports with
      schedule := s.ports.schedule.tail
      freeTurns := if s.ports.schedule = [] then s.ports.freeTurns + 1 else s.ports.freeTurns } }

/-- What a turn runs. -/
inductive Fetched where
  /-- An instruction that stands at its port. -/
  | instr (i : Instr)
  /-- SEQ_POLL (R205), which no row of the table spells. -/
  | poll
  /-- The Bit Transport withholds a byte (R160). -/
  | withhold
  /-- Nothing is offered: the agent has no step to take. -/
  | nothing
  /-- The offer is one the model refuses (R98). -/
  | refuse (r : Refusal)

/-- The byte of an RX transaction (R102). -/
def rxByteOf (w : RxBits) : Byte := w.extractLsb' 0 8

/-- The bytes of the RX stream up to the first that carries a prior error. -/
def cleanBytes (ws : List RxBits) : List Byte := (ws.takeWhile fun w => !w.getLsbD 8).map rxByteOf

/-- What stands at the port of a turn. -/
def fetch (t : Turn) (s : State) : Fetched :=
  match t with
  | .host =>
    match s.ports.hostPort with
    | [] => .nothing
    | o :: _ =>
      match decode s.cfg (.host o.cw o.data) with
      | .ok i => .instr i
      | .error _ => .refuse .payloadLengthMismatch
  | .rx =>
    match s.ports.rxPort with
    | [] => .nothing
    | w :: _ =>
      match decode s.cfg (.rx w) with
      | .ok i => .instr i
      | .error _ => .nothing
  | .frame =>
    match decodeFrame s.cfg (cleanBytes s.ports.rxPort) with
    | .ok (i, _) => .instr i
    | .error _ => .nothing
  | .drop =>
    match s.ports.rxPort with
    | [] => .nothing
    | _ :: _ => .withhold
  | .tick => .instr (decodeEvent .tick)
  | .seqTx => .instr (decodeEvent .txWrite)
  | .seqPoll => .poll
  | .cka => .instr (decodeEvent .ckaWrite)
  | .reset => .instr (decodeEvent .reset)

/-- The state with an offer at the head of its port and its turn next. -/
def offerNext (o : Offer) (s : State) : State :=
  match o with
  | .host cw data =>
    { s with ports := { s.ports with
        hostPort := ⟨cw, data⟩ :: s.ports.hostPort, schedule := .host :: s.ports.schedule } }
  | .frame bytes =>
    { s with ports := { s.ports with
        rxPort := bytes.map rxBits ++ s.ports.rxPort, schedule := .frame :: s.ports.schedule } }
  | .rx w =>
    { s with ports := { s.ports with rxPort := w :: s.ports.rxPort, schedule := .rx :: s.ports.schedule } }
  | .event e =>
    let t := match e with
      | .txWrite => Turn.seqTx
      | .ckaWrite => Turn.cka
      | .tick => Turn.tick
      | .reset => Turn.reset
    { s with ports := { s.ports with schedule := t :: s.ports.schedule } }

/-- What the environment adds between two steps (R5, R6): offers, TX answers and turns. -/
structure Supply where
  hostPort : List HostOffer := []
  rxPort : List RxBits := []
  txAnswers : List TxAnswer := []
  schedule : List Turn := []
  deriving DecidableEq, Repr

/-- The state with what the environment adds, behind what already stands there. DESIGN CHOICE (log 22): inputs arrive
between steps, and nothing offered is withdrawn. -/
def supply (u : Supply) (s : State) : State :=
  { s with ports := { s.ports with
      hostPort := s.ports.hostPort ++ u.hostPort
      rxPort := s.ports.rxPort ++ u.rxPort
      txAnswers := s.ports.txAnswers ++ u.txAnswers
      schedule := s.ports.schedule ++ u.schedule } }

end Sys2Proof.Machine
end

