-- ==== Sys2Proof/Machine/Step.lean ====
section
/-! DEFINITION. One step of the machine: one atomic transition of one agent (R5, R66). -/
namespace Sys2Proof.Machine

/-- The step of the turn `t`, already taken from the schedule. -/
def runTurn (t : Turn) (s : State) : Host.Outcome State Fault Refusal :=
  match fetch t s with
  | .instr i => exec i s
  | .poll => seqPoll s
  | .withhold => .next (takeRx 1 s)
  | .nothing => hold s
  | .refuse r => .refused r

/-- One step: a configuration that breaks R8's conditions is refused (U20); otherwise the agent whose turn it is takes
its step, or holds (R12). -/
def step (s : State) : Host.Outcome State Fault Refusal :=
  if s.cfg.wf then runTurn (nextTurn s) (takeTurn s) else .refused .illFormedConfig

/-- `s` with a table word's instruction at the head of its port and its turn next (log 5). -/
def State.withFetchWord (s : State) (nbits w : Nat) : State :=
  match offerOfTableWord nbits w with
  | some o => offerNext o s
  | none => s

end Sys2Proof.Machine
end

