-- ==== Sys2Proof/Machine/Views.lean ====
section
/-! DEFINITION. What the spec reads off the state without storing it: the source's reassembler states (R27), the
host's view (R43, R178) and the classes of the constant codes (R90, R91). -/
namespace Sys2Proof.Machine

/-- The source's named reassembler states (R27). -/
inductive SourceState where
  | idle
  | awaitingHeader (bytesRead : Nat)
  | awaitingPayload (bytesRead : Nat)
  deriving DecidableEq, Repr

/-- R27, R131: the state is a function of `bytes_read`. -/
def sourceState (r : Reassembler) : SourceState :=
  if r.bytesRead = 0 then .idle
  else if r.bytesRead ≤ 6 then .awaitingHeader r.bytesRead
  else .awaitingPayload r.bytesRead

/-- The source's RequestData (R178). -/
structure RequestData where
  source : Byte
  destination : Byte
  command : Byte
  length : Byte
  payload : List Byte
  deriving DecidableEq, Repr

/-- RequestData of a consumed packet (R178). -/
def requestData (p : Packet) : RequestData :=
  ⟨p.hdr.source, p.hdr.destination, p.hdr.command, p.hdr.length, p.data⟩

/-- RequestData of a response that carries a packet (R100, R178). -/
def requestDataOf (r : Response) : Option RequestData :=
  match r.hdr, r.data with
  | some h, some d => some (requestData ⟨h, d⟩)
  | _, _ => none

/-- The registers GET_ADDRESS reads (R43): ADDR and INIT. -/
structure HostRegisters where
  addr : Byte
  init : Bool
  deriving DecidableEq, Repr

/-- The host's register view (R43). LAST_ID is not readable, SLOT is read only by a matching wait. -/
def hostRegisters (s : State) : HostRegisters := ⟨s.conn.ownAddr, s.conn.isInitialized⟩

/-- The classes of an address byte (R90). -/
inductive AddressClass where
  | none
  | broadcast
  | claimable
  | other
  deriving DecidableEq, Repr

/-- R90. -/
def addressClass (c : Config) (a : Byte) : AddressClass :=
  if a = c.addrNone then .none
  else if a = c.addrBroadcast then .broadcast
  else if c.claimable a then .claimable
  else .other

/-- The frame kinds by status byte (R91, R108). -/
inductive FrameKind where
  | check
  | acknowledge
  | request
  | response
  | undefinedKind
  deriving DecidableEq, Repr

/-- R91, R108: `ST_NONE` on the wire is an undefined kind (U1). -/
def frameKind (c : Config) (st : Byte) : FrameKind :=
  if st = c.stCheck then .check
  else if st = c.stAck then .acknowledge
  else if st = c.stRequest then .request
  else if st = c.stResponse then .response
  else .undefinedKind

end Sys2Proof.Machine
end

