-- ==== Sys2Proof/Machine/Assembler.lean ====
section
/-! DEFINITION. The host-side spellings of the commands (R109), the pseudo-commands (R110) and the address scan
INITIALIZE (R264, R294; program P1 of 95_test_vectors.md). Host software: no step of the block reads any of it. -/
namespace Sys2Proof.Machine

/-- A line of R109 with its symbolic names replaced by their codes; an id filter `ANY` is `none`. -/
inductive Line where
  | send (a s c : Byte) (data : List Byte)
  | waitForPacket (a s c : Byte) (i : Option Byte) (t : BitVec 16)
  | getRequest (t : BitVec 16)
  | sendResponse (a c : Byte) (data : List Byte)
  | getResponse (a c : Byte) (data : List Byte) (t : BitVec 16)
  | probe (a : Byte)
  | acknowledge (a i : Byte)
  | setAddress (a : Byte)
  | getAddress
  deriving DecidableEq, Repr

/-- An omitted field encodes as 0 (R109). -/
def noFields : CmdFields := ⟨false, 0, 0, 0, 0, 0, 0⟩

/-- `FOREVER` (R109): timeout -1. -/
def timeoutForever : BitVec 16 := -1

/-- The instruction a line spells (R109). -/
def Line.instr : Line → Instr
  | .send a s c data =>
    .send { noFields with a := a, s := s, c := c, l := BitVec.ofNat 8 data.length } data
  | .waitForPacket a s c (some i) t => .waitForPacket { noFields with a := a, s := s, c := c, i := i, t := t } []
  | .waitForPacket a s c none t => .waitForPacket { noFields with idAny := true, a := a, s := s, c := c, t := t } []
  | .getRequest t => .getRequest { noFields with t := t } []
  | .sendResponse a c data => .sendResponse { noFields with a := a, c := c, l := BitVec.ofNat 8 data.length } data
  | .getResponse a c data t =>
    .getResponse { noFields with a := a, c := c, l := BitVec.ofNat 8 data.length, t := t } data
  | .probe a => .probe { noFields with a := a } []
  | .acknowledge a i => .acknowledge { noFields with a := a, i := i } []
  | .setAddress a => .setAddress { noFields with a := a } []
  | .getAddress => .getAddress noFields []

/-- `CHECK a` (R110). -/
def pseudoCheck (a : Byte) : Line := .probe a

/-- `SEND_CHECK a` (R110): a raw Check, with no acknowledgement wait and no probe wait. -/
def pseudoSendCheck (c : Config) (a : Byte) : Line := .send a c.stCheck c.cmdNone []

/-- Where the host program INITIALIZE stands (R110, R294). -/
inductive Scan where
  | asking
  | probing (a : Byte)
  | claiming (a : Byte)
  | done
  /-- The host's result NoAddressAvailable (R264). -/
  | noAddressAvailable
  deriving DecidableEq, Repr

/-- The command the scan issues next (P1). -/
def Scan.command : Scan → Option Line
  | .asking => some .getAddress
  | .probing a => some (.probe a)
  | .claiming a => some (.setAddress a)
  | .done => none
  | .noAddressAvailable => none

/-- What the scan does with the response (R110, R294): `GET_ADDRESS` first, and stop if `init`; then the candidates from
`ADDR_MIN` up, claiming the first whose probe answers `in_use == false`. -/
def Scan.next (c : Config) (r : Response) : Scan → Scan
  | .asking => if r.init = some true then .done else .probing c.addrMin
  | .probing a =>
    if r.inUse = some false then .claiming a
    else if a < c.addrMax then .probing (a + 1)
    else .noAddressAvailable
  | .claiming _ => .done
  | .done => .done
  | .noAddressAvailable => .noAddressAvailable

end Sys2Proof.Machine
end

