-- ==== Sys2Proof/Machine/Bus.lean ====
section
/-! DEFINITION. Several nodes on one bus (R276): each its own block, no shared state; they see each other only through
the frames a transmitter hands to TX, which reach the other nodes as RX bytes (log 16). -/
namespace Sys2Proof.Machine

/-- N nodes. -/
structure Bus where
  nodes : List State
  deriving DecidableEq, Repr

/-- The frames a node wrote in the step from `s` to `t`. -/
def newWrites (s t : State) : List TxWrite := t.ports.txStream.drop s.ports.txStream.length

/-- The bus delivers the bytes of `ws` to a node's RX stream (R276); that node's `drop` turns withhold any of them, so
that any prefix, or none, of a failed frame reaches it (R104, U9). -/
def receiveFrom (ws : List TxWrite) (s : State) : State :=
  { s with ports := { s.ports with
      rxPort := s.ports.rxPort ++ (ws.flatMap fun w => w.bytes).map rxBits } }

/-- Node `k` takes its step and the bus delivers what it wrote to the others. -/
def busStep (k : Nat) (b : Bus) : Host.Outcome Bus Fault Refusal :=
  match b.nodes[k]? with
  | none => .next b
  | some s =>
    match step s with
    | .next t => .next ⟨b.nodes.mapIdx fun j n => if j = k then t else receiveFrom (newWrites s t) n⟩
    | .fault f => .fault f
    | .refused r => .refused r

end Sys2Proof.Machine
end

