-- ==== Sys2Proof/Safety.lean ====
section
/-! DEFINITION. When a turn is enabled, the invariant of every reachable state (R44 and the ranges of R22), quiescence
(R307), runs and weak fairness (R5). -/
namespace Sys2Proof.Machine

/-- Whether the agent of a turn has a step to take (R12 `hold` otherwise). -/
def enabled (t : Turn) (s : State) : Bool :=
  match t with
  | .host => !s.ports.hostPort.isEmpty && issueEnabled s
  | .rx => !s.ports.rxPort.isEmpty && rxEnabled s
  | .drop => !s.ports.rxPort.isEmpty
  | .frame => (decodeFrame s.cfg (cleanBytes s.ports.rxPort)).toOption.isSome && rxEnabled s
  | .tick => true
  | .seqTx => seqTxEnabled s
  | .seqPoll => seqPollEnabled s
  | .cka => ckaEnabled s
  | .reset => true

/-- Quiescence (R307): no step of the node's own is enabled. -/
def quiescent (s : State) : Bool :=
  decide (s.seq.phase = .idle) && s.rsm.bytesRead == 0 && !s.rsm.ckaPending

/-- A frame the block may hand to TX: its checksum is right (R123), it is `7 + length` bytes (R89) and its status is one
of the four (R91: the matcher value is never sent). -/
def frameOk (c : Config) (p : Packet) : Bool :=
  checksumOk p.hdr && p.data.length == p.hdr.length.toNat && c.wireStatus p.hdr.status

/-- The commands that transmit a frame of their own (R204). -/
def CmdOp.transmits : CmdOp → Bool
  | .send | .sendResponse | .getResponse | .probe | .acknowledge => true
  | .waitForPacket | .getRequest | .setAddress | .getAddress => false

/-- The commands whose frame is acknowledged (R204, R210, R213, R214). -/
def CmdOp.acknowledged : CmdOp → Bool
  | .send | .sendResponse | .getResponse => true
  | .probe | .acknowledge | .waitForPacket | .getRequest | .setAddress | .getAddress => false

/-- The commands that wait for a packet (R34). -/
def CmdOp.waitsForPacket : CmdOp → Bool
  | .waitForPacket | .getRequest | .getResponse | .probe => true
  | .send | .sendResponse | .acknowledge | .setAddress | .getAddress => false

/-- The reassembler's part: R44 items 1 and 2, R26, R28, R30, R31. -/
structure Reassembler.Inv (c : Config) (r : Reassembler) : Prop where
  hdrBuf_wf : r.hdrBuf.wf 7 = true
  payBuf_wf : r.payBuf.wf 255 = true
  position : r.bytesRead ≤ 261
  header_stored : ∀ i < r.bytesRead, i < 7 → (r.hdrBuf.read i).isSome = true
  idle_valid : r.bytesRead = 0 → r.frameValid = true
  header_passed : 7 ≤ r.bytesRead →
    ∃ h, r.hdrBuf.header? = some h ∧ checksumOk h = true ∧ r.bytesRead < 7 + h.length.toNat
  payload_stored : ∀ j < r.bytesRead - 7, (r.payBuf.read j).isSome = true
  cka_between_frames : r.ckaPending = true → r.bytesRead = 0
  cka_frame : r.ckaPending = true → ∃ h, r.ckaFrame = some h ∧ frameOk c ⟨h, []⟩ = true

/-- The slot's part: R44 items 5 and 6, R33. -/
structure Slot.Inv (c : Config) (sl : Slot) : Prop where
  hdr_wf : sl.hdr.wf 7 = true
  pay_wf : sl.pay.wf 255 = true
  full : sl.hasPacket = true → ∃ h data, sl.hdr.header? = some h ∧
    sl.pay.readRange 0 h.length.toNat = some data ∧ checksumOk h = true ∧ h.status ≠ c.stCheck ∧
    ∀ j, h.length.toNat ≤ j → sl.pay.read j = none

/-- The sequencer's part: R44 items 3 and 4, R34 to R41. -/
structure Sequencer.Inv (c : Config) (q : Sequencer) : Prop where
  idle_cur : q.phase = .idle ↔ q.cur = none
  cur_length : ∀ cmd, q.cur = some cmd → cmd.f.lengthOk cmd.data = true
  txf_ok : ∀ f, q.txf = some f → frameOk c f = true
  txTry_le : q.txTry ≤ c.maxTxAttempts
  sendTry_le : q.sendTry ≤ c.maxSendAttempts
  remaining_le : q.remaining ≤ 32767
  transmitting : q.phase.transmits = true → q.txf.isSome = true ∧ q.txTry < c.maxTxAttempts
  waiting : q.phase.waits = true → q.flt.isSome = true
  counted : q.phase.waits = true → q.forever = false → q.pollDue = false → 1 ≤ q.remaining
  transmit_cur : q.phase = .transmit → ∃ cmd, q.cur = some cmd ∧ cmd.op.transmits = true ∧ 1 ≤ q.sendTry
  ackWait_cur : q.phase = .ackWait →
    q.txf.isSome = true ∧ 1 ≤ q.sendTry ∧ ∃ cmd, q.cur = some cmd ∧ cmd.op.acknowledged = true
  pktWait_cur : q.phase = .pktWait → ∃ cmd, q.cur = some cmd ∧ cmd.op.waitsForPacket = true
  ackEmit_cur : q.phase = .ackEmit → q.got.isSome = true ∧ ∃ cmd, q.cur = some cmd ∧ cmd.op.waitsForPacket = true
  got_none : q.phase ≠ .ackEmit → q.got = none

/-- The invariant of every reachable state. -/
structure State.Inv (s : State) : Prop where
  cfg_wf : s.cfg.wf = true
  rsm : s.rsm.Inv s.cfg
  slot : s.slot.Inv s.cfg
  seq : s.seq.Inv s.cfg

/-- What has left the block is a sequence of well-formed frames: each is the wire form of a frame that is `frameOk`. -/
def TxStreamOk (c : Config) (ws : List TxWrite) : Prop :=
  ∀ w ∈ ws, ∃ p : Packet, frameOk c p = true ∧ w.bytes = p.wire

/-- `n` steps, stopping at the first fault or refusal. -/
def runSteps : Nat → State → Host.Outcome State Fault Refusal
  | 0, s => .next s
  | n + 1, s =>
    match step s with
    | .next t => runSteps n t
    | .fault f => .fault f
    | .refused r => .refused r

/-- An infinite run of the node in its environment (R5): each state is one in which a step is taken, and between two
steps the environment supplies what it likes, for ever if it likes (log 22). -/
def IsRun (r : Nat → State) : Prop := ∀ n, ∃ t u, step (r n) = .next t ∧ r (n + 1) = supply u t

/-- Weak fairness of the steps of `ts`: none of them stays enabled for ever without being taken. -/
def FairTo (ts : List Turn) (r : Nat → State) : Prop :=
  ∀ t ∈ ts, ∀ n, ∃ m ≥ n, enabled t (r m) = false ∨ nextTurn (r m) = t

/-- The steps of the internal agents, SEQ and CKA (R6). -/
def ownTurns : List Turn := [.seqTx, .seqPoll, .cka]

/-- Weak fairness of the block's own steps. DESIGN CHOICE (log 21): R5 rests a claim that a run ends on "weak fairness
of the enabled steps" and does not say of which agents. The model asks it of the internal agents alone and not of TICK,
HOST or RX, which are the environment's; a claim that a counted wait ends needs ticks and says `FairTo` of them too. -/
def WeaklyFair (r : Nat → State) : Prop := FairTo ownTurns r

end Sys2Proof.Machine
end

