-- ==== Sys2Proof/Certificates/Slice0/Obligations.lean ====
section
/-! DEFINITION. The statements for the provers. Rules are cited as R<n> of spec/. -/
open Sys2Proof Sys2Proof.Machine

/-! ### What a statement says of the ports and of a frame -/

/-- A response joins the host's responses (R100); the offer it answers has left the port (R107). -/
def Sys2Proof.Machine.answeredAtIssue (r : Response) (p : Ports) : Ports :=
  { p with hostPort := p.hostPort.tail, responses := p.responses ++ [r] }

/-- The oldest offer has left the host port (R107); nothing is answered yet. -/
def Sys2Proof.Machine.issueTaken (p : Ports) : Ports := { p with hostPort := p.hostPort.tail }

/-- A response joins the host's responses (R100). -/
def Sys2Proof.Machine.answered (r : Response) (p : Ports) : Ports := { p with responses := p.responses ++ [r] }

/-- One byte has left the RX stream and its skip answer `k` is given (R102). -/
def Sys2Proof.Machine.rxAnswered (k : Byte) (p : Ports) : Ports :=
  { p with rxPort := p.rxPort.drop 1, skips := p.skips ++ [k] }

/-- One frame write (R104): frame and answer in the TX stream, the draw made, the echo under `TX_ECHO` (R305). -/
def Sys2Proof.Machine.wrotePorts (s : State) (bytes : List Byte) : Ports :=
  { s.ports with
    txStream := s.ports.txStream ++ [⟨bytes, nextTxAnswer s⟩]
    txAnswers := s.ports.txAnswers.tail
    freeDraws := if s.ports.txAnswers = [] then s.ports.freeDraws + 1 else s.ports.freeDraws
    rxPort := if s.cfg.txEcho then s.ports.rxPort ++ bytes.map rxBits else s.ports.rxPort }

/-- The header `[d, u, st, c, i, l]` with the XOR of these six bytes as its checksum (R120, R123). -/
def Sys2Proof.Machine.sealedHeader (d u st c i l : Byte) : Header :=
  ⟨d, u, st, c, i, l, d ^^^ u ^^^ st ^^^ c ^^^ i ^^^ l⟩

/-- The frame is still valid after a byte with error bit `e` (R142). -/
def Sys2Proof.Machine.stillValid (e : Bool) (s : State) : Bool :=
  s.rsm.frameValid && !(e && s.cfg.priorErrorInvalidates)

/-- The wait registers of R195 for a timeout of `T` ticks. -/
def Sys2Proof.Machine.waitingFor (ph : SeqPhase) (f : Filter) (T : Int) (q : Sequencer) : Sequencer :=
  { q with phase := ph, flt := some f, forever := decide (T < 0), remaining := T.toNat, pollDue := true }

/-- The sequencer after a response (R209). -/
def Sys2Proof.Machine.completed (q : Sequencer) : Sequencer := { q with phase := .idle, cur := none, got := none }

/-! ### Encodings -/

/-- R80, R93, R94, R102: decoding the encoding of a well-formed instruction gives it back, every operand kept. -/
def Obligations.DecodeOfEncodeIsTheInstruction : Prop :=
  ∀ (c : Config) (i : Instr), c.wf = true → i.wf c = true → decode c (encode c i) = .ok i

/-- R80, R93, R94, R102: what decodes is well-formed and encodes back to the same bits: each offer has one meaning. -/
def Obligations.EncodeOfDecodeIsTheOffer : Prop :=
  ∀ (c : Config) (o : Offer) (i : Instr), c.wf = true → decode c o = .ok i → encode c i = o ∧ i.wf c = true

/-- The words of R109 and 95_test_vectors.md section 2.4, a received byte (R102) and the SEND example's frame (R140),
bit by bit, decode to the instructions they stand for. -/
def Obligations.SpecWordsDecode : Prop :=
  decode .default (.host 0x100A031000020000 [0xAA, 0xBB]) = .ok (.send ⟨false, 0x0A, 3, 0x10, 0, 2, 0⟩ [0xAA, 0xBB]) ∧
  decode .default (.host 0x210003000000FFFF []) = .ok (.waitForPacket ⟨true, 0, 3, 0, 0, 0, 0xFFFF⟩ []) ∧
  decode .default (.host 0x8002000000000000 []) = .ok (.setAddress ⟨false, 2, 0, 0, 0, 0, 0⟩ []) ∧
  decode .default (.host 0x120A030000000000 []) = .ok (.reservedRsv 1 1 ⟨false, 0x0A, 3, 0, 0, 0, 0⟩ []) ∧
  decode .default (.rx 0x10A) = .ok (.rxByte true 0x0A) ∧
  decode .default (.frame [0x0A, 0x05, 0x03, 0x10, 0x01, 0x02, 0x1F, 0xAA, 0xBB]) =
    .ok (.frameRequest ⟨0x0A, 0x05, 0x10, 0x01, 0x02, 0x1F⟩ [0xAA, 0xBB])

/-! ### The step -/

/-- The agent whose turn it is runs exactly the instruction that stands at its port; taking the turn changes the
schedule and nothing else (log 2). An agent to which nothing is offered holds (log 4). The frame turn, one whole
error-free frame as one step, is log 8; the drop turn, one byte withheld, is log 9; the SEQ_POLL turn, a step without a
table row, is log 18. -/
def Obligations.StepRunsWhatStandsAtThePort : Prop :=
  ∀ (s : State) (i : Instr), s.cfg.wf = true →
    (∀ o rest, nextTurn s = .host → s.ports.hostPort = o :: rest → decode s.cfg (.host o.cw o.data) = .ok i →
      step s = exec i (takeTurn s)) ∧
    (∀ w rest, nextTurn s = .rx → s.ports.rxPort = w :: rest → decode s.cfg (.rx w) = .ok i →
      step s = exec i (takeTurn s)) ∧
    (∀ rest, nextTurn s = .frame → decodeFrame s.cfg (cleanBytes s.ports.rxPort) = .ok (i, rest) →
      step s = exec i (takeTurn s)) ∧
    (nextTurn s = .seqTx → step s = exec .txFrame (takeTurn s)) ∧
    (nextTurn s = .cka → step s = exec .ckaTx (takeTurn s)) ∧
    (nextTurn s = .tick → step s = exec .tick (takeTurn s)) ∧
    (nextTurn s = .reset → step s = exec .reset (takeTurn s)) ∧
    (nextTurn s = .seqPoll → step s = seqPoll (takeTurn s)) ∧
    (∀ w rest, nextTurn s = .drop → s.ports.rxPort = w :: rest → step s = .next (takeRx 1 (takeTurn s))) ∧
    (nextTurn s = .host → s.ports.hostPort = [] → step s = .next (takeTurn s)) ∧
    (nextTurn s = .rx ∨ nextTurn s = .drop → s.ports.rxPort = [] → step s = .next (takeTurn s)) ∧
    (∀ e, nextTurn s = .frame → decodeFrame s.cfg (cleanBytes s.ports.rxPort) = .error e →
      step s = .next (takeTurn s)) ∧
    takeTurn s = { s with ports := { s.ports with
      schedule := s.ports.schedule.tail
      freeTurns := if s.ports.schedule = [] then s.ports.freeTurns + 1 else s.ports.freeTurns } }

/-- The instruction of a table word, placed by `withFetchWord`, is the one the very next step runs (log 5, the model's
choice of how a program comes to run). -/
def Obligations.FetchWordRunsNext : Prop :=
  ∀ (s : State) (nbits w : Nat) (o : Offer) (i : Instr), s.cfg.wf = true → offerOfTableWord nbits w = some o →
    decode s.cfg o = .ok i → step (s.withFetchWord nbits w) = exec i (takeTurn (offerNext o s))

/-- R8: a model refuses a configuration that breaks one of the conditions, and no other; the defaults are the table's. -/
def Obligations.ConfigurationConditions : Prop :=
  (∀ s : State, step s = .refused .illFormedConfig ↔
    (s.cfg.addrNone = s.cfg.addrBroadcast ∨ s.cfg.addrMax.toNat < s.cfg.addrMin.toNat ∨
      (s.cfg.addrMin.toNat ≤ s.cfg.addrNone.toNat ∧ s.cfg.addrNone.toNat ≤ s.cfg.addrMax.toNat) ∨
      (s.cfg.addrMin.toNat ≤ s.cfg.addrBroadcast.toNat ∧ s.cfg.addrBroadcast.toNat ≤ s.cfg.addrMax.toNat) ∨
      s.cfg.stNone = s.cfg.stCheck ∨ s.cfg.stNone = s.cfg.stAck ∨ s.cfg.stNone = s.cfg.stRequest ∨
      s.cfg.stNone = s.cfg.stResponse ∨ s.cfg.stCheck = s.cfg.stAck ∨ s.cfg.stCheck = s.cfg.stRequest ∨
      s.cfg.stCheck = s.cfg.stResponse ∨ s.cfg.stAck = s.cfg.stRequest ∨ s.cfg.stAck = s.cfg.stResponse ∨
      s.cfg.stRequest = s.cfg.stResponse ∨ s.cfg.maxTxAttempts < 1 ∨ s.cfg.maxSendAttempts < 1 ∨
      32767 < s.cfg.ackTimeout ∨ 32767 < s.cfg.checkTimeout)) ∧
  State.reset.cfg = ⟨0x00, 0xFF, 0x01, 0xFE, 0x00, 0x01, 0x02, 0x03, 0x04, 0x00, 3, 3, 10, 3, true, false⟩

/-- R98: a payload whose length differs from `l` (bits 23:16) is refused; a command offered while another is
outstanding is not refused but held: the step takes the turn and nothing else. That a wrong length is refused whether
the sequencer is Idle or not is log 13; the turn taken is log 2, the hold that leaves the rest log 4. -/
def Obligations.HostOfferRefusedOrHeld : Prop :=
  ∀ (s : State) (o : HostOffer) (rest : List HostOffer), s.cfg.wf = true → nextTurn s = .host →
    s.ports.hostPort = o :: rest →
    (o.data.length ≠ (o.cw >>> 16).toNat % 256 → step s = .refused .payloadLengthMismatch) ∧
    (o.data.length = (o.cw >>> 16).toNat % 256 → s.seq.phase ≠ .idle → step s = .next (takeTurn s))

/-! ### checksum_generator -/

/-- R120: the checksum is the XOR of header bytes 0 to 5; byte 6 is not read. -/
def Obligations.ChecksumIsXorOfSixBytes : Prop :=
  ∀ h : Header, checksum h = (h.bytes.take 6).foldl (· ^^^ ·) 0x00

/-- R122: a header passes exactly when the XOR of all seven bytes is 0x00. -/
def Obligations.HeaderPassesIffSevenBytesCancel : Prop :=
  ∀ h : Header, checksumOk h = true ↔ h.bytes.foldl (· ^^^ ·) 0x00 = 0x00

/-- R124: changing any single header byte of a frame that passed makes it fail. -/
def Obligations.SingleByteChangeIsDetected : Prop :=
  ∀ (h h' : Header) (k : Nat) (b : Byte), k < 7 → checksumOk h = true → h.bytes[k]? ≠ some b →
    h'.bytes = h.bytes.set k b → checksumOk h' = false

/-- R126, R123: every frame the block builds passes the check of R121: the command frames, the acknowledgement of a
consumed packet and the Check acknowledgement. -/
def Obligations.BuiltFramesPass : Prop :=
  (∀ (own d st c id : Byte) (data : List Byte), checksumOk (build own d st c id data).hdr = true) ∧
  (∀ (c : Config) (own : Byte) (p : Packet), checksumOk (ackFrame c own p).hdr = true) ∧
  (∀ (c : Config) (own : Byte) (h : Header), checksumOk (checkAckHeader c own h) = true)

/-! ### packet_reassembler -/

/-- R153, R140: while a Check acknowledgement is pending RX takes no byte, neither a single one nor one of a frame, and
SEQ_TX does not transmit; nothing changes and the offers stay (log 4). A frame held as one step is log 8. -/
def Obligations.PendingCheckAckHoldsRxAndTx : Prop :=
  ∀ (s : State) (e : Bool) (b st : Byte) (h : FrameFields) (p : List Byte), s.rsm.ckaPending = true →
    exec (.rxByte e b) s = .next s ∧ exec (.frameCheck h p) s = .next s ∧ exec (.frameAck h p) s = .next s ∧
    exec (.frameRequest h p) s = .next s ∧ exec (.frameResponse h p) s = .next s ∧
    exec (.frameOtherStatus st h p) s = .next s ∧ exec .txFrame s = .next s

/-- R141 to R143: a byte of the header before the seventh is stored at the current offset and counted, valid frame or
not; a prior error and, at the second byte, a destination that is neither `own_addr` nor broadcast mark the frame
invalid; the skip answer is 0. Every other byte of `hdr_buf`, and all the rest of the node, is unchanged. -/
def Obligations.HeaderByteIsStored : Prop :=
  ∀ (s : State) (e : Bool) (b d : Byte), s.rsm.ckaPending = false → s.rsm.bytesRead < 6 →
    (s.rsm.bytesRead = 1 → s.rsm.hdrBuf.read 0 = some d) →
    ∃ m : Memory, m.read s.rsm.bytesRead = some b ∧ (∀ a, a ≠ s.rsm.bytesRead → m.read a = s.rsm.hdrBuf.read a) ∧
      exec (.rxByte e b) s = .next { s with
        rsm := { s.rsm with
          bytesRead := s.rsm.bytesRead + 1
          hdrBuf := m
          frameValid := stillValid e s &&
            (s.rsm.bytesRead != 1 || d == s.conn.ownAddr || d == s.cfg.addrBroadcast) }
        ports := rxAnswered 0 s.ports }

/-- R144, R145: when the seventh byte leaves the frame invalid, by an earlier mark, a prior error or the checksum, the
step answers the header's length byte as the skip count and the reassembler is Idle; slot, acknowledgement and payload
buffer are unchanged. -/
def Obligations.InvalidHeaderAnswersItsLength : Prop :=
  ∀ (s : State) (e : Bool) (b : Byte) (h : Header), s.rsm.ckaPending = false → s.rsm.bytesRead = 6 →
    (s.rsm.hdrBuf.write 6 b).header? = some h →
    (stillValid e s && checksumOk h) = false →
    exec (.rxByte e b) s = .next { s with
      rsm := { s.rsm with bytesRead := 0, hdrBuf := s.rsm.hdrBuf.write 6 b, frameValid := true }
      ports := rxAnswered h.length s.ports }

/-- R144, R146: a seventh byte that leaves the frame valid with a nonzero length enters the payload phase, skip 0. -/
def Obligations.ValidHeaderEntersPayload : Prop :=
  ∀ (s : State) (e : Bool) (b : Byte) (h : Header), s.rsm.ckaPending = false → s.rsm.bytesRead = 6 →
    (s.rsm.hdrBuf.write 6 b).header? = some h → stillValid e s = true → checksumOk h = true → h.length ≠ 0 →
    exec (.rxByte e b) s = .next { s with
      rsm := { s.rsm with bytesRead := 7, hdrBuf := s.rsm.hdrBuf.write 6 b }
      ports := rxAnswered 0 s.ports }

/-- R146, R142: a payload byte before the last is stored at `bytes_read - 7` and counted; a prior error marks the frame
invalid; skip 0. Every other byte of `pay_buf`, and all the rest, is unchanged. -/
def Obligations.PayloadByteIsStored : Prop :=
  ∀ (s : State) (e : Bool) (b l : Byte), s.rsm.ckaPending = false → 7 ≤ s.rsm.bytesRead →
    s.rsm.hdrBuf.read 5 = some l → s.rsm.bytesRead + 1 < 7 + l.toNat →
    ∃ m : Memory, m.read (s.rsm.bytesRead - 7) = some b ∧
      (∀ a, a ≠ s.rsm.bytesRead - 7 → m.read a = s.rsm.payBuf.read a) ∧
      exec (.rxByte e b) s = .next { s with
        rsm := { s.rsm with bytesRead := s.rsm.bytesRead + 1, payBuf := m, frameValid := stillValid e s }
        ports := rxAnswered 0 s.ports }

/-- R147, R149, R151, R170, R171: the last byte of a frame, the seventh for a frame of length 0 (R144) or the last of its
payload: a valid Check queues the Acknowledge of R149 whether the slot is full or not; another valid frame is published
if the slot is empty; every other frame is discarded; the reassembler is Idle and answers 0. The slot that a publish
fills holds the header, the payload and nothing else (log 10: no value at and beyond the length). -/
def Obligations.LastByteCompletesTheFrame : Prop :=
  ∀ (s : State) (e : Bool) (b : Byte) (h : Header) (data : List Byte), s.rsm.ckaPending = false →
    ((s.rsm.bytesRead = 6 ∧ (s.rsm.hdrBuf.write 6 b).header? = some h ∧ h.length = 0 ∧ checksumOk h = true ∧
        stillValid e s = true ∧ data = []) ∨
      (7 ≤ s.rsm.bytesRead ∧ s.rsm.hdrBuf.header? = some h ∧ s.rsm.bytesRead + 1 = 7 + h.length.toNat ∧
        (s.rsm.payBuf.write (s.rsm.bytesRead - 7) b).readRange 0 h.length.toNat = some data)) →
    ∃ t, exec (.rxByte e b) s = .next t ∧
      t.cfg = s.cfg ∧ t.conn = s.conn ∧ t.seq = s.seq ∧ t.ports = rxAnswered 0 s.ports ∧
      t.rsm.bytesRead = 0 ∧ t.rsm.frameValid = true ∧
      (stillValid e s = true → h.status = s.cfg.stCheck →
        t.slot = s.slot ∧ t.rsm.ckaPending = true ∧
        t.rsm.ckaFrame = some (sealedHeader h.source s.conn.ownAddr s.cfg.stAck s.cfg.cmdNone h.id 0x00)) ∧
      (stillValid e s = true → h.status ≠ s.cfg.stCheck → s.slot.hasPacket = false →
        t.rsm.ckaPending = false ∧ t.rsm.ckaFrame = s.rsm.ckaFrame ∧ t.slot.hasPacket = true ∧
        (∀ j, t.slot.hdr.read j = h.bytes[j]?) ∧ (∀ j, t.slot.pay.read j = data[j]?)) ∧
      (stillValid e s = true → h.status ≠ s.cfg.stCheck → s.slot.hasPacket = true →
        t.slot = s.slot ∧ t.rsm.ckaPending = false ∧ t.rsm.ckaFrame = s.rsm.ckaFrame) ∧
      (stillValid e s = false → t.slot = s.slot ∧ t.rsm.ckaPending = false ∧ t.rsm.ckaFrame = s.rsm.ckaFrame)

/-- R227, R140: the RX step reads nothing of the sequencer: two nodes that differ in it alone take a byte alike. -/
def Obligations.RxDoesNotReadTheSequencer : Prop :=
  ∀ (s t : State) (q : Sequencer) (e : Bool) (b : Byte), exec (.rxByte e b) s = .next t →
    exec (.rxByte e b) { s with seq := q } = .next { t with seq := q }

/-- R152: CKA_TX is enabled exactly while the acknowledgement is pending; it writes `cka_frame` once, whatever the
answer, and clears the flag. The echo of the frame to the node's own RX stream under `TX_ECHO`, error-free and whatever
the answer, is log 14; the hold while nothing is pending is log 4. -/
def Obligations.CheckAckIsWrittenOnce : Prop :=
  ∀ (s : State) (h : Header),
    (s.rsm.ckaPending = true → s.rsm.ckaFrame = some h →
      exec .ckaTx s = .next { s with
        rsm := { s.rsm with ckaPending := false }, ports := wrotePorts s h.bytes }) ∧
    (s.rsm.ckaPending = false → exec .ckaTx s = .next s)

/-! ### Whole frames -/

/-- R161: a frame delivered whole to an Idle reassembler accounts for exactly `7 + L` bytes of the stream and leaves it
Idle: with an invalid header 7 bytes are consumed and the seventh answers `L`, with a valid one `7 + L` bytes are
consumed and each answers 0. All five frame rows; a whole frame as one step is log 8. -/
def Obligations.FrameConsumptionLaw : Prop :=
  ∀ (s : State) (i : Instr) (st : Byte) (h : FrameFields) (p : List Byte),
    s.rsm.ckaPending = false → s.rsm.bytesRead = 0 → s.rsm.frameValid = true → h.lengthOk p = true →
    (i = .frameCheck h p ∧ st = s.cfg.stCheck ∨ i = .frameAck h p ∧ st = s.cfg.stAck ∨
      i = .frameRequest h p ∧ st = s.cfg.stRequest ∨ i = .frameResponse h p ∧ st = s.cfg.stResponse ∨
      i = .frameOtherStatus st h p) →
    ∃ t, exec i s = .next t ∧ t.rsm.bytesRead = 0 ∧ t.rsm.frameValid = true ∧
      t.ports.rxPort = s.ports.rxPort.drop (7 + h.length.toNat) ∧
      t.ports.skips = s.ports.skips ++
        if (h.destination = s.conn.ownAddr ∨ h.destination = s.cfg.addrBroadcast) ∧ checksumOk (h.header st) = true
        then List.replicate (7 + h.length.toNat) 0 else List.replicate 6 0 ++ [h.length]

/-- R162: a well-formed Check addressed to the node, delivered whole, produces exactly one Acknowledge transmission,
addressed to its source with its id, and leaves the slot as it was. A whole frame as one step is log 8. A broadcast Check
(R157) is acknowledged alike: LastByteCompletesTheFrame states it at the frame's last byte. -/
def Obligations.CheckFrameLaw : Prop :=
  ∀ (s : State) (h : FrameFields) (p : List Byte),
    s.rsm.ckaPending = false → s.rsm.bytesRead = 0 → s.rsm.frameValid = true → h.lengthOk p = true →
    h.destination = s.conn.ownAddr → checksumOk (h.header s.cfg.stCheck) = true →
    ∃ t u, exec (.frameCheck h p) s = .next t ∧ t.slot = s.slot ∧ t.conn = s.conn ∧ t.seq = s.seq ∧ t.cfg = s.cfg ∧
      t.ports.txStream = s.ports.txStream ∧ t.rsm.ckaPending = true ∧
      exec .ckaTx t = .next u ∧ u.slot = s.slot ∧ u.rsm.ckaPending = false ∧
      u.ports.txStream = s.ports.txStream ++
        [⟨(sealedHeader h.source s.conn.ownAddr s.cfg.stAck s.cfg.cmdNone h.id 0x00).bytes, nextTxAnswer t⟩]

/-- R108, R170, R155: a valid Acknowledge, Request, Response or frame of an undefined status, delivered whole, is
published if the slot is empty: the slot holds its header and its payload and nothing else. The rest of the node but the
reassembler's buffers and the RX port is unchanged. A whole frame as one step is log 8; that the slot's payload holds no
value at and beyond the length is log 10. -/
def Obligations.FrameIsPublished : Prop :=
  ∀ (s : State) (i : Instr) (st : Byte) (h : FrameFields) (p : List Byte), s.cfg.wf = true →
    s.rsm.ckaPending = false → s.rsm.bytesRead = 0 → s.rsm.frameValid = true → h.lengthOk p = true →
    (i = .frameAck h p ∧ st = s.cfg.stAck ∨ i = .frameRequest h p ∧ st = s.cfg.stRequest ∨
      i = .frameResponse h p ∧ st = s.cfg.stResponse ∨
      i = .frameOtherStatus st h p ∧ s.cfg.wireStatus st = false) →
    (h.destination = s.conn.ownAddr ∨ h.destination = s.cfg.addrBroadcast) → checksumOk (h.header st) = true →
    s.slot.hasPacket = false →
    ∃ t, exec i s = .next t ∧ t.slot.hasPacket = true ∧ (∀ j, t.slot.hdr.read j = (h.header st).bytes[j]?) ∧
      (∀ j, t.slot.pay.read j = p[j]?) ∧ t.rsm.ckaPending = false ∧ t.rsm.ckaFrame = s.rsm.ckaFrame ∧
      t.cfg = s.cfg ∧ t.conn = s.conn ∧ t.seq = s.seq ∧
      t.ports = { s.ports with rxPort := t.ports.rxPort, skips := t.ports.skips }

/-- R171, R145, R151: a frame that is not a valid Check and finds the slot full, and every frame with an invalid header,
leaves the slot and the Check acknowledgement unchanged, and all of the node but the reassembler's buffers and the RX
port. A whole frame as one step is log 8. -/
def Obligations.FrameIsDiscarded : Prop :=
  ∀ (s : State) (i : Instr) (st : Byte) (h : FrameFields) (p : List Byte), s.cfg.wf = true →
    s.rsm.ckaPending = false → s.rsm.bytesRead = 0 → s.rsm.frameValid = true → h.lengthOk p = true →
    (i = .frameCheck h p ∧ st = s.cfg.stCheck ∨ i = .frameAck h p ∧ st = s.cfg.stAck ∨
      i = .frameRequest h p ∧ st = s.cfg.stRequest ∨ i = .frameResponse h p ∧ st = s.cfg.stResponse ∨
      i = .frameOtherStatus st h p ∧ s.cfg.wireStatus st = false) →
    (s.slot.hasPacket = true ∧ st ≠ s.cfg.stCheck ∨ checksumOk (h.header st) = false ∨
      h.destination ≠ s.conn.ownAddr ∧ h.destination ≠ s.cfg.addrBroadcast) →
    ∃ t, exec i s = .next t ∧ t.slot = s.slot ∧ t.rsm.ckaPending = false ∧ t.rsm.ckaFrame = s.rsm.ckaFrame ∧
      t.cfg = s.cfg ∧ t.conn = s.conn ∧ t.seq = s.seq ∧
      t.ports = { s.ports with rxPort := t.ports.rxPort, skips := t.ports.skips }

/-! ### Host commands -/

/-- R107, R200, R302: an issue of any opcode while a command is outstanding holds: nothing changes (log 4). -/
def Obligations.IssueHoldsWhileBusy : Prop :=
  ∀ (s : State) (f : CmdFields) (data : List Byte) (op : BitVec 4) (rsv : BitVec 3), s.seq.phase ≠ .idle →
    ∀ i ∈ [Instr.send f data, .waitForPacket f data, .getRequest f data, .sendResponse f data, .getResponse f data,
        .probe f data, .acknowledge f data, .setAddress f data, .getAddress f data, .reserved0 f data,
        .reservedA f data, .reservedB f data, .reservedC f data, .reservedD f data, .reservedE f data,
        .reservedF f data, .reservedRsv op rsv f data],
      exec i s = .next s

/-- R219: reserved opcodes and any word with a nonzero `rsv` answer IllegalCommand in the issue step and write no state:
in an Idle sequencer with no command outstanding only the response is new. -/
def Obligations.ReservedEncodingsAnswerIllegalCommand : Prop :=
  ∀ (s : State) (f : CmdFields) (data : List Byte) (op : BitVec 4) (rsv : BitVec 3), s.seq.phase = .idle →
    s.seq.cur = none → s.seq.got = none →
    ∀ i ∈ [Instr.reserved0 f data, .reservedA f data, .reservedB f data, .reservedC f data, .reservedD f data,
        .reservedE f data, .reservedF f data, .reservedRsv op rsv f data],
      exec i s = .next { s with ports := answeredAtIssue { code := .illegalCommand } s.ports }

/-- R201: a gated command issued before an address is claimed answers NotInitialized at once; only the response is new.
The status of a SEND is not looked at first (R265). -/
def Obligations.GatedCommandsAnswerNotInitialized : Prop :=
  ∀ (s : State) (f : CmdFields) (data : List Byte), s.seq.phase = .idle → s.seq.cur = none → s.seq.got = none →
    s.conn.isInitialized = false →
    ∀ i ∈ [Instr.send f data, .waitForPacket f data, .getRequest f data, .sendResponse f data, .getResponse f data,
        .acknowledge f data],
      exec i s = .next { s with ports := answeredAtIssue { code := .notInitialized } s.ports }

/-- R99: a SEND whose status is none of the four wire statuses, and a SET_ADDRESS outside `ADDR_MIN..ADDR_MAX`, answer
IllegalCommand; only the response is new. -/
def Obligations.IllegalOperandsAnswerIllegalCommand : Prop :=
  ∀ (s : State) (f : CmdFields) (data : List Byte), s.seq.phase = .idle → s.seq.cur = none → s.seq.got = none →
    (s.conn.isInitialized = true → f.s ≠ s.cfg.stCheck → f.s ≠ s.cfg.stAck → f.s ≠ s.cfg.stRequest →
      f.s ≠ s.cfg.stResponse →
      exec (.send f data) s = .next { s with ports := answeredAtIssue { code := .illegalCommand } s.ports }) ∧
    (f.a.toNat < s.cfg.addrMin.toNat ∨ s.cfg.addrMax.toNat < f.a.toNat →
      exec (.setAddress f data) s = .next { s with ports := answeredAtIssue { code := .illegalCommand } s.ports })

/-- R202, R191, R192, R196: SEND, SEND_RESPONSE and GET_RESPONSE take the next id, build the frame from `own_addr` and
the operands, and enter `Transmit` with no attempt made; reassembler, slot and address are unchanged. -/
def Obligations.SendCommandsStartTransmission : Prop :=
  ∀ (s : State) (f : CmdFields) (data : List Byte) (i : Instr) (op : CmdOp) (st : Byte), s.seq.phase = .idle →
    s.conn.isInitialized = true →
    (i = .send f data ∧ op = .send ∧ st = f.s ∧ s.cfg.wireStatus f.s = true ∨
      i = .sendResponse f data ∧ op = .sendResponse ∧ st = s.cfg.stResponse ∨
      i = .getResponse f data ∧ op = .getResponse ∧ st = s.cfg.stRequest) →
    exec i s = .next { s with
      conn := { s.conn with lastId := s.conn.lastId + 1 }
      seq := { s.seq with
        phase := .transmit, cur := some ⟨op, f, data⟩, txTry := 0, sendTry := 1
        txf := some ⟨sealedHeader f.a s.conn.ownAddr st f.c (s.conn.lastId + 1) (BitVec.ofNat 8 data.length), data⟩ }
      ports := issueTaken s.ports }

/-- R202, R215: PROBE is not gated; it takes the next id, clears `in_use` and enters `Transmit` with a Check frame. -/
def Obligations.ProbeStartsTransmission : Prop :=
  ∀ (s : State) (f : CmdFields) (data : List Byte), s.seq.phase = .idle →
    exec (.probe f data) s = .next { s with
      conn := { s.conn with lastId := s.conn.lastId + 1 }
      seq := { s.seq with
        phase := .transmit, cur := some ⟨.probe, f, data⟩, txTry := 0, sendTry := 1, inUse := false
        txf := some ⟨sealedHeader f.a s.conn.ownAddr s.cfg.stCheck s.cfg.cmdNone (s.conn.lastId + 1) 0x00, []⟩ }
      ports := issueTaken s.ports }

/-- R202, R216: ACKNOWLEDGE enters `Transmit` with an Acknowledge of id `i`; `last_id` is unchanged. -/
def Obligations.AcknowledgeStartsTransmission : Prop :=
  ∀ (s : State) (f : CmdFields) (data : List Byte), s.seq.phase = .idle → s.conn.isInitialized = true →
    exec (.acknowledge f data) s = .next { s with
      seq := { s.seq with
        phase := .transmit, cur := some ⟨.acknowledge, f, data⟩, txTry := 0, sendTry := 1
        txf := some ⟨sealedHeader f.a s.conn.ownAddr s.cfg.stAck s.cfg.cmdNone f.i 0x00, []⟩ }
      ports := issueTaken s.ports }

/-- R202, R195, R9: WAIT_FOR_PACKET and GET_REQUEST enter `PktWait` with their filter; a negative timeout waits for
ever, another counts its ticks; the first poll is owed at once. -/
def Obligations.WaitCommandsStartWait : Prop :=
  ∀ (s : State) (f : CmdFields) (data : List Byte), s.seq.phase = .idle → s.conn.isInitialized = true →
    exec (.waitForPacket f data) s = .next { s with
      seq := waitingFor .pktWait ⟨f.a, f.s, f.c, f.i, f.idAny⟩ f.t.toInt
        { s.seq with cur := some ⟨.waitForPacket, f, data⟩ }
      ports := issueTaken s.ports } ∧
    exec (.getRequest f data) s = .next { s with
      seq := waitingFor .pktWait ⟨s.cfg.addrNone, s.cfg.stRequest, s.cfg.cmdNone, 0x00, true⟩ f.t.toInt
        { s.seq with cur := some ⟨.getRequest, f, data⟩ }
      ports := issueTaken s.ports }

/-- R217, R218: SET_ADDRESS of an address in range claims it and answers Ok, of any other answers IllegalCommand;
GET_ADDRESS answers `own_addr` and `is_initialized` and writes nothing. Neither is gated. -/
def Obligations.AddressCommands : Prop :=
  ∀ (s : State) (f : CmdFields) (data : List Byte), s.seq.phase = .idle → s.seq.cur = none → s.seq.got = none →
    (s.cfg.addrMin.toNat ≤ f.a.toNat → f.a.toNat ≤ s.cfg.addrMax.toNat →
      exec (.setAddress f data) s = .next { s with
        conn := { s.conn with ownAddr := f.a, isInitialized := true }
        ports := answeredAtIssue { code := .ok } s.ports }) ∧
    (f.a.toNat < s.cfg.addrMin.toNat ∨ s.cfg.addrMax.toNat < f.a.toNat →
      exec (.setAddress f data) s = .next { s with ports := answeredAtIssue { code := .illegalCommand } s.ports }) ∧
    exec (.getAddress f data) s = .next { s with
      ports := answeredAtIssue
        { code := .ok, addr := some s.conn.ownAddr, init := some s.conn.isInitialized } s.ports }

/-! ### SEQ_TX -/

/-- R203: SEQ_TX is enabled exactly in `Transmit` and `AckEmit` with no Check acknowledgement pending; otherwise nothing
changes (log 4). A collision short of `MAX_TX_ATTEMPTS` writes the frame, counts the attempt and stays. The echo of the
frame to the node's own RX stream under `TX_ECHO`, error-free and on a collision too, is log 14. -/
def Obligations.CollisionIsRetried : Prop :=
  ∀ (s : State) (f : Packet),
    (s.seq.phase ≠ .transmit → s.seq.phase ≠ .ackEmit → exec .txFrame s = .next s) ∧
    (s.seq.phase = .transmit ∨ s.seq.phase = .ackEmit → s.rsm.ckaPending = false → s.seq.txf = some f →
      nextTxAnswer s = .collisionDetected → s.seq.txTry + 1 < s.cfg.maxTxAttempts →
      exec .txFrame s = .next { s with
        seq := { s.seq with txTry := s.seq.txTry + 1 }, ports := wrotePorts s f.wire })

/-- R204: the end of a command's own transmission. PROBE waits whatever the answer; ACKNOWLEDGE reports it; a failed send
reports its failure; a send whose frame is a control packet or a broadcast is done; any other waits for its Acknowledge
(R193). GET_RESPONSE to broadcast answers with no header and empty data; a GET_RESPONSE whose frame wants no wait and is
no broadcast would enter its second wait. A TX answer is reported by the code of the same name. The echo of the frame to
the node's own RX stream under `TX_ECHO`, error-free and whatever the answer, is log 14. -/
def Obligations.TransmissionOutcome : Prop :=
  (codeOfAnswer .ok = .ok ∧ codeOfAnswer .collisionDetected = .collisionDetected ∧
    codeOfAnswer .writeError = .writeError) ∧
  ∀ (s : State) (f : Packet) (cmd : Command), s.seq.phase = .transmit → s.rsm.ckaPending = false →
    s.seq.txf = some f → s.seq.cur = some cmd →
    (nextTxAnswer s ≠ .collisionDetected ∨ s.cfg.maxTxAttempts ≤ s.seq.txTry + 1) →
    let q := { s.seq with txTry := s.seq.txTry + 1 }
    let p := wrotePorts s f.wire
    let control := f.hdr.status = s.cfg.stCheck ∨ f.hdr.status = s.cfg.stAck
    let broadcast := f.hdr.destination = s.cfg.addrBroadcast
    let sends := cmd.op = .send ∨ cmd.op = .sendResponse ∨ cmd.op = .getResponse
    (cmd.op = .probe → exec .txFrame s = .next { s with
      seq := waitingFor .pktWait ⟨cmd.f.a, s.cfg.stAck, s.cfg.cmdNone, f.hdr.id, false⟩ s.cfg.checkTimeout q
      ports := p }) ∧
    (cmd.op = .acknowledge → exec .txFrame s = .next { s with
      seq := completed q, ports := answered { code := codeOfAnswer (nextTxAnswer s) } p }) ∧
    (sends → nextTxAnswer s ≠ .ok → exec .txFrame s = .next { s with
      seq := completed q, ports := answered { code := codeOfAnswer (nextTxAnswer s) } p }) ∧
    (sends → nextTxAnswer s = .ok → ¬control → ¬broadcast → exec .txFrame s = .next { s with
      seq := waitingFor .ackWait ⟨f.hdr.destination, s.cfg.stAck, s.cfg.cmdNone, f.hdr.id, false⟩ s.cfg.ackTimeout q
      ports := p }) ∧
    (cmd.op = .send ∨ cmd.op = .sendResponse → nextTxAnswer s = .ok → control ∨ broadcast →
      exec .txFrame s = .next { s with seq := completed q, ports := answered { code := .ok } p }) ∧
    (cmd.op = .getResponse → nextTxAnswer s = .ok → broadcast →
      exec .txFrame s = .next { s with seq := completed q, ports := answered { code := .ok, data := some [] } p }) ∧
    (cmd.op = .getResponse → nextTxAnswer s = .ok → control → ¬broadcast → exec .txFrame s = .next { s with
      seq := waitingFor .pktWait ⟨cmd.f.a, s.cfg.stResponse, cmd.f.c, 0x00, true⟩ cmd.f.t.toInt q
      ports := p })

/-- R208, R203: the last attempt of an acknowledgement emission answers Ok with the consumed packet, whatever the answer
of the Bit Transport. The echo of the frame to the node's own RX stream under `TX_ECHO`, error-free and whatever the
answer, is log 14. -/
def Obligations.AcknowledgementEmissionEnds : Prop :=
  ∀ (s : State) (f p : Packet), s.seq.phase = .ackEmit → s.rsm.ckaPending = false → s.seq.txf = some f →
    s.seq.got = some p → (nextTxAnswer s ≠ .collisionDetected ∨ s.cfg.maxTxAttempts ≤ s.seq.txTry + 1) →
    exec .txFrame s = .next { s with
      seq := completed { s.seq with txTry := s.seq.txTry + 1 }
      ports := answered { code := .ok, hdr := some p.hdr, data := some p.data } (wrotePorts s f.wire) }

/-- R225: a SEND, SEND_RESPONSE or GET_RESPONSE to broadcast starts the transmission of a broadcast frame; the SEQ_TX step
whose answer is Ok answers it Ok, and no SEQ_TX step of it enters `AckWait`, whatever the answer. -/
def Obligations.BroadcastNeverWaits : Prop :=
  (∀ (s : State) (f : CmdFields) (data : List Byte) (i : Instr), s.seq.phase = .idle →
    s.conn.isInitialized = true → f.a = s.cfg.addrBroadcast →
    (i = .send f data ∧ s.cfg.wireStatus f.s = true ∨ i = .sendResponse f data ∨ i = .getResponse f data) →
    ∃ t p cmd, exec i s = .next t ∧ t.seq.phase = .transmit ∧ t.seq.txf = some p ∧ t.seq.cur = some cmd ∧
      p.hdr.destination = s.cfg.addrBroadcast ∧ (cmd.op = .send ∨ cmd.op = .sendResponse ∨ cmd.op = .getResponse)) ∧
  (∀ (s : State) (p : Packet) (cmd : Command), s.seq.phase = .transmit → s.rsm.ckaPending = false →
    s.seq.txf = some p → s.seq.cur = some cmd → p.hdr.destination = s.cfg.addrBroadcast →
    (cmd.op = .send ∨ cmd.op = .sendResponse ∨ cmd.op = .getResponse) →
    ∃ u, exec .txFrame s = .next u ∧ u.seq.phase ≠ .ackWait ∧
      (nextTxAnswer s = .ok → u.seq.phase = .idle ∧
        ∃ r, u.ports.responses = s.ports.responses ++ [r] ∧ r.code = .ok))

/-! ### SEQ_POLL -/

/-- R173: the filter test, each field with its wildcard. -/
def Obligations.FilterMatches : Prop :=
  ∀ (c : Config) (h : Header) (f : Filter), matchesFilter c h f = true ↔
    (f.src = c.addrNone ∨ h.source = f.src) ∧ (f.st = c.stNone ∨ h.status = f.st) ∧
    (f.cmd = c.cmdNone ∨ h.command = f.cmd) ∧ (f.idAny = true ∨ h.id = f.id)

/-- R175, R205: a poll that finds the slot empty or a packet that does not match, with ticks left or for ever, writes
`poll_due` and nothing else: the slot is not drained. A poll that is not owed does nothing (log 4). -/
def Obligations.FailedPollChangesNothingElse : Prop :=
  ∀ (s : State) (h : Header) (f : Filter),
    (seqPollEnabled s = false → seqPoll s = .next s) ∧
    (s.seq.phase = .ackWait ∨ s.seq.phase = .pktWait → s.seq.pollDue = true →
      (s.slot.hasPacket = false ∨
        s.slot.hdr.header? = some h ∧ s.seq.flt = some f ∧ matchesFilter s.cfg h f = false) →
      s.seq.forever = true ∨ s.seq.remaining ≠ 0 →
      seqPoll s = .next { s with seq := { s.seq with pollDue := false } })

/-- R207, R205, R174: a poll in `AckWait` that matches consumes the Acknowledge and ends the send: GET_RESPONSE to a
unicast address waits for its Response, every other send answers Ok. -/
def Obligations.MatchedAcknowledgementEndsSend : Prop :=
  ∀ (s : State) (h : Header) (data : List Byte) (g : Filter) (f : Packet) (cmd : Command), s.seq.phase = .ackWait →
    s.seq.pollDue = true → s.slot.hasPacket = true → s.slot.hdr.header? = some h →
    s.slot.pay.readRange 0 h.length.toNat = some data → s.seq.flt = some g → matchesFilter s.cfg h g = true →
    s.seq.cur = some cmd → s.seq.txf = some f →
    (cmd.op = .getResponse → f.hdr.destination ≠ s.cfg.addrBroadcast → seqPoll s = .next { s with
      slot := { s.slot with hasPacket := false }
      seq := waitingFor .pktWait ⟨cmd.f.a, s.cfg.stResponse, cmd.f.c, 0x00, true⟩ cmd.f.t.toInt
        { s.seq with got := none } }) ∧
    (cmd.op ≠ .getResponse → seqPoll s = .next { s with
      slot := { s.slot with hasPacket := false }
      seq := completed s.seq
      ports := answered { code := .ok } s.ports })

/-- R207, R174, R176, R194: a poll in `PktWait` that matches consumes the packet. PROBE answers `in_use` true; a packet
that is neither an Acknowledge nor a broadcast is acknowledged to its source with its id before the response; any other
is answered at once with its header and payload. `last_id` is unchanged. -/
def Obligations.MatchedPacketIsConsumed : Prop :=
  ∀ (s : State) (h : Header) (data : List Byte) (g : Filter) (cmd : Command), s.seq.phase = .pktWait →
    s.seq.pollDue = true → s.slot.hasPacket = true → s.slot.hdr.header? = some h →
    s.slot.pay.readRange 0 h.length.toNat = some data → s.seq.flt = some g → matchesFilter s.cfg h g = true →
    s.seq.cur = some cmd →
    (cmd.op = .probe → seqPoll s = .next { s with
      slot := { s.slot with hasPacket := false }
      seq := { completed s.seq with inUse := true }
      ports := answered { code := .ok, inUse := some true } s.ports }) ∧
    (cmd.op ≠ .probe → h.status ≠ s.cfg.stAck → h.destination ≠ s.cfg.addrBroadcast → seqPoll s = .next { s with
      slot := { s.slot with hasPacket := false }
      seq := { s.seq with
        phase := .ackEmit, got := some ⟨h, data⟩, txTry := 0
        txf := some ⟨sealedHeader h.source s.conn.ownAddr s.cfg.stAck s.cfg.cmdNone h.id 0x00, []⟩ } }) ∧
    (cmd.op ≠ .probe → h.status = s.cfg.stAck ∨ h.destination = s.cfg.addrBroadcast → seqPoll s = .next { s with
      slot := { s.slot with hasPacket := false }
      seq := completed s.seq
      ports := answered { code := .ok, hdr := some h, data := some data } s.ports })

/-- R207: the failed poll at the end of a wait. In `AckWait` the same frame is sent again while attempts are left and
TimeoutExceeded is answered when they are not; in `PktWait` PROBE answers `in_use` false and any other command
TimeoutExceeded. The slot is untouched. -/
def Obligations.WaitTimesOut : Prop :=
  ∀ (s : State) (h : Header) (g : Filter) (f : Packet) (cmd : Command), s.seq.pollDue = true →
    (s.slot.hasPacket = false ∨
      s.slot.hdr.header? = some h ∧ s.seq.flt = some g ∧ matchesFilter s.cfg h g = false) →
    s.seq.forever = false → s.seq.remaining = 0 → s.seq.cur = some cmd →
    (s.seq.phase = .ackWait → s.seq.sendTry < s.cfg.maxSendAttempts → s.seq.txf = some f →
      seqPoll s = .next { s with
        seq := { s.seq with phase := .transmit, txTry := 0, sendTry := s.seq.sendTry + 1, pollDue := false } }) ∧
    (s.seq.phase = .ackWait → s.cfg.maxSendAttempts ≤ s.seq.sendTry → seqPoll s = .next { s with
      seq := { completed s.seq with pollDue := false }, ports := answered { code := .timeoutExceeded } s.ports }) ∧
    (s.seq.phase = .pktWait → cmd.op = .probe → seqPoll s = .next { s with
      seq := { completed s.seq with pollDue := false }
      ports := answered { code := .ok, inUse := some false } s.ports }) ∧
    (s.seq.phase = .pktWait → cmd.op ≠ .probe → seqPoll s = .next { s with
      seq := { completed s.seq with pollDue := false }, ports := answered { code := .timeoutExceeded } s.ports })

/-! ### TICK and RESET -/

/-- R206: in a wait that owes no poll a tick counts `remaining` down unless the wait is for ever, and owes a poll; in
every other state it has no effect. -/
def Obligations.TickCountsAndOwesAPoll : Prop :=
  ∀ s : State,
    (s.seq.phase = .ackWait ∨ s.seq.phase = .pktWait → s.seq.pollDue = false →
      s.seq.forever = true ∨ 1 ≤ s.seq.remaining →
      exec .tick s = .next { s with seq := { s.seq with
        pollDue := true
        remaining := if s.seq.forever then s.seq.remaining else s.seq.remaining - 1 } }) ∧
    ((s.seq.phase ≠ .ackWait ∧ s.seq.phase ≠ .pktWait) ∨ s.seq.pollDue = true → exec .tick s = .next s)

/-- R290: RESET, in every state, sets every element of R22 to its reset value in one step. -/
def Obligations.ResetValues : Prop :=
  ∀ s : State, ∃ t, exec .reset s = .next t ∧
    t.conn.ownAddr = s.cfg.addrNone ∧ t.conn.isInitialized = false ∧ t.conn.lastId = 0x00 ∧
    t.rsm.bytesRead = 0 ∧ t.rsm.frameValid = true ∧ t.rsm.ckaPending = false ∧
    (∀ a, t.rsm.hdrBuf.read a = none) ∧ (∀ a, t.rsm.payBuf.read a = none) ∧ t.rsm.ckaFrame = none ∧
    t.slot.hasPacket = false ∧ (∀ a, t.slot.hdr.read a = none) ∧ (∀ a, t.slot.pay.read a = none) ∧
    t.seq.phase = .idle ∧ t.seq.cur = none ∧ t.seq.got = none ∧ t.seq.txf = none ∧ t.seq.flt = none ∧
    t.seq.txTry = 0 ∧ t.seq.sendTry = 0 ∧ t.seq.forever = false ∧ t.seq.remaining = 0 ∧ t.seq.pollDue = false ∧
    t.seq.inUse = false

/-- RESET leaves the parameters (R295) and, by the model's choice of log 12, the ports; the outstanding command gets no
response (R291). State.reset is a state RESET leaves as it is (R293), with nothing at the ports (log 5). -/
def Obligations.ResetKeepsParametersAndPorts : Prop :=
  (∀ s t : State, exec .reset s = .next t → t.cfg = s.cfg ∧ t.ports = s.ports) ∧
  exec .reset State.reset = .next State.reset ∧ State.reset.ports = ⟨[], [], [], [], [], [], [], 0, 0⟩

/-! ### Laws over every step -/

/-- R44: the reset state meets the invariant, under every configuration the model accepts. -/
def Obligations.ResetMeetsTheInvariant : Prop :=
  ∀ c : Config, c.wf = true → (State.resetWith c).Inv

/-- R44: every step keeps the invariant. -/
def Obligations.StepKeepsTheInvariant : Prop :=
  ∀ s t : State, s.Inv → step s = .next t → t.Inv

/-- R12, R22, R68: the block has no fault state: in a state that meets the invariant no step faults, so no element
without a value is read, no index is out of range and no counter leaves its range. -/
def Obligations.NoStepFaults : Prop :=
  ∀ (s : State) (e : Fault), s.Inv → step s ≠ .fault e

/-- R123, R89, R91: every step keeps what the node has transmitted a sequence of well-formed frames: a right checksum,
`7 + length` bytes, and one of the four wire statuses, never `ST_NONE`. -/
def Obligations.TransmittedFramesAreWellFormed : Prop :=
  ∀ s t : State, s.Inv → TxStreamOk s.cfg s.ports.txStream → step s = .next t → TxStreamOk t.cfg t.ports.txStream

/-- R295: the parameters do not change while the block runs. -/
def Obligations.ParametersNeverChange : Prop :=
  ∀ s t : State, step s = .next t → t.cfg = s.cfg

/-- R23, R24: only SET_ADDRESS writes `own_addr` and `is_initialized`, and the flag only to true; only reset makes it
false again. -/
def Obligations.OnlySetAddressClaims : Prop :=
  (∀ (i : Instr) (s t : State), exec i s = .next t →
    (t.conn.ownAddr ≠ s.conn.ownAddr ∨ t.conn.isInitialized ≠ s.conn.isInitialized) →
    i = .reset ∨ ∃ f data, i = .setAddress f data ∧ t.conn.ownAddr = f.a ∧ t.conn.isInitialized = true) ∧
  (∀ s t : State, seqPoll s = .next t → t.conn = s.conn)

/-- R192, R150: `last_id` moves only at the issue of SEND, SEND_RESPONSE, GET_RESPONSE or PROBE, by one, and at reset;
a poll never moves it. -/
def Obligations.OnlySendsTakeAnId : Prop :=
  (∀ (i : Instr) (s t : State), exec i s = .next t → t.conn.lastId ≠ s.conn.lastId →
    i = .reset ∨ (t.conn.lastId = s.conn.lastId + 1 ∧
      ∃ f data, i = .send f data ∨ i = .sendResponse f data ∨ i = .getResponse f data ∨ i = .probe f data)) ∧
  (∀ s t : State, seqPoll s = .next t → t.conn.lastId = s.conn.lastId)

/-- R172: only a publish sets `has_packet` and only a consume clears it, reset aside: a filled slot comes of a received
byte or frame and never replaces an occupied one; an emptied slot of a poll, which leaves header and payload to the
packet read. -/
def Obligations.SlotHasSingleWriters : Prop :=
  (∀ (i : Instr) (s t : State), exec i s = .next t → t.slot ≠ s.slot →
    i = .reset ∨ (s.slot.hasPacket = false ∧ t.slot.hasPacket = true ∧
      ((∃ e b, i = .rxByte e b) ∨ (∃ h p, i = .frameAck h p ∨ i = .frameRequest h p ∨ i = .frameResponse h p ∨
        i = .frameCheck h p) ∨ ∃ st h p, i = .frameOtherStatus st h p))) ∧
  (∀ s t : State, seqPoll s = .next t → t.slot ≠ s.slot →
    s.slot.hasPacket = true ∧ t.slot = { s.slot with hasPacket := false })

/-- R100, R101, R264: a step answers at most one response, and never NoAddressAvailable; only a host command, an attempt
or a poll answers. -/
def Obligations.AtMostOneResponse : Prop :=
  ∀ s t : State, step s = .next t → t.ports.responses = s.ports.responses ∨
    ∃ r, t.ports.responses = s.ports.responses ++ [r] ∧ r.code ≠ .noAddressAvailable ∧
      (nextTurn s = .host ∨ nextTurn s = .seqTx ∨ nextTurn s = .seqPoll)

/-- R222: while a packet that does not match the filter of the current wait occupies the slot, no step but RESET changes
the slot. -/
def Obligations.ConvoyKeepsTheSlot : Prop :=
  ∀ (s t : State) (h : Header) (f : Filter), s.seq.phase = .ackWait ∨ s.seq.phase = .pktWait →
    s.slot.hasPacket = true → s.slot.hdr.header? = some h → s.seq.flt = some f → matchesFilter s.cfg h f = false →
    step s = .next t → nextTurn s ≠ .reset → t.slot = s.slot

/-- R307: in a quiescent node no step of its own is enabled, and a tick has no effect: such a turn changes nothing but
the schedule (logs 2 and 4). -/
def Obligations.QuiescentNodeMovesOnlyOnInput : Prop :=
  ∀ s : State, s.cfg.wf = true → quiescent s = true →
    nextTurn s = .tick ∨ nextTurn s = .seqTx ∨ nextTurn s = .seqPoll ∨ nextTurn s = .cka →
    step s = .next (takeTurn s)

/-! ### Waits over many steps -/

/-- A schedule of a wait: a poll, then `n` times a tick and a poll (R220). -/
def Sys2Proof.Machine.pollsAndTicks : Nat → List Turn
  | 0 => [.seqPoll]
  | n + 1 => .seqPoll :: .tick :: pollsAndTicks n

/-- R220: a wait entered with a timeout of `T` ticks, with the slot empty, makes `T + 1` polls over `T` ticks before it
times out: after any `k < T` of its ticks, each with its poll, it still waits with `T - k` ticks left and no response;
after all of them, with the last poll, a packet wait has answered TimeoutExceeded. The order of the steps is a schedule
of log 2. -/
def Obligations.PacketWaitTimesOutAfterItsTicks : Prop :=
  ∀ (s : State) (cmd : Command) (T k : Nat) (rest : List Turn), s.cfg.wf = true → s.seq.phase = .pktWait →
    s.seq.cur = some cmd → cmd.op ≠ .probe → s.seq.pollDue = true → s.seq.forever = false → s.seq.remaining = T →
    s.slot.hasPacket = false →
    (k < T → s.ports.schedule = pollsAndTicks k ++ rest → ∃ t, runSteps (2 * k + 1) s = .next t ∧
      t.seq.phase = .pktWait ∧ t.seq.remaining = T - k ∧ t.seq.pollDue = false ∧
      t.ports.responses = s.ports.responses) ∧
    (s.ports.schedule = pollsAndTicks T ++ rest → ∃ t, runSteps (2 * T + 1) s = .next t ∧
      t.seq.phase = .idle ∧ t.ports.responses = s.ports.responses ++ [{ code := .timeoutExceeded }])

/-- The schedule of one send attempt: a transmission, then the wait of `T` ticks; and of `n` of them (R221). -/
def Sys2Proof.Machine.sendAttempts (T : Nat) : Nat → List Turn
  | 0 => []
  | n + 1 => .seqTx :: (pollsAndTicks T ++ sendAttempts T n)

/-- R221: a unicast SEND of a non-control frame, every TX answer Ok and the slot empty throughout, answers
TimeoutExceeded after exactly `MAX_SEND_ATTEMPTS` transmissions of the one frame and `MAX_SEND_ATTEMPTS x ACK_TIMEOUT`
counted ticks. The order of the steps is a schedule of log 2, the answers are listed as log 3 has them. -/
def Obligations.UnreachablePeerTimesOut : Prop :=
  ∀ (s : State) (f : Packet) (cmd : Command) (rest : List Turn) (more : List TxAnswer), s.Inv →
    s.rsm.ckaPending = false → s.slot.hasPacket = false → s.seq.phase = .transmit → s.seq.txTry = 0 →
    s.seq.sendTry = 1 → s.seq.cur = some cmd → cmd.op = .send → s.seq.txf = some f → wantsAckWait s.cfg f = true →
    s.ports.txAnswers = List.replicate s.cfg.maxSendAttempts .ok ++ more →
    s.ports.schedule = sendAttempts s.cfg.ackTimeout s.cfg.maxSendAttempts ++ rest →
    ∃ t, runSteps (s.cfg.maxSendAttempts * (2 * s.cfg.ackTimeout + 2)) s = .next t ∧ t.seq.phase = .idle ∧
      t.ports.responses = s.ports.responses ++ [{ code := .timeoutExceeded }] ∧
      t.ports.txStream = s.ports.txStream ++ List.replicate s.cfg.maxSendAttempts ⟨f.wire, .ok⟩ ∧
      t.ports.schedule = rest

/-! ### Fair runs -/

/-- R153, R5: in a run that takes each of the block's own steps that stays enabled, a pending Check acknowledgement does
not hold RX for ever. That fairness is asked of SEQ_TX, SEQ_POLL and CKA_TX alone is the model's choice, log 21. The run is open: between two
steps the environment supplies what it likes, without end if it likes (log 22). -/
def Obligations.FairRunLiftsTheCheckHold : Prop :=
  ∀ (r : Nat → State) (n : Nat), IsRun r → WeaklyFair r → (r n).rsm.ckaPending = true →
    ∃ m, n < m ∧ (r m).rsm.ckaPending = false

/-! ### Several nodes and the host's scan -/

/-- R276: nodes share no state: a step of node `k` changes of another node nothing but its RX stream, to which it adds
the bytes of the frames written. That they join it whole, error-free, at once and whatever the TX answer is the model's
choice of log 16. -/
def Obligations.NodesShareNoState : Prop :=
  ∀ (b b' : Bus) (k j : Nat) (s n : State), busStep k b = .next b' → j ≠ k → b.nodes[k]? = some s →
    b.nodes[j]? = some n →
    ∃ t, step s = .next t ∧ b'.nodes[k]? = some t ∧ b'.nodes[j]? = some { n with ports := { n.ports with
      rxPort := n.ports.rxPort ++
        ((t.ports.txStream.drop s.ports.txStream.length).flatMap fun w => w.bytes).map rxBits } }

/-- R294, R217: an address the scan claims lies in `ADDR_MIN..ADDR_MAX`, whatever the responses it gets, so that its
SET_ADDRESS is not answered IllegalCommand. -/
def Obligations.ScanClaimsOnlyValidAddresses : Prop :=
  ∀ (c : Config) (rs : List Response) (a : Byte), c.wf = true →
    rs.foldl (fun sc r => sc.next c r) Scan.asking = .claiming a → c.claimable a = true
end

