-- ==== Sys2Proof/Laws/State.lean ====
section
/-! SUPPORT. One lemma per block of State and per update of the shared operations, each true by rfl, so that no later proof
unfolds a record update. -/
namespace Sys2Proof.Machine

variable (s : State)

@[simp] theorem takeHostOffer_cfg : (takeHostOffer s).cfg = s.cfg := rfl
@[simp] theorem takeHostOffer_conn : (takeHostOffer s).conn = s.conn := rfl
@[simp] theorem takeHostOffer_rsm : (takeHostOffer s).rsm = s.rsm := rfl
@[simp] theorem takeHostOffer_slot : (takeHostOffer s).slot = s.slot := rfl
@[simp] theorem takeHostOffer_seq : (takeHostOffer s).seq = s.seq := rfl
@[simp] theorem takeHostOffer_ports : (takeHostOffer s).ports =
    { s.ports with hostPort := s.ports.hostPort.tail } := rfl

@[simp] theorem takeRx_cfg (n : Nat) : (takeRx n s).cfg = s.cfg := rfl
@[simp] theorem takeRx_conn (n : Nat) : (takeRx n s).conn = s.conn := rfl
@[simp] theorem takeRx_rsm (n : Nat) : (takeRx n s).rsm = s.rsm := rfl
@[simp] theorem takeRx_slot (n : Nat) : (takeRx n s).slot = s.slot := rfl
@[simp] theorem takeRx_seq (n : Nat) : (takeRx n s).seq = s.seq := rfl
@[simp] theorem takeRx_ports (n : Nat) : (takeRx n s).ports =
    { s.ports with rxPort := s.ports.rxPort.drop n } := rfl

@[simp] theorem answerSkip_cfg (k : Byte) : (answerSkip k s).cfg = s.cfg := rfl
@[simp] theorem answerSkip_conn (k : Byte) : (answerSkip k s).conn = s.conn := rfl
@[simp] theorem answerSkip_rsm (k : Byte) : (answerSkip k s).rsm = s.rsm := rfl
@[simp] theorem answerSkip_slot (k : Byte) : (answerSkip k s).slot = s.slot := rfl
@[simp] theorem answerSkip_seq (k : Byte) : (answerSkip k s).seq = s.seq := rfl
@[simp] theorem answerSkip_ports (k : Byte) : (answerSkip k s).ports =
    { s.ports with skips := s.ports.skips ++ [k] } := rfl

@[simp] theorem txWrite_cfg (bs : List Byte) : (txWrite bs s).cfg = s.cfg := rfl
@[simp] theorem txWrite_conn (bs : List Byte) : (txWrite bs s).conn = s.conn := rfl
@[simp] theorem txWrite_rsm (bs : List Byte) : (txWrite bs s).rsm = s.rsm := rfl
@[simp] theorem txWrite_slot (bs : List Byte) : (txWrite bs s).slot = s.slot := rfl
@[simp] theorem txWrite_seq (bs : List Byte) : (txWrite bs s).seq = s.seq := rfl

@[simp] theorem respond_cfg (r : Response) : (respond r s).cfg = s.cfg := rfl
@[simp] theorem respond_conn (r : Response) : (respond r s).conn = s.conn := rfl
@[simp] theorem respond_rsm (r : Response) : (respond r s).rsm = s.rsm := rfl
@[simp] theorem respond_slot (r : Response) : (respond r s).slot = s.slot := rfl
@[simp] theorem respond_seq (r : Response) : (respond r s).seq =
    { s.seq with cur := none, got := none, phase := .idle } := rfl
@[simp] theorem respond_ports (r : Response) : (respond r s).ports =
    { s.ports with responses := s.ports.responses ++ [r] } := rfl

@[simp] theorem startWait_cfg (ph : SeqPhase) (f : Filter) (T : Int) : (startWait ph f T s).cfg = s.cfg := rfl
@[simp] theorem startWait_conn (ph : SeqPhase) (f : Filter) (T : Int) : (startWait ph f T s).conn = s.conn := rfl
@[simp] theorem startWait_rsm (ph : SeqPhase) (f : Filter) (T : Int) : (startWait ph f T s).rsm = s.rsm := rfl
@[simp] theorem startWait_slot (ph : SeqPhase) (f : Filter) (T : Int) : (startWait ph f T s).slot = s.slot := rfl
@[simp] theorem startWait_seq (ph : SeqPhase) (f : Filter) (T : Int) : (startWait ph f T s).seq =
    { s.seq with phase := ph, flt := some f, forever := decide (T < 0), remaining := if T < 0 then 0 else T.toNat, pollDue := true } := rfl
@[simp] theorem startWait_ports (ph : SeqPhase) (f : Filter) (T : Int) : (startWait ph f T s).ports = s.ports := rfl

@[simp] theorem startTx_cfg (p : Packet) (ph : SeqPhase) : (startTx p ph s).cfg = s.cfg := rfl
@[simp] theorem startTx_conn (p : Packet) (ph : SeqPhase) : (startTx p ph s).conn = s.conn := rfl
@[simp] theorem startTx_rsm (p : Packet) (ph : SeqPhase) : (startTx p ph s).rsm = s.rsm := rfl
@[simp] theorem startTx_slot (p : Packet) (ph : SeqPhase) : (startTx p ph s).slot = s.slot := rfl
@[simp] theorem startTx_seq (p : Packet) (ph : SeqPhase) : (startTx p ph s).seq =
    { s.seq with phase := ph, txf := some p, txTry := 0 } := rfl
@[simp] theorem startTx_ports (p : Packet) (ph : SeqPhase) : (startTx p ph s).ports = s.ports := rfl

@[simp] theorem publish_cfg (p : Packet) : (publish p s).cfg = s.cfg := rfl
@[simp] theorem publish_conn (p : Packet) : (publish p s).conn = s.conn := rfl
@[simp] theorem publish_rsm (p : Packet) : (publish p s).rsm = s.rsm := rfl
@[simp] theorem publish_slot (p : Packet) : (publish p s).slot =
    ⟨true, Memory.fromBytes 0 p.hdr.bytes, Memory.fromBytes 0 p.data⟩ := rfl
@[simp] theorem publish_seq (p : Packet) : (publish p s).seq = s.seq := rfl
@[simp] theorem publish_ports (p : Packet) : (publish p s).ports = s.ports := rfl

@[simp] theorem markInvalid_cfg : (markInvalid s).cfg = s.cfg := rfl
@[simp] theorem markInvalid_conn : (markInvalid s).conn = s.conn := rfl
@[simp] theorem markInvalid_rsm : (markInvalid s).rsm =
    { s.rsm with frameValid := false } := rfl
@[simp] theorem markInvalid_slot : (markInvalid s).slot = s.slot := rfl
@[simp] theorem markInvalid_seq : (markInvalid s).seq = s.seq := rfl
@[simp] theorem markInvalid_ports : (markInvalid s).ports = s.ports := rfl

@[simp] theorem toIdle_cfg : (toIdle s).cfg = s.cfg := rfl
@[simp] theorem toIdle_conn : (toIdle s).conn = s.conn := rfl
@[simp] theorem toIdle_rsm : (toIdle s).rsm =
    { s.rsm with bytesRead := 0, frameValid := true } := rfl
@[simp] theorem toIdle_slot : (toIdle s).slot = s.slot := rfl
@[simp] theorem toIdle_seq : (toIdle s).seq = s.seq := rfl
@[simp] theorem toIdle_ports : (toIdle s).ports = s.ports := rfl

@[simp] theorem queueCheckAck_cfg (h : Header) : (queueCheckAck h s).cfg = s.cfg := rfl
@[simp] theorem queueCheckAck_conn (h : Header) : (queueCheckAck h s).conn = s.conn := rfl
@[simp] theorem queueCheckAck_rsm (h : Header) : (queueCheckAck h s).rsm =
    { s.rsm with ckaFrame := some (checkAckHeader s.cfg s.conn.ownAddr h), ckaPending := true } := rfl
@[simp] theorem queueCheckAck_slot (h : Header) : (queueCheckAck h s).slot = s.slot := rfl
@[simp] theorem queueCheckAck_seq (h : Header) : (queueCheckAck h s).seq = s.seq := rfl
@[simp] theorem queueCheckAck_ports (h : Header) : (queueCheckAck h s).ports = s.ports := rfl

@[simp] theorem takeId_cfg : (takeId s).cfg = s.cfg := rfl
@[simp] theorem takeId_conn : (takeId s).conn =
    { s.conn with lastId := nextId s } := rfl
@[simp] theorem takeId_rsm : (takeId s).rsm = s.rsm := rfl
@[simp] theorem takeId_slot : (takeId s).slot = s.slot := rfl
@[simp] theorem takeId_seq : (takeId s).seq = s.seq := rfl
@[simp] theorem takeId_ports : (takeId s).ports = s.ports := rfl

@[simp] theorem firstSendTry_cfg : (firstSendTry s).cfg = s.cfg := rfl
@[simp] theorem firstSendTry_conn : (firstSendTry s).conn = s.conn := rfl
@[simp] theorem firstSendTry_rsm : (firstSendTry s).rsm = s.rsm := rfl
@[simp] theorem firstSendTry_slot : (firstSendTry s).slot = s.slot := rfl
@[simp] theorem firstSendTry_seq : (firstSendTry s).seq =
    { s.seq with sendTry := 1 } := rfl
@[simp] theorem firstSendTry_ports : (firstSendTry s).ports = s.ports := rfl

@[simp] theorem takeTurn_cfg : (takeTurn s).cfg = s.cfg := rfl
@[simp] theorem takeTurn_conn : (takeTurn s).conn = s.conn := rfl
@[simp] theorem takeTurn_rsm : (takeTurn s).rsm = s.rsm := rfl
@[simp] theorem takeTurn_slot : (takeTurn s).slot = s.slot := rfl
@[simp] theorem takeTurn_seq : (takeTurn s).seq = s.seq := rfl

/-! ### The ports a write and a turn leave alone -/

theorem txWrite_ports (bs : List Byte) : (txWrite bs s).ports = { s.ports with
    txStream := s.ports.txStream ++ [⟨bs, nextTxAnswer s⟩]
    txAnswers := s.ports.txAnswers.tail
    freeDraws := if s.ports.txAnswers = [] then s.ports.freeDraws + 1 else s.ports.freeDraws
    rxPort := if s.cfg.txEcho then s.ports.rxPort ++ bs.map rxBits else s.ports.rxPort } := rfl

@[simp] theorem txWrite_txStream (bs : List Byte) :
    (txWrite bs s).ports.txStream = s.ports.txStream ++ [⟨bs, nextTxAnswer s⟩] := rfl
@[simp] theorem txWrite_schedule (bs : List Byte) : (txWrite bs s).ports.schedule = s.ports.schedule := rfl
@[simp] theorem txWrite_hostPort (bs : List Byte) : (txWrite bs s).ports.hostPort = s.ports.hostPort := rfl
@[simp] theorem txWrite_txAnswers (bs : List Byte) : (txWrite bs s).ports.txAnswers = s.ports.txAnswers.tail := rfl
@[simp] theorem txWrite_skips (bs : List Byte) : (txWrite bs s).ports.skips = s.ports.skips := rfl
@[simp] theorem txWrite_responses (bs : List Byte) : (txWrite bs s).ports.responses = s.ports.responses := rfl

@[simp] theorem takeTurn_schedule : (takeTurn s).ports.schedule = s.ports.schedule.tail := rfl
@[simp] theorem takeTurn_hostPort : (takeTurn s).ports.hostPort = s.ports.hostPort := rfl
@[simp] theorem takeTurn_rxPort : (takeTurn s).ports.rxPort = s.ports.rxPort := rfl
@[simp] theorem takeTurn_txAnswers : (takeTurn s).ports.txAnswers = s.ports.txAnswers := rfl
@[simp] theorem takeTurn_txStream : (takeTurn s).ports.txStream = s.ports.txStream := rfl
@[simp] theorem takeTurn_skips : (takeTurn s).ports.skips = s.ports.skips := rfl
@[simp] theorem takeTurn_responses : (takeTurn s).ports.responses = s.ports.responses := rfl
@[simp] theorem takeTurn_freeDraws : (takeTurn s).ports.freeDraws = s.ports.freeDraws := rfl

/-- The answer of a write is the head of the listed answers when there is one (R104). -/
@[simp] theorem nextTxAnswer_listed {r : TxAnswer} {rs : List TxAnswer} (h : s.ports.txAnswers = r :: rs) :
    nextTxAnswer s = r := by
  simp [nextTxAnswer, h]

/-- The turn is the head of the schedule when there is one. -/
theorem nextTurn_scheduled {t : Turn} {ts : List Turn} (h : s.ports.schedule = t :: ts) : nextTurn s = t := by
  simp [nextTurn, h]

/-! ### Outcomes -/

@[simp] theorem outcomeOf_eq_next {x : Except Fault State} {t : State} : outcomeOf x = .next t ↔ x = .ok t := by
  cases x <;> simp [outcomeOf]

@[simp] theorem outcomeOf_eq_fault {x : Except Fault State} {f : Fault} : outcomeOf x = .fault f ↔ x = .error f := by
  cases x <;> simp [outcomeOf]

@[simp] theorem outcomeOf_ne_refused {x : Except Fault State} {r : Refusal} : outcomeOf x ≠ .refused r := by
  cases x <;> simp [outcomeOf]

@[simp] theorem hold_eq_next {t : State} : hold s = .next t ↔ s = t := by
  simp [hold]

@[simp] theorem need_some {α : Type} (e : Element) (x : α) : need e (some x) = .ok x := rfl

@[simp] theorem need_eq_ok {α : Type} {e : Element} {o : Option α} {x : α} : need e o = .ok x ↔ o = some x := by
  cases o <;> simp [need]

/-- What a bind of two steps answered: both ran. -/
theorem bind_eq_ok {α β : Type} {x : Except Fault α} {f : α → Except Fault β} {b : β} :
    (x >>= f) = .ok b ↔ ∃ a, x = .ok a ∧ f a = .ok b := by
  cases x <;> simp [bind, Except.bind]

@[simp] theorem ok_bind {α β : Type} (a : α) (f : α → Except Fault β) : (Except.ok a >>= f) = f a := rfl

@[simp] theorem error_bind {α β : Type} (e : Fault) (f : α → Except Fault β) :
    (Except.error e >>= f : Except Fault β) = .error e := rfl

variable (u : Supply)

@[simp] theorem supply_cfg : (supply u s).cfg = s.cfg := rfl
@[simp] theorem supply_conn : (supply u s).conn = s.conn := rfl
@[simp] theorem supply_rsm : (supply u s).rsm = s.rsm := rfl
@[simp] theorem supply_slot : (supply u s).slot = s.slot := rfl
@[simp] theorem supply_seq : (supply u s).seq = s.seq := rfl
@[simp] theorem supply_hostPort : (supply u s).ports.hostPort = s.ports.hostPort ++ u.hostPort := rfl
@[simp] theorem supply_rxPort : (supply u s).ports.rxPort = s.ports.rxPort ++ u.rxPort := rfl
@[simp] theorem supply_txAnswers : (supply u s).ports.txAnswers = s.ports.txAnswers ++ u.txAnswers := rfl
@[simp] theorem supply_schedule : (supply u s).ports.schedule = s.ports.schedule ++ u.schedule := rfl
@[simp] theorem supply_txStream : (supply u s).ports.txStream = s.ports.txStream := rfl
@[simp] theorem supply_skips : (supply u s).ports.skips = s.ports.skips := rfl
@[simp] theorem supply_responses : (supply u s).ports.responses = s.ports.responses := rfl
@[simp] theorem supply_freeTurns : (supply u s).ports.freeTurns = s.ports.freeTurns := rfl
@[simp] theorem supply_freeDraws : (supply u s).ports.freeDraws = s.ports.freeDraws := rfl

/-- An environment that adds nothing. -/
@[simp] theorem supply_nothing : supply {} s = s := by simp [supply]

end Sys2Proof.Machine
end

