-- ==== Sys2Proof/Laws/Memory.lean ====
section
/-! SUPPORT. The laws of the byte spaces (R60): a read after a write, the canonical form every operation keeps, and what a
space built of a byte list holds. -/
namespace Sys2Proof.Machine

theorem Memory.read_write (m : Memory) (a k : Nat) (b : Byte) :
    (m.write a b).read k = if a = k then some b else m.read k := by
  induction m with
  | nil => simp [Memory.write, Memory.read]
  | cons c m ih =>
    obtain ⟨x, v⟩ := c
    unfold Memory.write
    split
    · simp [Memory.read]
    · split
      · subst_vars; by_cases h : x = k <;> simp [Memory.read, h]
      · by_cases h : x = k
        · subst h; simp_all [Memory.read]
        · simp [Memory.read, h, ih]

@[simp] theorem Memory.read_write_same (m : Memory) (a : Nat) (b : Byte) : (m.write a b).read a = some b := by
  simp [Memory.read_write]

@[simp] theorem Memory.read_write_other (m : Memory) {a k : Nat} (b : Byte) (h : k ≠ a) :
    (m.write a b).read k = m.read k := by
  simp [Memory.read_write, Ne.symm h]

/-- Every address a write lists is the written one or was listed. -/
theorem Memory.mem_write {m : Memory} {a : Nat} {b : Byte} {c : Host.Cell} (h : c ∈ m.write a b) :
    c = (a, b) ∨ c ∈ m := by
  induction m with
  | nil => simpa [Memory.write] using h
  | cons d m ih =>
    obtain ⟨x, v⟩ := d
    unfold Memory.write at h
    split at h
    · simpa using h
    · split at h
      · simp only [List.mem_cons] at h ⊢; tauto
      · simp only [List.mem_cons] at h ⊢
        rcases h with h | h
        · exact .inr (.inl h)
        · rcases ih h with h | h
          · exact .inl h
          · exact .inr (.inr h)

/-- A write inside a space keeps its canonical form. -/
theorem Memory.wf_write {size : Nat} {m : Memory} {a : Nat} {b : Byte} (ha : a < size) (h : m.wf size = true) :
    (m.write a b).wf size = true := by
  induction m with
  | nil => simp [Memory.write, Memory.wf, ha]
  | cons d m ih =>
    obtain ⟨x, v⟩ := d
    simp only [Memory.wf, Bool.and_eq_true, decide_eq_true_eq, List.all_eq_true] at h
    unfold Memory.write
    split
    · rename_i hlt
      simp only [Memory.wf, Bool.and_eq_true, decide_eq_true_eq, List.all_eq_true, List.mem_cons]
      refine ⟨⟨ha, ?_⟩, h⟩
      rintro c (rfl | hc)
      · exact hlt
      · exact hlt.trans (h.1.2 c hc)
    · split
      · subst_vars
        simpa only [Memory.wf, Bool.and_eq_true, decide_eq_true_eq, List.all_eq_true] using h
      · simp only [Memory.wf, Bool.and_eq_true, decide_eq_true_eq, List.all_eq_true]
        refine ⟨⟨h.1.1, fun c hc => ?_⟩, ih h.2⟩
        rcases Memory.mem_write hc with rfl | hc
        · simp only; omega
        · exact h.1.2 c hc

/-- What a space built of a list of bytes holds: byte `j` of the list at `a + j`, and nothing elsewhere. -/
theorem Memory.read_fromBytes (bs : List Byte) (a k : Nat) :
    (Memory.fromBytes a bs).read k = if a ≤ k then bs[k - a]? else none := by
  induction bs generalizing a with
  | nil => simp [Memory.fromBytes, Memory.read]
  | cons b bs ih =>
    by_cases h : a = k
    · subst h; simp [Memory.fromBytes, Memory.read]
    · simp only [Memory.fromBytes, Memory.read, h, if_false, ih]
      by_cases hk : a ≤ k
      · have : a + 1 ≤ k := by omega
        obtain ⟨j, rfl⟩ : ∃ j, k = a + 1 + j := ⟨k - (a + 1), by omega⟩
        simp [this, hk, show a + 1 + j - a = j + 1 by omega]
      · simp [hk, show ¬ a + 1 ≤ k by omega]

@[simp] theorem Memory.read_fromBytes_zero (bs : List Byte) (k : Nat) :
    (Memory.fromBytes 0 bs).read k = bs[k]? := by
  simp [Memory.read_fromBytes]

theorem Memory.mem_fromBytes {bs : List Byte} {a : Nat} {c : Host.Cell} (h : c ∈ Memory.fromBytes a bs) :
    a ≤ c.1 ∧ c.1 < a + bs.length := by
  induction bs generalizing a with
  | nil => simp [Memory.fromBytes] at h
  | cons b bs ih =>
    simp only [Memory.fromBytes, List.mem_cons] at h
    rcases h with rfl | h
    · simp
    · have := ih h; simp only [List.length_cons]; omega

theorem Memory.wf_fromBytes {bs : List Byte} {a size : Nat} (h : a + bs.length ≤ size) :
    (Memory.fromBytes a bs).wf size = true := by
  induction bs generalizing a with
  | nil => rfl
  | cons b bs ih =>
    simp only [List.length_cons] at h
    simp only [Memory.fromBytes, Memory.wf, Bool.and_eq_true, decide_eq_true_eq, List.all_eq_true]
    refine ⟨⟨by omega, fun c hc => ?_⟩, ih (by omega)⟩
    have := Memory.mem_fromBytes hc; omega

/-- A range read answers the bytes of the range, all of them holding a value. -/
theorem Memory.readRange_eq_some {m : Memory} {a n : Nat} {bs : List Byte} :
    m.readRange a n = some bs ↔ bs.length = n ∧ ∀ j < n, m.read (a + j) = bs[j]? := by
  induction n generalizing a bs with
  | zero => cases bs <;> simp [Memory.readRange]
  | succ n ih =>
    simp only [Memory.readRange]
    constructor
    · intro h
      split at h
      · rename_i b cs hb hcs
        simp only [Option.some.injEq] at h
        subst h
        obtain ⟨hl, hr⟩ := ih.1 hcs
        refine ⟨by simp [hl], fun j hj => ?_⟩
        cases j with
        | zero => simp [hb]
        | succ j => simpa [Nat.add_assoc, Nat.add_comm 1 j] using hr j (by omega)
      · simp at h
    · rintro ⟨hl, hr⟩
      cases bs with
      | nil => simp at hl
      | cons b cs =>
        have h0 := hr 0 (by omega)
        have h1 : m.readRange (a + 1) n = some cs := ih.2 ⟨by simpa using hl, fun j hj => by
          simpa [Nat.add_assoc, Nat.add_comm 1 j] using hr (j + 1) (by omega)⟩
        simp only [Nat.add_zero, List.getElem?_cons_zero] at h0
        simp [h0, h1]

theorem Memory.readRange_length {m : Memory} {a n : Nat} {bs : List Byte} (h : m.readRange a n = some bs) :
    bs.length = n := (Memory.readRange_eq_some.1 h).1

/-- A range all of whose bytes hold a value can be read. -/
theorem Memory.readRange_isSome {m : Memory} {a n : Nat} (h : ∀ j < n, (m.read (a + j)).isSome = true) :
    ∃ bs, m.readRange a n = some bs := by
  induction n generalizing a with
  | zero => exact ⟨[], rfl⟩
  | succ n ih =>
    obtain ⟨b, hb⟩ := Option.isSome_iff_exists.1 (h 0 (by omega))
    obtain ⟨bs, hbs⟩ := ih (a := a + 1) fun j hj => by
      simpa [Nat.add_assoc, Nat.add_comm 1 j] using h (j + 1) (by omega)
    exact ⟨b :: bs, by simp only [Nat.add_zero] at hb; simp [Memory.readRange, hb, hbs]⟩

@[simp] theorem Memory.readRange_fromBytes (bs : List Byte) :
    (Memory.fromBytes 0 bs).readRange 0 bs.length = some bs := by
  simp [Memory.readRange_eq_some]

/-- A header is read exactly when its seven bytes hold the values. -/
theorem Memory.header?_eq_some {m : Memory} {h : Header} :
    m.header? = some h ↔ ∀ j < 7, m.read j = h.bytes[j]? := by
  constructor
  · intro hm j hj
    unfold Memory.header? at hm
    split at hm
    · rename_i d u st c i l k heq
      simp only [Option.some.injEq] at hm
      subst hm
      simpa [Header.bytes] using (Memory.readRange_eq_some.1 heq).2 j hj
    · simp at hm
  · intro hm
    have : m.readRange 0 7 = some h.bytes :=
      Memory.readRange_eq_some.2 ⟨rfl, fun j hj => by simpa using hm j hj⟩
    simp [Memory.header?, this, Header.bytes]

/-- A space with seven bytes that hold values holds a header. -/
theorem Memory.header?_isSome {m : Memory} (h : ∀ j < 7, (m.read j).isSome = true) : ∃ hd, m.header? = some hd := by
  obtain ⟨bs, hbs⟩ := Memory.readRange_isSome (m := m) (a := 0) (n := 7) (by simpa using h)
  have hl := Memory.readRange_length hbs
  match bs, hl with
  | [d, u, st, c, i, l, k], _ => exact ⟨⟨d, u, st, c, i, l, k⟩, by simp [Memory.header?, hbs]⟩

@[simp] theorem Memory.header?_fromBytes (h : Header) : (Memory.fromBytes 0 h.bytes).header? = some h := by
  simp [Memory.header?_eq_some]

/-- Byte 5 of a header space is the header's length (R80). -/
theorem Memory.header?_length {m : Memory} {h : Header} (hm : m.header? = some h) : m.read 5 = some h.length := by
  simpa [Header.bytes] using Memory.header?_eq_some.1 hm 5 (by omega)

/-- Byte 0 of a header space is the header's destination (R80). -/
theorem Memory.header?_destination {m : Memory} {h : Header} (hm : m.header? = some h) :
    m.read 0 = some h.destination := by
  simpa [Header.bytes] using Memory.header?_eq_some.1 hm 0 (by omega)

@[simp] theorem writeByte_eq_ok {e : Element} {size a : Nat} {m m' : Memory} {b : Byte} :
    writeByte e size m a b = .ok m' ↔ a < size ∧ m.write a b = m' := by
  unfold writeByte; split <;> simp_all

@[simp] theorem Header.bytes_length (h : Header) : h.bytes.length = 7 := rfl

end Sys2Proof.Machine
end

