-- ==== Sys2Proof/Laws/Sequencer.lean ====
section
/-! SUPPORT. What the sequencer's steps can do, said once: their frames, and that they are defined on every state that
meets the invariant (R44) and keep it. -/
namespace Sys2Proof.Machine

/-! ### The frames the block builds -/

theorem sealHeader_ok (h : Header) : checksumOk (sealHeader h) = true := by
  simp [checksumOk, sealHeader, checksum]

/-- R191, R89: a frame built with a wire status and at most 255 bytes may be handed to TX. -/
theorem build_ok {c : Config} {own d st cmd id : Byte} {data : List Byte} (hl : data.length ≤ 255)
    (hs : c.wireStatus st = true) : frameOk c (build own d st cmd id data) = true := by
  have h1 := sealHeader_ok ⟨d, own, st, cmd, id, BitVec.ofNat 8 data.length, 0x00⟩
  have h2 : data.length % 256 = data.length := Nat.mod_eq_of_lt (by omega)
  simp_all [frameOk, build, sealHeader, Nat.mod_eq_of_lt]

theorem ackFrame_ok (c : Config) (own : Byte) (p : Packet) : frameOk c (ackFrame c own p) = true :=
  build_ok (by simp) (by simp [Config.wireStatus])

/-! ### What a step of the sequencer leaves alone -/

/-- `t` differs from `s` in the sequencer and the ports at most. -/
structure SeqFrame (s t : State) : Prop where
  cfg : t.cfg = s.cfg
  conn : t.conn = s.conn
  rsm : t.rsm = s.rsm
  slot : t.slot = s.slot

theorem SeqFrame.refl (s : State) : SeqFrame s s := ⟨rfl, rfl, rfl, rfl⟩

theorem SeqFrame.trans {s t u : State} (h : SeqFrame s t) (k : SeqFrame t u) : SeqFrame s u :=
  ⟨k.cfg.trans h.cfg, k.conn.trans h.conn, k.rsm.trans h.rsm, k.slot.trans h.slot⟩

theorem SeqFrame.of (s : State) (q : Sequencer) (p : Ports) : SeqFrame s { s with seq := q, ports := p } :=
  ⟨rfl, rfl, rfl, rfl⟩

theorem sentOk_frame (cmd : Command) (f : Packet) (s : State) : SeqFrame s (sentOk cmd f s) := by
  unfold sentOk
  split
  · split <;> exact .of ..
  · exact .of ..

/-! ### The invariant of the entries -/

/-- The part of the sequencer's invariant no entry of a phase needs to look at. -/
structure Sequencer.Base (c : Config) (q : Sequencer) : Prop where
  txf_ok : ∀ f, q.txf = some f → frameOk c f = true
  txTry_le : q.txTry ≤ c.maxTxAttempts
  sendTry_le : q.sendTry ≤ c.maxSendAttempts
  remaining_le : q.remaining ≤ 32767

theorem Sequencer.Inv.base {c : Config} {q : Sequencer} (h : q.Inv c) : q.Base c :=
  ⟨h.txf_ok, h.txTry_le, h.sendTry_le, h.remaining_le⟩

/-- R209: after a response the invariant holds. -/
theorem respond_inv {c : Config} {s : State} (r : Response) (h : s.seq.Base c) : (respond r s).seq.Inv c := by
  constructor <;> simp [SeqPhase.transmits, SeqPhase.waits, h.txTry_le, h.sendTry_le, h.remaining_le]
  exact h.txf_ok

/-- R195: the entry of a wait sets up the invariant. -/
theorem startWait_inv {c : Config} {s : State} {ph : SeqPhase} {f : Filter} {T : Int} {cmd : Command}
    (h : s.seq.Base c) (hc : s.seq.cur = some cmd) (hl : cmd.f.lengthOk cmd.data = true) (hg : s.seq.got = none)
    (hT : T ≤ 32767)
    (hph : ph = .ackWait ∧ s.seq.txf.isSome = true ∧ 1 ≤ s.seq.sendTry ∧ cmd.op.acknowledged = true ∨
      ph = .pktWait ∧ cmd.op.waitsForPacket = true) : (startWait ph f T s).seq.Inv c := by
  have hr : (if T < 0 then 0 else T.toNat) ≤ 32767 := by split <;> omega
  rcases hph with ⟨rfl, h1, h2, h3⟩ | ⟨rfl, h1⟩ <;>
    constructor <;> simp_all [SeqPhase.transmits, SeqPhase.waits, h.txTry_le, h.sendTry_le] <;> exact h.txf_ok

/-- R196: the entry of a command's own transmission sets up the invariant. -/
theorem startTx_transmit_inv {c : Config} {s : State} {f : Packet} {cmd : Command} (h : s.seq.Base c)
    (hc : s.seq.cur = some cmd) (hl : cmd.f.lengthOk cmd.data = true) (hg : s.seq.got = none)
    (hf : frameOk c f = true) (hm : 1 ≤ c.maxTxAttempts) (ht : cmd.op.transmits = true) (h1 : 1 ≤ s.seq.sendTry) :
    (startTx f .transmit s).seq.Inv c := by
  constructor <;> simp_all [SeqPhase.transmits, SeqPhase.waits, h.sendTry_le, h.remaining_le]
  omega

/-- R196, R194: the entry of an acknowledgement emission sets up the invariant. -/
theorem startTx_ackEmit_inv {c : Config} {s : State} {f p : Packet} {cmd : Command} (h : s.seq.Base c)
    (hc : s.seq.cur = some cmd) (hl : cmd.f.lengthOk cmd.data = true) (hg : s.seq.got = some p)
    (hf : frameOk c f = true) (hm : 1 ≤ c.maxTxAttempts) (ht : cmd.op.waitsForPacket = true) :
    (startTx f .ackEmit s).seq.Inv c := by
  constructor <;> simp_all [SeqPhase.transmits, SeqPhase.waits, h.sendTry_le, h.remaining_le]
  omega

theorem wf_bounds {c : Config} (h : c.wf = true) :
    1 ≤ c.maxTxAttempts ∧ 1 ≤ c.maxSendAttempts ∧ c.ackTimeout ≤ 32767 ∧ c.checkTimeout ≤ 32767 := by
  simp only [Config.wf, Bool.and_eq_true, decide_eq_true_eq] at h
  exact ⟨h.1.1.1.2, h.1.1.2, h.1.2, h.2⟩

theorem timeoutOf_le (f : CmdFields) : timeoutOf f ≤ 32767 := by
  have := BitVec.toInt_lt (x := f.t)
  simp only [timeoutOf]; omega

/-! ### SEQ_TX -/

/-- R204: what follows an acknowledged send. -/
theorem sentOk_inv {s : State} {cmd : Command} {f : Packet} (h : s.seq.Base s.cfg) (hc : s.seq.cur = some cmd)
    (hl : cmd.f.lengthOk cmd.data = true) (hg : s.seq.got = none) : (sentOk cmd f s).seq.Inv s.cfg := by
  unfold sentOk
  split
  · rename_i hop
    split
    · exact startWait_inv h hc hl hg (timeoutOf_le _) (.inr ⟨rfl, by rw [hop]; rfl⟩)
    · exact respond_inv _ h
  · exact respond_inv _ h

/-- R204: the end of a command's own transmission. -/
theorem txDone_inv {s : State} {cmd : Command} {f : Packet} (r : TxAnswer) (h : s.seq.Base s.cfg)
    (hw : s.cfg.wf = true) (hc : s.seq.cur = some cmd) (hl : cmd.f.lengthOk cmd.data = true)
    (hg : s.seq.got = none) (hf : s.seq.txf = some f) (ht : cmd.op.transmits = true) (h1 : 1 ≤ s.seq.sendTry) :
    ∃ t, txDone cmd f r s = .ok t ∧ t.seq.Inv s.cfg ∧ SeqFrame s t := by
  obtain ⟨-, -, b3, b4⟩ := wf_bounds hw
  have acked : cmd.op.acknowledged = true → ∃ t,
      (if r ≠ .ok then respond { code := codeOfAnswer r } s
        else if wantsAckWait s.cfg f then
          startWait .ackWait (ackFilter s.cfg f.hdr.destination f.hdr.id) s.cfg.ackTimeout s
        else sentOk cmd f s) = t ∧ t.seq.Inv s.cfg ∧ SeqFrame s t := by
    intro ha
    refine ⟨_, rfl, ?_⟩
    split
    · exact ⟨respond_inv _ h, .of ..⟩
    · split
      · exact ⟨startWait_inv h hc hl hg (by omega) (.inl ⟨rfl, by simp [hf], h1, ha⟩), .of ..⟩
      · exact ⟨sentOk_inv h hc hl hg, sentOk_frame ..⟩
  unfold txDone
  split
  · rename_i hop
    exact ⟨_, rfl, startWait_inv h hc hl hg (by omega) (.inr ⟨rfl, by rw [hop]; rfl⟩), .of ..⟩
  · exact ⟨_, rfl, respond_inv _ h, .of ..⟩
  · obtain ⟨t, h2, h3⟩ := acked (by simp [*, CmdOp.acknowledged]); exact ⟨t, by rw [h2], h3⟩
  · obtain ⟨t, h2, h3⟩ := acked (by simp [*, CmdOp.acknowledged]); exact ⟨t, by rw [h2], h3⟩
  · obtain ⟨t, h2, h3⟩ := acked (by simp [*, CmdOp.acknowledged]); exact ⟨t, by rw [h2], h3⟩
  all_goals simp_all [CmdOp.transmits]

/-- R203: SEQ_TX answers on a state that meets the sequencer's invariant, and keeps it. -/
theorem seqTx_inv {s : State} (h : s.seq.Inv s.cfg) (hw : s.cfg.wf = true) (he : s.seq.phase.transmits = true) :
    ∃ t, seqTx s = .ok t ∧ t.seq.Inv s.cfg ∧ SeqFrame s t := by
  obtain ⟨h1, h2⟩ := h.transmitting he
  obtain ⟨f, hf⟩ := Option.isSome_iff_exists.1 h1
  let u := { txWrite f.wire s with seq := { s.seq with txTry := s.seq.txTry + 1 } }
  have hb : u.seq.Base s.cfg := ⟨h.txf_ok, h2, h.sendTry_le, h.remaining_le⟩
  have hu : SeqFrame s u := ⟨rfl, rfl, rfl, rfl⟩
  simp only [seqTx, hf, need_some, ok_bind]
  change ∃ t, (if nextTxAnswer s = .collisionDetected ∧ u.seq.txTry < s.cfg.maxTxAttempts then .ok u
    else if u.seq.phase = .ackEmit then ackDone u
    else (need .cur u.seq.cur >>= fun cmd => txDone cmd f (nextTxAnswer s) u)) = .ok t ∧ _
  have hph : s.seq.phase = .transmit ∨ s.seq.phase = .ackEmit := by
    revert he; cases s.seq.phase <;> simp [SeqPhase.transmits]
  split
  · rename_i hc
    refine ⟨u, rfl, ?_, hu⟩
    exact
      { idle_cur := h.idle_cur, cur_length := h.cur_length, txf_ok := h.txf_ok, txTry_le := h2
        sendTry_le := h.sendTry_le, remaining_le := h.remaining_le, transmitting := fun _ => ⟨h1, hc.2⟩
        waiting := h.waiting, counted := h.counted, transmit_cur := h.transmit_cur, ackWait_cur := h.ackWait_cur
        pktWait_cur := h.pktWait_cur, ackEmit_cur := h.ackEmit_cur, got_none := h.got_none }
  · split
    · rename_i ha
      obtain ⟨hg, -⟩ := h.ackEmit_cur ha
      obtain ⟨p, hp⟩ := Option.isSome_iff_exists.1 hg
      refine ⟨respond (packetResponse p) u, by simp [ackDone, u, hp], respond_inv _ hb, hu.trans (.of ..)⟩
    · rename_i ha
      have hT : s.seq.phase = .transmit := hph.resolve_right ha
      obtain ⟨cmd, hc, ht, h3⟩ := h.transmit_cur hT
      obtain ⟨t, h4, h5, h6⟩ := txDone_inv (s := u) (f := f) (nextTxAnswer s) hb hw hc (h.cur_length cmd hc)
        (h.got_none (by rw [hT]; simp)) hf ht h3
      have hc' : need .cur u.seq.cur = .ok cmd := need_eq_ok.2 hc
      exact ⟨t, by rw [hc', ok_bind]; exact h4, h5, hu.trans h6⟩

/-! ### SEQ_POLL -/

/-- What a poll may do to the slot: leave it, or empty it (R174, R175). -/
structure PollFrame (s t : State) : Prop where
  cfg : t.cfg = s.cfg
  conn : t.conn = s.conn
  rsm : t.rsm = s.rsm
  slot : t.slot = s.slot ∨ s.slot.hasPacket = true ∧ t.slot = { s.slot with hasPacket := false }

theorem PollFrame.of_seq {s t : State} (h : SeqFrame s t) : PollFrame s t := ⟨h.cfg, h.conn, h.rsm, .inl h.slot⟩

/-- R205, R207: SEQ_POLL answers on a state that meets the invariant, and keeps the sequencer's part. -/
theorem pollStep_inv {s : State} (h : s.seq.Inv s.cfg) (hs : s.slot.Inv s.cfg) (hw : s.cfg.wf = true)
    (he : s.seq.phase.waits = true) :
    ∃ t, pollStep s = .ok t ∧ t.seq.Inv s.cfg ∧ PollFrame s t := by
  obtain ⟨g, hg'⟩ := Option.isSome_iff_exists.1 (h.waiting he)
  have hg : need .flt s.seq.flt = .ok g := need_eq_ok.2 hg'
  have hph : s.seq.phase = .ackWait ∨ s.seq.phase = .pktWait := by
    revert he; cases s.seq.phase <;> simp [SeqPhase.waits]
  have hgot : s.seq.got = none := h.got_none (by rcases hph with h | h <;> simp [h])
  obtain ⟨b1, -, -, -⟩ := wf_bounds hw
  -- the poll that finds nothing
  let v := { s with seq := { s.seq with pollDue := false } }
  have hv : v.seq.Base s.cfg := ⟨h.txf_ok, h.txTry_le, h.sendTry_le, h.remaining_le⟩
  have miss : ∃ t, (if (!v.seq.forever && v.seq.remaining == 0) = true then onTimeout v else .ok v) = .ok t ∧
      t.seq.Inv s.cfg ∧ PollFrame s t := by
    split
    · rcases hph with hp | hp
      · obtain ⟨h1, h2, cmd, hc, ha⟩ := h.ackWait_cur hp
        obtain ⟨f, hf⟩ := Option.isSome_iff_exists.1 h1
        by_cases hn : s.seq.sendTry < s.cfg.maxSendAttempts
        · let w := { v with seq := { v.seq with sendTry := v.seq.sendTry + 1 } }
          refine ⟨startTx f .transmit w, by simp [onTimeout, v, w, hp, hn, hf], ?_, .of_seq (.of ..)⟩
          refine startTx_transmit_inv (s := w) (cmd := cmd) ⟨h.txf_ok, h.txTry_le, hn, h.remaining_le⟩ hc
            (h.cur_length cmd hc) hgot (h.txf_ok f hf) b1 ?_ (by simp [w])
          revert ha; cases cmd.op <;> simp [CmdOp.acknowledged, CmdOp.transmits]
        · exact ⟨respond { code := .timeoutExceeded } v, by simp [onTimeout, v, hp, hn], respond_inv _ hv,
            .of_seq (.of ..)⟩
      · obtain ⟨cmd, hc, -⟩ := h.pktWait_cur hp
        by_cases hop : cmd.op = .probe
        · exact ⟨respond { code := .ok, inUse := some false } v, by simp [onTimeout, v, hp, hc, hop],
            respond_inv _ hv, .of_seq (.of ..)⟩
        · exact ⟨respond { code := .timeoutExceeded } v, by simp [onTimeout, v, hp, hc, hop],
            respond_inv _ hv, .of_seq (.of ..)⟩
    · rename_i hr
      refine ⟨v, rfl, ?_, .of_seq (.of ..)⟩
      exact
        { idle_cur := h.idle_cur, cur_length := h.cur_length, txf_ok := h.txf_ok, txTry_le := h.txTry_le
          sendTry_le := h.sendTry_le, remaining_le := h.remaining_le, transmitting := h.transmitting
          waiting := h.waiting
          counted := fun _ hf _ => by
            simp only [v] at hf hr ⊢
            simp only [hf, Bool.not_false, Bool.true_and, beq_iff_eq] at hr
            omega
          transmit_cur := h.transmit_cur, ackWait_cur := h.ackWait_cur
          pktWait_cur := h.pktWait_cur, ackEmit_cur := h.ackEmit_cur, got_none := h.got_none }
  by_cases hpkt : s.slot.hasPacket = true
  · obtain ⟨hd', data, h1, h2, -⟩ := hs.full hpkt
    by_cases hm : matchesFilter s.cfg hd' g = true
    · -- the poll that consumes the packet
      let p : Packet := ⟨hd', data⟩
      let w := { s with slot := { s.slot with hasPacket := false }, seq := { s.seq with got := some p } }
      have hpoll : pollStep s = onMatch p w := by
        simp only [pollStep, slotMatches, hpkt, if_true, h1, need_some, ok_bind, hg, hm, consume, readPacket, h2,
          w, p]
      have hwF : PollFrame s w := ⟨rfl, rfl, rfl, .inr ⟨hpkt, rfl⟩⟩
      have hwB : w.seq.Base s.cfg := ⟨h.txf_ok, h.txTry_le, h.sendTry_le, h.remaining_le⟩
      have add : ∀ {t}, SeqFrame w t → PollFrame s t := fun k =>
        ⟨k.cfg, k.conn, k.rsm, .inr ⟨hpkt, k.slot⟩⟩
      rw [hpoll]
      rcases hph with hp | hp
      · obtain ⟨h3, -, cmd, hc, -⟩ := h.ackWait_cur hp
        obtain ⟨f, hf⟩ := Option.isSome_iff_exists.1 h3
        let x := { w with seq := { w.seq with got := none } }
        refine ⟨sentOk cmd f x, by simp [onMatch, x, w, hp, hc, hf], ?_, ?_⟩
        · exact sentOk_inv (s := x)
            ⟨h.txf_ok, h.txTry_le, h.sendTry_le, h.remaining_le⟩ hc (h.cur_length cmd hc) rfl
        · exact add ((SeqFrame.of w _ _).trans (sentOk_frame cmd f x))
      · obtain ⟨cmd, hc, ha⟩ := h.pktWait_cur hp
        by_cases hop : cmd.op = .probe
        · let x := { w with seq := { w.seq with inUse := true, got := none } }
          refine ⟨respond { code := .ok, inUse := some true } x, by simp [onMatch, x, w, hp, hc, hop], ?_, add (.of ..)⟩
          exact respond_inv (s := x) _ ⟨h.txf_ok, h.txTry_le, h.sendTry_le, h.remaining_le⟩
        · by_cases hn : needsAck s.cfg p = true
          · refine ⟨startTx (ackFrame s.cfg s.conn.ownAddr p) .ackEmit w,
              by simp [onMatch, w, hp, hc, hop, hn], ?_, add (.of ..)⟩
            exact startTx_ackEmit_inv (p := p) hwB hc (h.cur_length cmd hc) rfl (ackFrame_ok ..) b1 ha
          · refine ⟨respond (packetResponse p) w, by simp [onMatch, w, hp, hc, hop, hn], respond_inv _ hwB,
              add (.of ..)⟩
    · obtain ⟨t, h3, h4⟩ := miss
      refine ⟨t, ?_, h4⟩
      simp only [pollStep, slotMatches, hpkt, if_true, h1, need_some, ok_bind, hg, hm]
      exact h3
  · obtain ⟨t, h3, h4⟩ := miss
    refine ⟨t, ?_, h4⟩
    simp only [pollStep, slotMatches, hpkt]
    exact h3

/-! ### TICK -/

/-- R206: TICK answers on a state that meets the sequencer's invariant, and keeps it. -/
theorem countTick_inv {s : State} (h : s.seq.Inv s.cfg) (he : s.seq.phase.waits = true)
    (hd : s.seq.pollDue = false) : ∃ t, countTick s = .ok t ∧ t.seq.Inv s.cfg ∧ SeqFrame s t := by
  have inv : ∀ r, r ≤ s.seq.remaining → ({ s.seq with remaining := r, pollDue := true } : Sequencer).Inv s.cfg :=
    fun r hr =>
      { idle_cur := h.idle_cur, cur_length := h.cur_length, txf_ok := h.txf_ok, txTry_le := h.txTry_le
        sendTry_le := h.sendTry_le, remaining_le := hr.trans h.remaining_le, transmitting := h.transmitting
        waiting := h.waiting, counted := by simp
        transmit_cur := h.transmit_cur, ackWait_cur := h.ackWait_cur
        pktWait_cur := h.pktWait_cur, ackEmit_cur := h.ackEmit_cur, got_none := h.got_none }
  by_cases hf : s.seq.forever = true
  · exact ⟨{ s with seq := { s.seq with pollDue := true } }, by simp [countTick, hf], inv _ (Nat.le_refl _), .of ..⟩
  · have h1 := h.counted he (by simpa using hf) hd
    refine ⟨{ s with seq := { s.seq with remaining := s.seq.remaining - 1, pollDue := true } }, ?_,
      inv _ (Nat.sub_le ..), .of ..⟩
    simp only [countTick, hf]
    rw [if_neg (by simp), if_neg (by omega)]

end Sys2Proof.Machine
end

