-- ==== Sys2Proof/Laws/Commands.lean ====
section
/-! SUPPORT. What an issue can do (R200, R219), said once, and that every command keeps the invariant (R44). -/
namespace Sys2Proof.Machine

/-- Everything ISSUE (R200) can do. -/
theorem issue_cases {op : CmdOp} {f : CmdFields} {data : List Byte} {go : State → State} {s t : State}
    (h : issue op f data go s = .next t) :
    (s.seq.phase ≠ .idle ∧ t = s) ∨
    (s.seq.phase = .idle ∧ ∃ code, issueError op f s = some code ∧
      t = respond { code := code } (takeHostOffer s)) ∨
    (s.seq.phase = .idle ∧ issueError op f s = none ∧
      t = go { takeHostOffer s with seq := { s.seq with cur := some ⟨op, f, data⟩ } }) := by
  unfold issue at h
  split at h
  · rename_i he
    have hp : s.seq.phase = .idle := by simpa [issueEnabled] using he
    split at h
    · rename_i code hc
      exact .inr (.inl ⟨hp, code, hc, by simpa using h.symm⟩)
    · rename_i hc
      exact .inr (.inr ⟨hp, hc, by simpa using h.symm⟩)
  · rename_i he
    exact .inl ⟨by simpa [issueEnabled] using he, ((hold_eq_next s).1 h).symm⟩

/-- Everything the issue of an illegal encoding (R219) can do. -/
theorem issueIllegal_cases {s t : State} (h : issueIllegal s = .next t) :
    (s.seq.phase ≠ .idle ∧ t = s) ∨
    (s.seq.phase = .idle ∧ t = respond { code := .illegalCommand } (takeHostOffer s)) := by
  unfold issueIllegal at h
  split at h
  · rename_i he
    exact .inr ⟨by simpa [issueEnabled] using he, by simpa using h.symm⟩
  · rename_i he
    exact .inl ⟨by simpa [issueEnabled] using he, ((hold_eq_next s).1 h).symm⟩

/-- An issue always answers a next state. -/
theorem issue_next (op : CmdOp) (f : CmdFields) (data : List Byte) (go : State → State) (s : State) :
    ∃ t, issue op f data go s = .next t := by
  unfold issue
  split
  · split
    · exact ⟨_, rfl⟩
    · exact ⟨_, rfl⟩
  · exact ⟨s, rfl⟩

theorem issueIllegal_next (s : State) : ∃ t, issueIllegal s = .next t := by
  unfold issueIllegal
  split
  · exact ⟨_, rfl⟩
  · exact ⟨s, rfl⟩

/-- The codes an issue check reports (R200): never NoAddressAvailable (R264). -/
theorem issueError_codes {op : CmdOp} {f : CmdFields} {s : State} {code : RespCode}
    (h : issueError op f s = some code) : code = .notInitialized ∨ code = .illegalCommand := by
  unfold issueError at h
  split_ifs at h <;> simp_all

/-- An issue keeps the sequencer's invariant when its dispatch does. -/
theorem issue_inv {op : CmdOp} {f : CmdFields} {data : List Byte} {go : State → State} {s t : State}
    (h : issue op f data go s = .next t) (hs : s.seq.Inv s.cfg)
    (hgo : s.seq.phase = .idle → issueError op f s = none →
      let u := { takeHostOffer s with seq := { s.seq with cur := some ⟨op, f, data⟩ } }
      (go u).seq.Inv s.cfg) : t.seq.Inv s.cfg := by
  rcases issue_cases h with ⟨-, rfl⟩ | ⟨hp, code, -, rfl⟩ | ⟨hp, he, rfl⟩
  · exact hs
  · exact respond_inv _ hs.base
  · exact hgo hp he

/-- R202: the entry of a command that transmits sets up the invariant. -/
theorem dispatchTx_inv {op : CmdOp} {f : CmdFields} {data : List Byte} {p : Packet} {s u : State}
    (hs : s.seq.Inv s.cfg) (hw : s.cfg.wf = true) (hp : s.seq.phase = .idle) (hl : f.lengthOk data = true)
    (ht : op.transmits = true) (hf : frameOk s.cfg p = true) {b : Bool}
    (hu : u.seq = { s.seq with cur := some ⟨op, f, data⟩, sendTry := 1, inUse := b }) :
    (startTx p .transmit u).seq.Inv s.cfg := by
  obtain ⟨b1, b2, -, -⟩ := wf_bounds hw
  refine startTx_transmit_inv (cmd := ⟨op, f, data⟩) ?_ (by rw [hu]) hl ?_ hf b1 ht (by rw [hu])
  · rw [hu]; exact ⟨hs.txf_ok, hs.txTry_le, b2, hs.remaining_le⟩
  · rw [hu]; exact hs.got_none (by rw [hp]; simp)

/-- R202: the entry of a command that waits sets up the invariant. -/
theorem dispatchWait_inv {op : CmdOp} {f : CmdFields} {data : List Byte} {g : Filter} {s u : State}
    (hs : s.seq.Inv s.cfg) (hp : s.seq.phase = .idle) (hl : f.lengthOk data = true)
    (ht : op.waitsForPacket = true) (hu : u.seq = { s.seq with cur := some ⟨op, f, data⟩ }) :
    (startWait .pktWait g (timeoutOf f) u).seq.Inv s.cfg := by
  refine startWait_inv (cmd := ⟨op, f, data⟩) ?_ (by rw [hu]) hl ?_ (timeoutOf_le f) (.inr ⟨rfl, ht⟩)
  · rw [hu]; exact ⟨hs.txf_ok, hs.txTry_le, hs.sendTry_le, hs.remaining_le⟩
  · rw [hu]; exact hs.got_none (by rw [hp]; simp)

theorem lengthOk_le {f : CmdFields} {data : List Byte} (h : f.lengthOk data = true) : data.length ≤ 255 := by
  simp only [CmdFields.lengthOk, beq_iff_eq] at h
  have := f.l.isLt
  omega

end Sys2Proof.Machine
end

