-- ==== Sys2Proof/Laws/Reassembler.lean ====
section
/-! SUPPORT. What the RX step and a whole frame can do, said once (R140 to R151, R161). -/
namespace Sys2Proof.Machine

/-! ### complete() -/

/-- Everything `complete()` (R147) can do. -/
theorem complete_cases {s t : State} (h : complete s = .ok t) :
    (s.rsm.frameValid = false ∧ t = toIdle s) ∨
    ∃ hd, s.rsm.frameValid = true ∧ s.rsm.hdrBuf.header? = some hd ∧
      ((hd.status = s.cfg.stCheck ∧ t = toIdle (queueCheckAck hd s)) ∨
       (hd.status ≠ s.cfg.stCheck ∧ s.slot.hasPacket = true ∧ t = toIdle s) ∨
       (hd.status ≠ s.cfg.stCheck ∧ s.slot.hasPacket = false ∧
         ∃ data, s.rsm.payBuf.readRange 0 hd.length.toNat = some data ∧ t = toIdle (publish ⟨hd, data⟩ s))) := by
  unfold complete at h
  split at h
  · rename_i hv
    obtain ⟨hd, h1, h2⟩ := bind_eq_ok.1 h
    rw [need_eq_ok] at h1
    refine .inr ⟨hd, hv, h1, ?_⟩
    split at h2
    · exact .inl ⟨‹_›, by simpa using h2.symm⟩
    · split at h2
      · exact .inr (.inl ⟨‹_›, ‹_›, by simpa using h2.symm⟩)
      · obtain ⟨p, h3, h4⟩ := bind_eq_ok.1 h2
        obtain ⟨data, h5, h6⟩ := bind_eq_ok.1 h3
        simp only [need_eq_ok, Except.ok.injEq] at h5 h6 h4
        subst h6
        exact .inr (.inr ⟨‹_›, by simpa using ‹¬s.slot.hasPacket = true›, data, h5, h4.symm⟩)
  · exact .inl ⟨by simpa using ‹¬s.rsm.frameValid = true›, by simpa using h.symm⟩

/-! ### What a step of RX leaves alone -/

/-- `t` differs from `s` in the reassembler and, by a publish into the empty slot, in the slot at most. -/
structure RxFrame (s t : State) : Prop where
  cfg : t.cfg = s.cfg
  conn : t.conn = s.conn
  seq : t.seq = s.seq
  ports : t.ports = s.ports
  slot : t.slot = s.slot ∨ s.slot.hasPacket = false ∧ t.slot.hasPacket = true

theorem RxFrame.refl (s : State) : RxFrame s s := ⟨rfl, rfl, rfl, rfl, .inl rfl⟩

theorem RxFrame.trans {s t u : State} (h : RxFrame s t) (k : RxFrame t u) : RxFrame s u where
  cfg := k.cfg.trans h.cfg
  conn := k.conn.trans h.conn
  seq := k.seq.trans h.seq
  ports := k.ports.trans h.ports
  slot := by
    rcases h.slot with h1 | h1 <;> rcases k.slot with h2 | h2 <;> simp_all

/-- A state with the same other blocks. -/
theorem RxFrame.of_rsm (s : State) (r : Reassembler) : RxFrame s { s with rsm := r } :=
  ⟨rfl, rfl, rfl, rfl, .inl rfl⟩

theorem complete_frame {s t : State} (h : complete s = .ok t) : RxFrame s t := by
  rcases complete_cases h with ⟨-, rfl⟩ | ⟨hd, -, -, ⟨-, rfl⟩ | ⟨-, -, rfl⟩ | ⟨-, hp, data, -, rfl⟩⟩
  · exact .of_rsm ..
  · exact .of_rsm ..
  · exact .of_rsm ..
  · exact ⟨rfl, rfl, rfl, rfl, .inr ⟨hp, rfl⟩⟩

/-- Everything the destination check (R143) can do. -/
theorem checkDestination_cases {s t : State} (h : checkDestination s = .ok t) :
    ∃ d, s.rsm.hdrBuf.read 0 = some d ∧
      t = if destOk s.cfg s.conn.ownAddr d then s else markInvalid s := by
  obtain ⟨d, h1, h2⟩ := bind_eq_ok.1 h
  rw [need_eq_ok] at h1
  refine ⟨d, h1, ?_⟩
  split at h2 <;> simp_all

theorem checkDestination_frame {s t : State} (h : checkDestination s = .ok t) : RxFrame s t := by
  obtain ⟨d, -, rfl⟩ := checkDestination_cases h
  split
  · exact .refl s
  · exact .of_rsm ..

theorem finishHeader_frame {s t : State} {k : Byte} (h : finishHeader s = .ok (t, k)) : RxFrame s t := by
  obtain ⟨hd, -, h2⟩ := bind_eq_ok.1 h
  have h0 : RxFrame s (if checksumOk hd then s else markInvalid s) := by
    split
    · exact .refl s
    · exact .of_rsm ..
  refine h0.trans ?_
  revert h2
  generalize (if checksumOk hd then s else markInvalid s) = u
  intro h2
  dsimp only at h2
  split at h2
  · split at h2
    · obtain ⟨v, h3, h4⟩ := bind_eq_ok.1 h2
      simp only [Except.ok.injEq, Prod.mk.injEq] at h4
      exact h4.1 ▸ complete_frame h3
    · simp only [Except.ok.injEq, Prod.mk.injEq] at h2
      exact h2.1 ▸ .refl u
  · simp only [Except.ok.injEq, Prod.mk.injEq] at h2
    exact h2.1 ▸ .of_rsm ..

theorem headerByte_frame {s t : State} {b k : Byte} (h : headerByte b s = .ok (t, k)) : RxFrame s t := by
  obtain ⟨m, -, h2⟩ := bind_eq_ok.1 h
  refine (RxFrame.of_rsm s { s.rsm with hdrBuf := m, bytesRead := s.rsm.bytesRead + 1 }).trans ?_
  dsimp only at h2
  split at h2
  · obtain ⟨v, h3, h4⟩ := bind_eq_ok.1 h2
    simp only [Except.ok.injEq, Prod.mk.injEq] at h4
    exact h4.1 ▸ checkDestination_frame h3
  · split at h2
    · exact finishHeader_frame h2
    · simp only [Except.ok.injEq, Prod.mk.injEq] at h2
      exact h2.1 ▸ .refl _

theorem payloadByte_frame {s t : State} {b k : Byte} (h : payloadByte b s = .ok (t, k)) : RxFrame s t := by
  obtain ⟨m, -, h2⟩ := bind_eq_ok.1 h
  refine (RxFrame.of_rsm s { s.rsm with payBuf := m, bytesRead := s.rsm.bytesRead + 1 }).trans ?_
  obtain ⟨l, -, h3⟩ := bind_eq_ok.1 h2
  dsimp only at h3
  split at h3
  · obtain ⟨v, h4, h5⟩ := bind_eq_ok.1 h3
    simp only [Except.ok.injEq, Prod.mk.injEq] at h5
    exact h5.1 ▸ complete_frame h4
  · simp only [Except.ok.injEq, Prod.mk.injEq] at h3
    exact h3.1 ▸ .refl _

/-- R140: the RX step writes the reassembler and, by a publish into the empty slot, the slot; nothing else. -/
theorem rxStep_frame {s t : State} {e : Bool} {b k : Byte} (h : rxStep e b s = .ok (t, k)) : RxFrame s t := by
  unfold rxStep at h
  have h0 : RxFrame s (if (e && s.cfg.priorErrorInvalidates) = true then markInvalid s else s) := by
    split
    · exact .of_rsm ..
    · exact .refl s
  refine h0.trans ?_
  revert h
  generalize (if (e && s.cfg.priorErrorInvalidates) = true then markInvalid s else s) = u
  dsimp only
  intro h
  split at h
  · exact headerByte_frame h
  · exact payloadByte_frame h

/-- R140, R102: a delivered byte changes at the ports the skip answers alone. -/
theorem deliverByte_frame {s t : State} {e : Bool} {b k : Byte} (h : deliverByte e b s = .ok (t, k)) :
    ∃ u, rxStep e b s = .ok (u, k) ∧ t = answerSkip k u ∧ RxFrame s u := by
  obtain ⟨⟨u, k'⟩, h1, h2⟩ := bind_eq_ok.1 h
  simp only [Except.ok.injEq, Prod.mk.injEq] at h2
  obtain ⟨rfl, rfl⟩ := h2
  exact ⟨u, h1, rfl, rxStep_frame h1⟩

/-! ### Runs of bytes -/

/-- What every delivered byte keeps, a run of bytes keeps. -/
theorem deliverBytes_induction {P : State → Prop}
    (hP : ∀ s t b k, P s → rxEnabled s = true → deliverByte false b s = .ok (t, k) → P t)
    {bs left : List Byte} {n : Nat} {s t : State} (h : deliverBytes bs n s = .ok (t, left)) (hs : P s) : P t := by
  induction bs generalizing n s with
  | nil => simp only [deliverBytes, Except.ok.injEq, Prod.mk.injEq] at h; exact h.1 ▸ hs
  | cons b bs ih =>
    cases n with
    | succ n => exact ih h hs
    | zero =>
      simp only [deliverBytes] at h
      split at h
      · split at h
        · rename_i hd
          exact ih h (hP _ _ _ _ hs ‹_› hd)
        · simp at h
      · simp only [Except.ok.injEq, Prod.mk.injEq] at h; exact h.1 ▸ hs

/-- A whole frame, when it answers, is its run of bytes and the bytes taken from the port. -/
theorem deliverFrame_eq_next {bs : List Byte} {s t : State} (h : deliverFrame bs s = .next t) :
    ∃ u left, deliverBytes bs 0 s = .ok (u, left) ∧ t = takeRx (bs.length - left.length) u := by
  simp only [deliverFrame, outcomeOf_eq_next] at h
  obtain ⟨⟨u, left⟩, h1, h2⟩ := bind_eq_ok.1 h
  simp only [Except.ok.injEq] at h2
  exact ⟨u, left, h1, h2.symm⟩

end Sys2Proof.Machine
end

