-- ==== Sys2Proof/Laws/Delivery.lean ====
section
/-! SUPPORT. The RX step byte by byte as equations, and what a whole frame delivered to an Idle reassembler leaves (R140
to R147, R161). -/
namespace Sys2Proof.Machine

/-! ### One byte -/

/-- R142: the prior error enters the RX step only through `frame_valid`. -/
theorem rxStep_eq (e : Bool) (b : Byte) (s : State) : rxStep e b s =
    if s.rsm.bytesRead < 7 then
      headerByte b { s with rsm := { s.rsm with
        frameValid := s.rsm.frameValid && !(e && s.cfg.priorErrorInvalidates) } }
    else
      payloadByte b { s with rsm := { s.rsm with
        frameValid := s.rsm.frameValid && !(e && s.cfg.priorErrorInvalidates) } } := by
  unfold rxStep
  by_cases h : (e && s.cfg.priorErrorInvalidates) = true
  · simp [h, markInvalid]
  · simp only [Bool.not_eq_true] at h
    simp [h]

/-- R141, R143: a header byte before the seventh; `v` is `frame_valid` after the prior error is accounted for. -/
theorem headerByte_early (b : Byte) (s : State) (v : Bool) (d : Byte) (hn : s.rsm.bytesRead < 6)
    (hd : s.rsm.bytesRead = 1 → s.rsm.hdrBuf.read 0 = some d) :
    headerByte b { s with rsm := { s.rsm with frameValid := v } } =
      .ok ({ s with rsm := { s.rsm with
        bytesRead := s.rsm.bytesRead + 1
        hdrBuf := s.rsm.hdrBuf.write s.rsm.bytesRead b
        frameValid := v && (s.rsm.bytesRead != 1 || d == s.conn.ownAddr || d == s.cfg.addrBroadcast) } }, 0) := by
  have hw : writeByte .hdrBuf 7 s.rsm.hdrBuf s.rsm.bytesRead b = .ok (s.rsm.hdrBuf.write s.rsm.bytesRead b) := by
    simp; omega
  by_cases h1 : s.rsm.bytesRead = 1
  · have hd' := hd h1
    simp [headerByte, h1, checkDestination, destOk]
    simp only [h1] at hw
    by_cases hx : d = s.conn.ownAddr <;> by_cases hy : d = s.cfg.addrBroadcast <;>
      simp [hw, hx, hy, hd', markInvalid]
  · have : s.rsm.bytesRead + 1 ≠ 2 := by omega
    have : s.rsm.bytesRead + 1 ≠ 7 := by omega
    simp [headerByte, *]

/-- R144, R145, R147: the seventh byte. -/
theorem headerByte_last (b : Byte) (s : State) (v : Bool) (h : Header) (hn : s.rsm.bytesRead = 6)
    (hh : (s.rsm.hdrBuf.write 6 b).header? = some h) :
    headerByte b { s with rsm := { s.rsm with frameValid := v } } =
      (let u := { s with rsm := { s.rsm with
        bytesRead := 7, hdrBuf := s.rsm.hdrBuf.write 6 b, frameValid := v && checksumOk h } }
      if (v && checksumOk h) = true then
        if h.length = 0 then (do let t ← complete u; .ok (t, 0)) else .ok (u, 0)
      else .ok (toIdle u, h.length)) := by
  have hw : writeByte .hdrBuf 7 s.rsm.hdrBuf 6 b = .ok (s.rsm.hdrBuf.write 6 b) := by simp
  simp only [headerByte, hn, hw, ok_bind, finishHeader]
  simp [hh]
  by_cases hc : checksumOk h = true <;> cases v <;> simp [hc, markInvalid]

/-- R146: a payload byte before the last. -/
theorem payloadByte_early (b : Byte) (s : State) (v : Bool) (l : Byte) (hn : 7 ≤ s.rsm.bytesRead)
    (hr : s.rsm.hdrBuf.read 5 = some l) (hl : s.rsm.bytesRead + 1 < 7 + l.toNat) :
    payloadByte b { s with rsm := { s.rsm with frameValid := v } } =
      .ok ({ s with rsm := { s.rsm with
        bytesRead := s.rsm.bytesRead + 1, payBuf := s.rsm.payBuf.write (s.rsm.bytesRead - 7) b
        frameValid := v } }, 0) := by
  have h255 := l.isLt
  have hw : writeByte .payBuf 255 s.rsm.payBuf (s.rsm.bytesRead - 7) b =
      .ok (s.rsm.payBuf.write (s.rsm.bytesRead - 7) b) := by simp; omega
  simp only [payloadByte, hw, ok_bind, hr, need_some]
  rw [if_neg (by omega)]

/-- R147: the last payload byte. -/
theorem payloadByte_last (b : Byte) (s : State) (v : Bool) (l : Byte) (hn : 7 ≤ s.rsm.bytesRead)
    (hr : s.rsm.hdrBuf.read 5 = some l) (hl : s.rsm.bytesRead + 1 = 7 + l.toNat) :
    payloadByte b { s with rsm := { s.rsm with frameValid := v } } =
      (do
        let t ← complete { s with rsm := { s.rsm with
          bytesRead := s.rsm.bytesRead + 1, payBuf := s.rsm.payBuf.write (s.rsm.bytesRead - 7) b
          frameValid := v } }
        .ok (t, 0)) := by
  have h255 := l.isLt
  have hw : writeByte .payBuf 255 s.rsm.payBuf (s.rsm.bytesRead - 7) b =
      .ok (s.rsm.payBuf.write (s.rsm.bytesRead - 7) b) := by simp; omega
  simp only [payloadByte, hw, ok_bind, hr, need_some]
  rw [if_pos (by omega)]

/-- What a valid frame with header `h` and payload `data` does at its end (R147). -/
def settle (h : Header) (data : List Byte) (s : State) : State :=
  toIdle (if h.status = s.cfg.stCheck then queueCheckAck h s
    else if s.slot.hasPacket then s else publish ⟨h, data⟩ s)

/-- R147 as an equation. -/
theorem complete_eq (s : State) (h : Header) (data : List Byte)
    (hh : s.rsm.frameValid = true → s.rsm.hdrBuf.header? = some h)
    (hd : s.rsm.frameValid = true → s.rsm.payBuf.readRange 0 h.length.toNat = some data) :
    complete s = .ok (if s.rsm.frameValid then settle h data s else toIdle s) := by
  unfold complete settle
  split
  · rename_i hv
    simp only [hh hv, need_some, ok_bind]
    split
    · rfl
    · split
      · rfl
      · simp [readPacket, hd hv]
  · rfl

/-! ### Runs of bytes -/

/-- The state `n` header bytes into a frame: `m` holds them, `v` is `frame_valid`, each was answered 0. -/
def inHeader (s : State) (n : Nat) (m : Memory) (v : Bool) : State :=
  { s with
    rsm := { s.rsm with bytesRead := n, hdrBuf := m, frameValid := v }
    ports := { s.ports with skips := s.ports.skips ++ List.replicate n 0 } }

theorem inHeader_step (s : State) (n : Nat) (m : Memory) (v : Bool) (b d : Byte) (bs : List Byte)
    (hk : s.rsm.ckaPending = false) (hn : n < 6) (hd : n = 1 → m.read 0 = some d) :
    deliverBytes (b :: bs) 0 (inHeader s n m v) =
      deliverBytes bs 0 (inHeader s (n + 1) (m.write n b)
        (v && (n != 1 || d == s.conn.ownAddr || d == s.cfg.addrBroadcast))) := by
  have h := headerByte_early b (inHeader s n m v) v d hn hd
  have h0 : rxStep false b (inHeader s n m v) =
      headerByte b { inHeader s n m v with rsm := { (inHeader s n m v).rsm with frameValid := v } } := by
    rw [rxStep_eq, if_pos (by simp [inHeader]; omega)]; simp [inHeader]
  rw [h] at h0
  simp only [deliverBytes, deliverByte, h0]
  simp [rxEnabled, inHeader, hk, answerSkip, List.replicate_succ']

/-- `m` with the first six bytes of `h` at 0 to 5. -/
def sixBytes (m : Memory) (h : Header) : Memory :=
  (((((m.write 0 h.destination).write 1 h.source).write 2 h.status).write 3 h.command).write 4 h.id).write 5 h.length

theorem sixBytes_header? (m : Memory) (h : Header) : ((sixBytes m h).write 6 h.checksum).header? = some h := by
  rw [Memory.header?_eq_some]
  intro j hj
  have : j = 0 ∨ j = 1 ∨ j = 2 ∨ j = 3 ∨ j = 4 ∨ j = 5 ∨ j = 6 := by omega
  rcases this with rfl | rfl | rfl | rfl | rfl | rfl | rfl <;>
    simp [sixBytes, Header.bytes]

/-- R141, R143: six bytes into a frame whose destination the node accepts or not. -/
theorem deliverBytes_header (s : State) (h : Header) (p : List Byte) (hk : s.rsm.ckaPending = false)
    (hn : s.rsm.bytesRead = 0) (hv : s.rsm.frameValid = true) :
    deliverBytes (h.bytes ++ p) 0 s = deliverBytes (h.checksum :: p) 0
      (inHeader s 6 (sixBytes s.rsm.hdrBuf h)
        (h.destination == s.conn.ownAddr || h.destination == s.cfg.addrBroadcast)) := by
  have : s = inHeader s 0 s.rsm.hdrBuf true := by
    cases s with | mk c co r sl q po => cases r; simp_all [inHeader]
  conv_lhs => rw [this]
  simp only [Header.bytes, List.cons_append, List.nil_append]
  rw [inHeader_step _ _ _ _ _ 0 _ hk (by omega) (by omega),
    inHeader_step _ _ _ _ _ h.destination _ hk (by omega) (by simp),
    inHeader_step _ _ _ _ _ 0 _ hk (by omega) (by omega), inHeader_step _ _ _ _ _ 0 _ hk (by omega) (by omega),
    inHeader_step _ _ _ _ _ 0 _ hk (by omega) (by omega), inHeader_step _ _ _ _ _ 0 _ hk (by omega) (by omega)]
  simp [sixBytes]

/-- The state `n` payload bytes into a valid frame. -/
def inPayload (s : State) (n : Nat) (hm m : Memory) : State :=
  { s with
    rsm := { s.rsm with bytesRead := 7 + n, hdrBuf := hm, payBuf := m, frameValid := true }
    ports := { s.ports with skips := s.ports.skips ++ List.replicate (7 + n) 0 } }

theorem inPayload_step (s : State) (n : Nat) (hm m : Memory) (b l : Byte) (bs : List Byte)
    (hk : s.rsm.ckaPending = false) (hr : hm.read 5 = some l) (hl : n + 1 < l.toNat) :
    deliverBytes (b :: bs) 0 (inPayload s n hm m) = deliverBytes bs 0 (inPayload s (n + 1) hm (m.write n b)) := by
  have h := payloadByte_early b (inPayload s n hm m) true l (by simp [inPayload]) hr (by simp [inPayload]; omega)
  have h0 : rxStep false b (inPayload s n hm m) =
      payloadByte b { inPayload s n hm m with rsm := { (inPayload s n hm m).rsm with frameValid := true } } := by
    rw [rxStep_eq, if_neg (by simp [inPayload])]; simp [inPayload]
  rw [h] at h0
  simp only [deliverBytes, deliverByte, h0]
  simp [rxEnabled, inPayload, hk, answerSkip, List.replicate_succ', ← Nat.add_assoc]

/-- `m` with the bytes of a list from `a` on. -/
def writeAll (m : Memory) (a : Nat) : List Byte → Memory
  | [] => m
  | b :: bs => writeAll (m.write a b) (a + 1) bs

theorem writeAll_read (bs : List Byte) (m : Memory) (a k : Nat) :
    (writeAll m a bs).read k = if a ≤ k ∧ k < a + bs.length then bs[k - a]? else m.read k := by
  induction bs generalizing m a with
  | nil => simp [writeAll]
  | cons b bs ih =>
    simp only [writeAll, ih, Memory.read_write]
    by_cases h1 : a = k
    · subst h1; simp
    · by_cases h2 : a + 1 ≤ k
      · obtain ⟨j, rfl⟩ : ∃ j, k = a + 1 + j := ⟨k - (a + 1), by omega⟩
        have : a + 1 + j - a = j + 1 := by omega
        have e2 : (a + 1 + j < a + 1 + bs.length) ↔ (a + 1 + j < a + (bs.length + 1)) := by omega
        simp [this, h1, e2, show a ≤ a + 1 + j by omega]
      · simp [h1, h2, show ¬ a ≤ k by omega]

/-- R146: the payload of a frame but its last byte. -/
theorem deliverBytes_payload (s : State) (hm : Memory) (l : Byte) (hk : s.rsm.ckaPending = false)
    (hr : hm.read 5 = some l) (bs : List Byte) (b : Byte) (n : Nat) (m : Memory)
    (hl : n + bs.length + 1 = l.toNat) :
    deliverBytes (bs ++ [b]) 0 (inPayload s n hm m) =
      deliverBytes [b] 0 (inPayload s (n + bs.length) hm (writeAll m n bs)) := by
  induction bs generalizing n m with
  | nil => rfl
  | cons c cs ih =>
    simp only [List.length_cons] at hl
    rw [List.cons_append, inPayload_step s n hm m c l _ hk hr (by omega), ih (n + 1) _ (by omega)]
    simp [writeAll, Nat.add_assoc, Nat.add_comm 1]

/-- Withheld bytes leave no trace (R160). -/
theorem deliverBytes_withheld (bs : List Byte) (n : Nat) (s : State) (h : bs.length ≤ n) :
    deliverBytes bs n s = .ok (s, []) := by
  induction bs generalizing n with
  | nil => rfl
  | cons b bs ih =>
    cases n with
    | zero => simp at h
    | succ n => exact ih n (by simpa using h)

/-- R161, invalid header: seven bytes are consumed, the seventh answers the length, and nothing but the buffers
changes. -/
theorem deliverBytes_invalid (s : State) (h : Header) (p : List Byte) (hk : s.rsm.ckaPending = false)
    (hn : s.rsm.bytesRead = 0) (hv : s.rsm.frameValid = true) (hl : p.length = h.length.toNat)
    (hd : ((h.destination == s.conn.ownAddr || h.destination == s.cfg.addrBroadcast) && checksumOk h) = false) :
    ∃ hm, deliverBytes (h.bytes ++ p) 0 s = .ok (answerSkip h.length (toIdle { s with
      rsm := { s.rsm with bytesRead := 7, hdrBuf := hm, frameValid := false }
      ports := { s.ports with skips := s.ports.skips ++ List.replicate 6 0 } }), []) := by
  rw [deliverBytes_header s h p hk hn hv]
  revert hd
  generalize (h.destination == s.conn.ownAddr || h.destination == s.cfg.addrBroadcast) = v
  intro hd
  have h7 := headerByte_last h.checksum (inHeader s 6 (sixBytes s.rsm.hdrBuf h) v) v h rfl
    (sixBytes_header? s.rsm.hdrBuf h)
  have h0 : rxStep false h.checksum (inHeader s 6 (sixBytes s.rsm.hdrBuf h) v) =
      headerByte h.checksum { inHeader s 6 (sixBytes s.rsm.hdrBuf h) v with
        rsm := { (inHeader s 6 (sixBytes s.rsm.hdrBuf h) v).rsm with frameValid := v } } := by
    rw [rxStep_eq, if_pos (by simp [inHeader])]; simp [inHeader]
  rw [h7] at h0
  simp only [hd, if_false, Bool.false_eq_true] at h0
  have hen : rxEnabled (inHeader s 6 (sixBytes s.rsm.hdrBuf h) v) = true := by simp [rxEnabled, inHeader, hk]
  refine ⟨(sixBytes s.rsm.hdrBuf h).write 6 h.checksum, ?_⟩
  simp only [deliverBytes, deliverByte, h0, hen]
  simp [deliverBytes_withheld _ _ _ (show p.length ≤ h.length.toNat by omega), inHeader]

/-- R161, valid header: `7 + L` bytes are consumed, each answering 0, and the frame settles (R147). -/
theorem deliverBytes_valid (s : State) (h : Header) (p : List Byte) (hk : s.rsm.ckaPending = false)
    (hn : s.rsm.bytesRead = 0) (hv : s.rsm.frameValid = true) (hl : p.length = h.length.toNat)
    (hd : h.destination = s.conn.ownAddr ∨ h.destination = s.cfg.addrBroadcast) (hc : checksumOk h = true) :
    ∃ hm pm, deliverBytes (h.bytes ++ p) 0 s = .ok (answerSkip 0 (settle h p { s with
      rsm := { s.rsm with bytesRead := 7 + h.length.toNat, hdrBuf := hm, payBuf := pm, frameValid := true }
      ports := { s.ports with skips := s.ports.skips ++ List.replicate (6 + h.length.toNat) 0 } }), []) := by
  have hdb : (h.destination == s.conn.ownAddr || h.destination == s.cfg.addrBroadcast) = true := by simpa using hd
  rw [deliverBytes_header s h p hk hn hv, hdb]
  have hh := sixBytes_header? s.rsm.hdrBuf h
  have h7 := headerByte_last h.checksum (inHeader s 6 (sixBytes s.rsm.hdrBuf h) true) true h rfl hh
  have h0 : rxStep false h.checksum (inHeader s 6 (sixBytes s.rsm.hdrBuf h) true) =
      headerByte h.checksum { inHeader s 6 (sixBytes s.rsm.hdrBuf h) true with
        rsm := { (inHeader s 6 (sixBytes s.rsm.hdrBuf h) true).rsm with frameValid := true } } := by
    rw [rxStep_eq, if_pos (by simp [inHeader])]; simp [inHeader]
  rw [h7] at h0
  simp only [hc, Bool.and_self, if_true] at h0
  have hen : rxEnabled (inHeader s 6 (sixBytes s.rsm.hdrBuf h) true) = true := by simp [rxEnabled, inHeader, hk]
  by_cases hz : h.length = 0
  · have : p = [] := by rw [hz] at hl; simpa using hl
    subst this
    rw [if_pos hz, complete_eq _ h [] (fun _ => hh) (fun _ => by simp [hz, Memory.readRange])] at h0
    refine ⟨(sixBytes s.rsm.hdrBuf h).write 6 h.checksum, s.rsm.payBuf, ?_⟩
    have z : h.length.toNat = 0 := by rw [hz]; rfl
    rw [z]
    simp only [deliverBytes, deliverByte, h0, hen]
    rfl
  · rw [if_neg hz] at h0
    have hz' : h.length.toNat ≠ 0 := fun h0 => hz (BitVec.eq_of_toNat_eq h0)
    obtain ⟨bs, b, rfl⟩ : ∃ bs b, p = bs ++ [b] := by
      rcases List.eq_nil_or_concat p with rfl | ⟨bs, b, rfl⟩
      · simp at hl; omega
      · exact ⟨bs, b, by simp⟩
    simp only [List.length_append, List.length_cons, List.length_nil] at hl
    let hm := (sixBytes s.rsm.hdrBuf h).write 6 h.checksum
    let X := inPayload s (0 + bs.length) hm (writeAll s.rsm.payBuf 0 bs)
    have step7 : deliverBytes (h.checksum :: (bs ++ [b])) 0 (inHeader s 6 (sixBytes s.rsm.hdrBuf h) true) =
        deliverBytes (bs ++ [b]) 0 (inPayload s 0 hm s.rsm.payBuf) := by
      simp only [deliverBytes, deliverByte, h0, hen]
      simp [inPayload, inHeader, answerSkip, hm]
    rw [step7, deliverBytes_payload s _ h.length hk (Memory.header?_length hh) bs b 0 _ (by omega)]
    refine ⟨hm, (writeAll s.rsm.payBuf 0 bs).write bs.length b, ?_⟩
    have hp := payloadByte_last b X true h.length (by simp [X, inPayload]) (Memory.header?_length hh)
      (by simp [X, inPayload]; omega)
    have h1e : rxStep false b X = payloadByte b { X with rsm := { X.rsm with frameValid := true } } := by
      rw [rxStep_eq, if_neg (by simp [X, inPayload])]; simp [X, inPayload]
    have h1 := h1e.trans hp
    rw [complete_eq _ h (bs ++ [b]) (fun _ => hh) (fun _ => by
      rw [Memory.readRange_eq_some]
      refine ⟨by simp; omega, fun j hj => ?_⟩
      simp only [X, inPayload, Memory.read_write, writeAll_read]
      by_cases e : j = bs.length
      · simp [e]
      · have : j < bs.length := by omega
        simp [this, Ne.symm e]
        rw [List.getElem?_append_left this]; simp)] at h1
    have hen2 : rxEnabled X = true := by simp [X, rxEnabled, inPayload, hk]
    change deliverBytes [b] 0 X = _
    simp only [deliverBytes, deliverByte, h1, hen2, if_true, ok_bind]
    clear h0 h7 hp h1e h1 step7
    have e1 : 7 + h.length.toNat = 7 + (0 + bs.length) + 1 := by omega
    have e2 : 6 + h.length.toNat = 7 + (0 + bs.length) := by omega
    have e3 : 7 + (0 + bs.length) - 7 = bs.length := by omega
    simp only [X, inPayload]
    rw [e1, e2, e3]

end Sys2Proof.Machine
end

