-- ==== Sys2Proof/Laws/Encoding.lean ====
section
/-! SUPPORT. The encoder and the decoder on one word, one frame and one byte (R80, R93, R102). -/
namespace Sys2Proof

/-! ### The command word (R93) -/

theorem cwFields_encode (op : BitVec 4) (rsv : BitVec 3) (f : CmdFields) :
    cwFields (encodeCommand op rsv f) = f := by
  cases f with | mk n a s c i l t =>
  simp only [cwFields, encodeCommand, CmdFields.mk.injEq]
  refine ⟨?_, ?_, ?_, ?_, ?_, ?_, ?_⟩
  · simp only [BitVec.getLsbD_append]; norm_num
  all_goals
    ext k hk
    simp only [BitVec.getElem_extractLsb', BitVec.getLsbD_append]
    repeat' split
    all_goals first | omega | (rw [BitVec.getLsbD_eq_getElem (by omega)]; congr 1; omega)

theorem cwOp_encode (op : BitVec 4) (rsv : BitVec 3) (f : CmdFields) : cwOp (encodeCommand op rsv f) = op := by
  simp only [cwOp, encodeCommand]
  ext k hk
  simp only [BitVec.getElem_extractLsb', BitVec.getLsbD_append]
  repeat' split
  all_goals first | omega | (rw [BitVec.getLsbD_eq_getElem (by omega)]; congr 1; omega)

theorem cwRsv_encode (op : BitVec 4) (rsv : BitVec 3) (f : CmdFields) : cwRsv (encodeCommand op rsv f) = rsv := by
  simp only [cwRsv, encodeCommand]
  ext k hk
  simp only [BitVec.getElem_extractLsb', BitVec.getLsbD_append]
  repeat' split
  all_goals first | omega | (rw [BitVec.getLsbD_eq_getElem (by omega)]; congr 1; omega)

/-- The three readers cover all 64 bits of a command word. -/
theorem encodeCommand_cw (cw : CmdBits) : encodeCommand (cwOp cw) (cwRsv cw) (cwFields cw) = cw := by
  simp only [cwOp, cwRsv, cwFields, encodeCommand]
  ext k hk
  simp only [BitVec.getElem_append, BitVec.getElem_extractLsb', BitVec.getElem_ofBool]
  repeat' split
  all_goals (rw [← BitVec.getLsbD_eq_getElem]; congr 1; omega)

theorem decodeCommand_encode {op : BitVec 4} {rsv : BitVec 3} {f : CmdFields} {data : List Byte}
    (h : f.lengthOk data = true) :
    decodeCommand (encodeCommand op rsv f) data =
      .ok (if rsv ≠ 0 then .reservedRsv op rsv f data else instrOfOp op f data) := by
  simp only [decodeCommand, cwFields_encode, cwOp_encode, cwRsv_encode, h]
  split_ifs <;> simp_all

/-! ### The RX transaction (R102) -/

theorem rxBits_err (e : Bool) (b : Byte) : (BitVec.ofBool e ++ b).getLsbD 8 = e := by
  rw [BitVec.getLsbD_append]; simp

theorem rxBits_byte (e : Bool) (b : Byte) : (BitVec.ofBool e ++ b).extractLsb' 0 8 = b := by
  ext k hk
  rw [BitVec.getElem_extractLsb', BitVec.getLsbD_append]; simp [hk]

/-! ### The wire frame (R80) -/

theorem decodeFrame_frameBytes (c : Config) (st : Byte) {h : FrameFields} {p : List Byte} (rest : List Byte)
    (hl : h.lengthOk p = true) :
    decodeFrame c (frameBytes st h p ++ rest) = .ok (instrOfStatus c st h p, rest) := by
  simp only [FrameFields.lengthOk, beq_iff_eq] at hl
  simp [frameBytes, FrameFields.header, Header.bytes, decodeFrame, ← hl]

theorem decode_frameBytes (c : Config) (st : Byte) {h : FrameFields} {p : List Byte} (hl : h.lengthOk p = true) :
    decode c (.frame (frameBytes st h p)) = .ok (instrOfStatus c st h p) := by
  have := decodeFrame_frameBytes c st [] hl
  simp only [List.append_nil] at this
  simp [decode, this]

/-- R8: the five status codes of a configuration the model accepts are distinct. -/
theorem Config.wf_statuses {c : Config} (h : c.wf = true) :
    [c.stNone, c.stCheck, c.stAck, c.stRequest, c.stResponse].Nodup := by
  simp only [Config.wf, Bool.and_eq_true, decide_eq_true_eq] at h
  exact h.1.1.1.1.2

end Sys2Proof
end

