-- ==== Sys2Proof/Laws/Frames.lean ====
section
/-! SUPPORT. What each step leaves alone and what it may do at the ports, one lemma per shared operation. -/
namespace Sys2Proof.Machine

/-- `t` has the responses of `s` and at most one more, never NoAddressAvailable (R101, R264). -/
def MayAnswer (s t : State) : Prop :=
  t.ports.responses = s.ports.responses ∨
    ∃ r, t.ports.responses = s.ports.responses ++ [r] ∧ r.code ≠ .noAddressAvailable

theorem codeOfAnswer_ne (r : TxAnswer) : codeOfAnswer r ≠ .noAddressAvailable := by cases r <;> simp [codeOfAnswer]

/-! ### The sequencer -/

theorem sentOk_ports (cmd : Command) (f : Packet) (s : State) :
    (sentOk cmd f s).ports.txStream = s.ports.txStream ∧ MayAnswer s (sentOk cmd f s) := by
  unfold sentOk
  split
  · split
    · exact ⟨rfl, .inl rfl⟩
    · exact ⟨rfl, .inr ⟨_, rfl, by simp⟩⟩
  · exact ⟨rfl, .inr ⟨_, rfl, by simp⟩⟩

/-- R204: the end of a command's transmission writes the sequencer and at most one response. -/
theorem txDone_frame {cmd : Command} {f : Packet} {r : TxAnswer} {s t : State} (h : txDone cmd f r s = .ok t) :
    SeqFrame s t ∧ t.ports.txStream = s.ports.txStream ∧ MayAnswer s t := by
  unfold txDone at h
  split at h <;> simp only [Except.ok.injEq, reduceCtorEq] at h
  · subst h; exact ⟨.of .., rfl, .inl rfl⟩
  · subst h; exact ⟨.of .., rfl, .inr ⟨_, rfl, codeOfAnswer_ne _⟩⟩
  all_goals
    subst h
    split
    · exact ⟨.of .., rfl, .inr ⟨_, rfl, codeOfAnswer_ne _⟩⟩
    · split
      · exact ⟨.of .., rfl, .inl rfl⟩
      · exact ⟨sentOk_frame .., sentOk_ports ..⟩

/-- R203: SEQ_TX writes `txf` to TX once, and else only the sequencer and at most one response. -/
theorem seqTx_frame {s t : State} (h : seqTx s = .ok t) :
    ∃ f, s.seq.txf = some f ∧ SeqFrame s t ∧
      t.ports.txStream = s.ports.txStream ++ [⟨f.wire, nextTxAnswer s⟩] ∧ MayAnswer s t := by
  obtain ⟨f, h1, h2⟩ := bind_eq_ok.1 h
  rw [need_eq_ok] at h1
  refine ⟨f, h1, ?_⟩
  dsimp only at h2
  split at h2
  · simp only [Except.ok.injEq] at h2; subst h2
    exact ⟨.of .., rfl, .inl rfl⟩
  · split at h2
    · obtain ⟨p, -, h4⟩ := bind_eq_ok.1 h2
      simp only [Except.ok.injEq] at h4; subst h4
      exact ⟨.of .., rfl, .inr ⟨_, rfl, by simp [packetResponse]⟩⟩
    · obtain ⟨cmd, -, h4⟩ := bind_eq_ok.1 h2
      obtain ⟨a, b, c⟩ := txDone_frame h4
      exact ⟨⟨a.cfg, a.conn, a.rsm, a.slot⟩, b, c⟩

theorem onMatch_frame {p : Packet} {s t : State} (h : onMatch p s = .ok t) :
    SeqFrame s t ∧ t.ports.txStream = s.ports.txStream ∧ MayAnswer s t := by
  unfold onMatch at h
  split at h
  · obtain ⟨c, -, h2⟩ := bind_eq_ok.1 h
    obtain ⟨f, -, h3⟩ := bind_eq_ok.1 h2
    simp only [Except.ok.injEq] at h3; subst h3
    obtain ⟨a, b⟩ := sentOk_ports c f { s with seq := { s.seq with got := none } }
    exact ⟨(SeqFrame.of s _ _).trans (sentOk_frame ..), a, b⟩
  · obtain ⟨c, -, h2⟩ := bind_eq_ok.1 h
    split_ifs at h2 <;> (simp only [Except.ok.injEq] at h2; subst h2)
    · exact ⟨.of .., rfl, .inr ⟨_, rfl, by simp⟩⟩
    · exact ⟨.of .., rfl, .inl rfl⟩
    · exact ⟨.of .., rfl, .inr ⟨_, rfl, by simp [packetResponse]⟩⟩

theorem onTimeout_frame {s t : State} (h : onTimeout s = .ok t) :
    SeqFrame s t ∧ t.ports.txStream = s.ports.txStream ∧ MayAnswer s t := by
  unfold onTimeout at h
  split at h
  · split at h
    · obtain ⟨c, -, h2⟩ := bind_eq_ok.1 h
      simp only [Except.ok.injEq] at h2; subst h2
      exact ⟨.of .., rfl, .inl rfl⟩
    · simp only [Except.ok.injEq] at h; subst h
      exact ⟨.of .., rfl, .inr ⟨_, rfl, by simp⟩⟩
  · obtain ⟨c, -, h2⟩ := bind_eq_ok.1 h
    split_ifs at h2 <;> (simp only [Except.ok.injEq] at h2; subst h2)
    · exact ⟨.of .., rfl, .inr ⟨_, rfl, by simp⟩⟩
    · exact ⟨.of .., rfl, .inr ⟨_, rfl, by simp⟩⟩

/-- R205, R174, R175: a poll writes the sequencer and at most one response; the slot it empties at most, and only when
the slot's packet matches the filter. -/
theorem seqPoll_frame {s t : State} (h : seqPoll s = .next t) :
    PollFrame s t ∧ t.ports.txStream = s.ports.txStream ∧ MayAnswer s t ∧
      (t.slot = s.slot ∨ slotMatches s = .ok true) := by
  unfold seqPoll at h
  split at h
  · rw [outcomeOf_eq_next] at h
    obtain ⟨hit, h1, h2⟩ := bind_eq_ok.1 h
    split at h2
    · obtain ⟨⟨p, u⟩, h3, h4⟩ := bind_eq_ok.1 h2
      obtain ⟨hd, h5, h6⟩ := bind_eq_ok.1 h3
      obtain ⟨q, h7, h8⟩ := bind_eq_ok.1 h6
      simp only [Except.ok.injEq, Prod.mk.injEq] at h8
      obtain ⟨rfl, rfl⟩ := h8
      obtain ⟨a, b, c⟩ := onMatch_frame h4
      have hp : s.slot.hasPacket = true := by
        by_contra hn
        simp only [slotMatches, hn] at h1
        simp_all
      exact ⟨⟨a.cfg, a.conn, a.rsm, .inr ⟨hp, a.slot⟩⟩, b, c, .inr (by simp_all)⟩
    · dsimp only at h2
      split at h2
      · obtain ⟨a, b, c⟩ := onTimeout_frame h2
        exact ⟨⟨a.cfg, a.conn, a.rsm, .inl a.slot⟩, b, c, .inl a.slot⟩
      · simp only [Except.ok.injEq] at h2; subst h2
        exact ⟨⟨rfl, rfl, rfl, .inl rfl⟩, rfl, .inl rfl, .inl rfl⟩
  · rw [hold_eq_next] at h; subst h
    exact ⟨⟨rfl, rfl, rfl, .inl rfl⟩, rfl, .inl rfl, .inl rfl⟩

theorem execTxFrame_cases {s t : State} (h : execTxFrame s = .next t) : t = s ∨ seqTx s = .ok t := by
  unfold execTxFrame at h
  split at h
  · exact .inr (outcomeOf_eq_next.1 h)
  · exact .inl ((hold_eq_next s).1 h).symm

theorem execTick_frame {s t : State} (h : execTick s = .next t) : SeqFrame s t ∧ t.ports = s.ports := by
  unfold execTick countTick at h
  split at h
  · rw [outcomeOf_eq_next] at h
    split_ifs at h <;> simp only [Except.ok.injEq] at h <;> subst h <;> exact ⟨.of .., rfl⟩
  · simp only [Host.Outcome.next.injEq] at h; subst h; exact ⟨.refl s, rfl⟩

/-! ### RX and CKA -/

/-- `t` differs from `s` by received bytes: the reassembler, a publish into the empty slot, the RX port at most. -/
structure ReceiveFrame (s t : State) : Prop where
  cfg : t.cfg = s.cfg
  conn : t.conn = s.conn
  seq : t.seq = s.seq
  txStream : t.ports.txStream = s.ports.txStream
  responses : t.ports.responses = s.ports.responses
  slot : t.slot = s.slot ∨ s.slot.hasPacket = false ∧ t.slot.hasPacket = true

theorem ReceiveFrame.refl (s : State) : ReceiveFrame s s := ⟨rfl, rfl, rfl, rfl, rfl, .inl rfl⟩

theorem deliverFrame_frame {bs : List Byte} {s t : State} (h : deliverFrame bs s = .next t) : ReceiveFrame s t := by
  obtain ⟨u, left, h1, rfl⟩ := deliverFrame_eq_next h
  have := deliverBytes_induction (P := ReceiveFrame s) (fun v w b k hv he hw => by
    obtain ⟨x, h2, rfl, hf⟩ := deliverByte_frame hw
    refine ⟨hf.cfg.trans hv.cfg, hf.conn.trans hv.conn, hf.seq.trans hv.seq, ?_, ?_, ?_⟩
    · simp [hf.ports, hv.txStream]
    · simp [hf.ports, hv.responses]
    · rcases hv.slot with a | a <;> rcases hf.slot with b | b <;> simp_all) h1 (.refl s)
  exact ⟨this.cfg, this.conn, this.seq, this.txStream, this.responses, this.slot⟩

theorem execRxByte_frame {e : Bool} {b : Byte} {s t : State} (h : execRxByte e b s = .next t) :
    ReceiveFrame s t := by
  unfold execRxByte at h
  split at h
  · rw [outcomeOf_eq_next] at h
    obtain ⟨⟨u, k⟩, h1, h2⟩ := bind_eq_ok.1 h
    simp only [Except.ok.injEq] at h2; subst h2
    obtain ⟨x, h2, rfl, hf⟩ := deliverByte_frame h1
    exact ⟨hf.cfg, hf.conn, hf.seq, by simp [hf.ports], by simp [hf.ports], hf.slot⟩
  · rw [hold_eq_next] at h; subst h; exact .refl s

/-- Everything CKA_TX (R152) can do. -/
theorem execCkaTx_cases {s t : State} (h : execCkaTx s = .next t) :
    t = s ∨ ∃ hd, s.rsm.ckaPending = true ∧ s.rsm.ckaFrame = some hd ∧
      t = { txWrite hd.bytes s with rsm := { s.rsm with ckaPending := false } } := by
  unfold execCkaTx at h
  split at h
  · rename_i he
    rw [outcomeOf_eq_next] at h
    obtain ⟨hd, h1, h2⟩ := bind_eq_ok.1 h
    simp only [Except.ok.injEq] at h2; subst h2
    exact .inr ⟨hd, by simpa [ckaEnabled] using he, by simpa using h1, rfl⟩
  · exact .inl ((hold_eq_next s).1 h).symm

/-! ### Commands -/

/-- `t` differs from `s` by an issue: the sequencer, the connection, the host port and a response at most. -/
structure IssueFrame (s t : State) : Prop where
  cfg : t.cfg = s.cfg
  rsm : t.rsm = s.rsm
  slot : t.slot = s.slot
  txStream : t.ports.txStream = s.ports.txStream
  responses : MayAnswer s t

theorem issue_frame {op : CmdOp} {f : CmdFields} {data : List Byte} {go : State → State} {s t : State}
    (h : issue op f data go s = .next t) (hgo : ∀ u, IssueFrame u (go u)) : IssueFrame s t := by
  rcases issue_cases h with ⟨-, rfl⟩ | ⟨-, code, hc, rfl⟩ | ⟨-, -, rfl⟩
  · exact ⟨rfl, rfl, rfl, rfl, .inl rfl⟩
  · exact ⟨rfl, rfl, rfl, rfl, .inr ⟨_, rfl, by rcases issueError_codes hc with h | h <;> simp [h]⟩⟩
  · have := hgo { takeHostOffer s with seq := { s.seq with cur := some ⟨op, f, data⟩ } }
    exact ⟨this.cfg, this.rsm, this.slot, this.txStream, this.responses⟩

theorem issueIllegal_frame {s t : State} (h : issueIllegal s = .next t) : IssueFrame s t ∧ t.conn = s.conn := by
  rcases issueIllegal_cases h with ⟨-, rfl⟩ | ⟨-, rfl⟩
  · exact ⟨⟨rfl, rfl, rfl, rfl, .inl rfl⟩, rfl⟩
  · exact ⟨⟨rfl, rfl, rfl, rfl, .inr ⟨_, rfl, by simp⟩⟩, rfl⟩

/-- What an issue does to the connection registers: what its dispatch does, or nothing. -/
theorem issue_conn {op : CmdOp} {f : CmdFields} {data : List Byte} {go : State → State} {s t : State}
    {P : Connection → Connection → Prop} (h : issue op f data go s = .next t) (h0 : P s.conn s.conn)
    (hgo : ∀ u, P u.conn (go u).conn) : P s.conn t.conn := by
  rcases issue_cases h with ⟨-, rfl⟩ | ⟨-, code, hc, rfl⟩ | ⟨-, -, rfl⟩
  · exact h0
  · exact h0
  · exact hgo { takeHostOffer s with seq := { s.seq with cur := some ⟨op, f, data⟩ } }

end Sys2Proof.Machine
end

