-- ==== Sys2Proof/Laws/PerInstr.lean ====
section
/-! SUPPORT. The family PayloadCap: a fact of the syntax of every instruction, one lemma per constructor. -/
namespace Sys2Proof.Laws.PayloadCap

/-- The payload an instruction carries: a command's data or a frame's payload. -/
def payload : Instr → List Byte
  | .send _ data => data
  | .waitForPacket _ data => data
  | .getRequest _ data => data
  | .sendResponse _ data => data
  | .getResponse _ data => data
  | .probe _ data => data
  | .acknowledge _ data => data
  | .setAddress _ data => data
  | .getAddress _ data => data
  | .reserved0 _ data => data
  | .reservedA _ data => data
  | .reservedB _ data => data
  | .reservedC _ data => data
  | .reservedD _ data => data
  | .reservedE _ data => data
  | .reservedF _ data => data
  | .reservedRsv _ _ _ data => data
  | .frameCheck _ p => p
  | .frameAck _ p => p
  | .frameRequest _ p => p
  | .frameResponse _ p => p
  | .frameOtherStatus _ _ p => p
  | .rxByte _ _ => []
  | .txFrame => []
  | .ckaTx => []
  | .tick => []
  | .reset => []

/-- R7, R86, R97: a well-formed instruction carries at most 255 bytes of payload. -/
def Statement (i : Instr) : Prop := ∀ c : Config, i.wf c = true → (payload i).length ≤ 255

theorem command_cap {f : CmdFields} {data : List Byte} (h : f.lengthOk data = true) : data.length ≤ 255 := by
  simp only [CmdFields.lengthOk, beq_iff_eq] at h
  have := f.l.isLt
  omega

theorem frame_cap {h : FrameFields} {p : List Byte} (hl : h.lengthOk p = true) : p.length ≤ 255 := by
  simp only [FrameFields.lengthOk, beq_iff_eq] at hl
  have := h.length.isLt
  omega

theorem send (f : CmdFields) (data : List Byte) : Statement (.send f data) := fun _ => command_cap

theorem waitForPacket (f : CmdFields) (data : List Byte) : Statement (.waitForPacket f data) := fun _ => command_cap

theorem getRequest (f : CmdFields) (data : List Byte) : Statement (.getRequest f data) := fun _ => command_cap

theorem sendResponse (f : CmdFields) (data : List Byte) : Statement (.sendResponse f data) := fun _ => command_cap

theorem getResponse (f : CmdFields) (data : List Byte) : Statement (.getResponse f data) := fun _ => command_cap

theorem probe (f : CmdFields) (data : List Byte) : Statement (.probe f data) := fun _ => command_cap

theorem acknowledge (f : CmdFields) (data : List Byte) : Statement (.acknowledge f data) := fun _ => command_cap

theorem setAddress (f : CmdFields) (data : List Byte) : Statement (.setAddress f data) := fun _ => command_cap

theorem getAddress (f : CmdFields) (data : List Byte) : Statement (.getAddress f data) := fun _ => command_cap

theorem reserved0 (f : CmdFields) (data : List Byte) : Statement (.reserved0 f data) := fun _ => command_cap

theorem reservedA (f : CmdFields) (data : List Byte) : Statement (.reservedA f data) := fun _ => command_cap

theorem reservedB (f : CmdFields) (data : List Byte) : Statement (.reservedB f data) := fun _ => command_cap

theorem reservedC (f : CmdFields) (data : List Byte) : Statement (.reservedC f data) := fun _ => command_cap

theorem reservedD (f : CmdFields) (data : List Byte) : Statement (.reservedD f data) := fun _ => command_cap

theorem reservedE (f : CmdFields) (data : List Byte) : Statement (.reservedE f data) := fun _ => command_cap

theorem reservedF (f : CmdFields) (data : List Byte) : Statement (.reservedF f data) := fun _ => command_cap

theorem reservedRsv (op : BitVec 4) (rsv : BitVec 3) (f : CmdFields) (data : List Byte)
    : Statement (.reservedRsv op rsv f data) := fun _ h => by
  simp only [Instr.wf, Bool.and_eq_true] at h
  exact command_cap h.2

theorem frameCheck (h : FrameFields) (p : List Byte) : Statement (.frameCheck h p) := fun _ => frame_cap

theorem frameAck (h : FrameFields) (p : List Byte) : Statement (.frameAck h p) := fun _ => frame_cap

theorem frameRequest (h : FrameFields) (p : List Byte) : Statement (.frameRequest h p) := fun _ => frame_cap

theorem frameResponse (h : FrameFields) (p : List Byte) : Statement (.frameResponse h p) := fun _ => frame_cap

theorem frameOtherStatus (st : Byte) (h : FrameFields) (p : List Byte)
    : Statement (.frameOtherStatus st h p) := fun _ hl => by
  simp only [Instr.wf, Bool.and_eq_true] at hl
  exact frame_cap hl.2

theorem rxByte (e : Bool) (b : Byte) : Statement (.rxByte e b) := fun _ _ => Nat.zero_le _

theorem txFrame : Statement (.txFrame) := fun _ _ => Nat.zero_le _

theorem ckaTx : Statement (.ckaTx) := fun _ _ => Nat.zero_le _

theorem tick : Statement (.tick) := fun _ _ => Nat.zero_le _

theorem reset : Statement (.reset) := fun _ _ => Nat.zero_le _

end Sys2Proof.Laws.PayloadCap
end

