-- ==== Sys2Proof/Laws/RxInvariant.lean ====
section
/-! SUPPORT. The RX step is defined on every state that meets its part of the invariant (R44), and keeps it. -/
namespace Sys2Proof.Machine

theorem checkAckHeader_ok (c : Config) (own : Byte) (h : Header) :
    frameOk c ⟨checkAckHeader c own h, []⟩ = true := by
  simp [frameOk, checkAckHeader, sealHeader, checksumOk, checksum, Config.wireStatus]

/-- What the buffers hold once `n` bytes of a frame are in: the invariant without the registers a step rewrites. -/
structure Reassembler.Holds (c : Config) (n : Nat) (r : Reassembler) : Prop where
  hdrBuf_wf : r.hdrBuf.wf 7 = true
  payBuf_wf : r.payBuf.wf 255 = true
  header_stored : ∀ i < n, i < 7 → (r.hdrBuf.read i).isSome = true
  payload_stored : ∀ j < n - 7, (r.payBuf.read j).isSome = true
  cka_frame : r.ckaPending = true → ∃ h, r.ckaFrame = some h ∧ frameOk c ⟨h, []⟩ = true

theorem Reassembler.Inv.holds {c : Config} {r : Reassembler} (h : r.Inv c) : r.Holds c r.bytesRead :=
  ⟨h.hdrBuf_wf, h.payBuf_wf, h.header_stored, h.payload_stored, h.cka_frame⟩

/-- R148: between frames the invariant asks for the buffers alone. -/
theorem toIdle_inv {c : Config} {n : Nat} {s : State} (h : s.rsm.Holds c n) : (toIdle s).rsm.Inv c where
  hdrBuf_wf := h.hdrBuf_wf
  payBuf_wf := h.payBuf_wf
  position := by simp
  header_stored := by simp
  idle_valid := by simp
  header_passed := by simp
  payload_stored := by simp
  cka_between_frames := by simp
  cka_frame := h.cka_frame

/-- R170: a published slot meets its invariant. -/
theorem publish_inv {c : Config} {s : State} {h : Header} {data : List Byte} (hl : data.length = h.length.toNat)
    (hk : checksumOk h = true) (hst : h.status ≠ c.stCheck) : (publish ⟨h, data⟩ s).slot.Inv c where
  hdr_wf := Memory.wf_fromBytes (by simp)
  pay_wf := Memory.wf_fromBytes (by simp only [hl]; have := h.length.isLt; omega)
  full := by
    intro _
    refine ⟨h, data, by simp, by simp [← hl], hk, hst, fun j hj => ?_⟩
    simp only [publish_slot, Memory.read_fromBytes_zero]
    exact List.getElem?_eq_none (by omega)

/-- R147: with the whole frame in, `complete()` answers and leaves the invariant. -/
theorem complete_inv {s : State} {h : Header} (hr : s.rsm.Holds s.cfg (7 + h.length.toNat))
    (hs : s.slot.Inv s.cfg) (hh : s.rsm.hdrBuf.header? = some h) (hk : checksumOk h = true) :
    ∃ t, complete s = .ok t ∧ t.rsm.Inv s.cfg ∧ t.slot.Inv s.cfg := by
  obtain ⟨data, hd⟩ := Memory.readRange_isSome (m := s.rsm.payBuf) (a := 0) (n := h.length.toNat)
    (fun j hj => by simpa using hr.payload_stored j (by omega))
  by_cases hv : s.rsm.frameValid = true
  · by_cases hc : h.status = s.cfg.stCheck
    · refine ⟨toIdle (queueCheckAck h s), by simp [complete, hv, hh, hc], ?_, hs⟩
      refine toIdle_inv (n := 0) ⟨hr.hdrBuf_wf, hr.payBuf_wf, by simp, by simp, fun _ => ?_⟩
      exact ⟨_, rfl, checkAckHeader_ok ..⟩
    · by_cases hp : s.slot.hasPacket = true
      · exact ⟨toIdle s, by simp [complete, hv, hh, hc, hp], toIdle_inv hr, hs⟩
      · refine ⟨toIdle (publish ⟨h, data⟩ s), by simp [complete, hv, hh, hc, hp, readPacket, hd], ?_, ?_⟩
        · exact toIdle_inv (s := publish ⟨h, data⟩ s) hr
        · exact publish_inv (s := s) (Memory.readRange_length hd) hk hc
  · exact ⟨toIdle s, by simp [complete, hv], toIdle_inv hr, hs⟩

/-- R144, R145: with seven bytes in, the end of the header answers and leaves the invariant. -/
theorem finishHeader_inv {s : State} (hr : s.rsm.Holds s.cfg 7) (hs : s.slot.Inv s.cfg)
    (h7 : s.rsm.bytesRead = 7) (hp : s.rsm.ckaPending = false) :
    ∃ t k, finishHeader s = .ok (t, k) ∧ t.rsm.Inv s.cfg ∧ t.slot.Inv s.cfg := by
  obtain ⟨h, hh⟩ := Memory.header?_isSome (m := s.rsm.hdrBuf) fun j hj => hr.header_stored j hj hj
  by_cases hk : checksumOk h = true
  · by_cases hv : s.rsm.frameValid = true
    · by_cases hl : h.length = 0
      · obtain ⟨t, h1, h2, h3⟩ := complete_inv (h := h) (by simpa [hl] using hr) hs hh hk
        exact ⟨t, 0, by simp [finishHeader, hh, hk, hv, hl, h1], h2, h3⟩
      · refine ⟨s, 0, by simp only [finishHeader, hh, need_some, ok_bind, hk, hv, hl, if_true, if_false], ?_, hs⟩
        have : h.length.toNat ≠ 0 := fun h0 => hl (BitVec.eq_of_toNat_eq h0)
        exact
          { hdrBuf_wf := hr.hdrBuf_wf, payBuf_wf := hr.payBuf_wf, position := by omega
            header_stored := fun i hi h7 => hr.header_stored i h7 h7
            idle_valid := fun _ => hv
            header_passed := fun _ => ⟨h, hh, hk, by omega⟩
            payload_stored := fun j hj => by omega
            cka_between_frames := by simp [hp]
            cka_frame := hr.cka_frame }
    · exact ⟨toIdle s, h.length, by simp [finishHeader, hh, hk, hv], toIdle_inv hr, hs⟩
  · exact ⟨toIdle (markInvalid s), h.length, by simp [finishHeader, hh, hk],
      toIdle_inv (s := markInvalid s) (n := 7)
        ⟨hr.hdrBuf_wf, hr.payBuf_wf, hr.header_stored, hr.payload_stored, hr.cka_frame⟩, hs⟩

theorem Memory.isSome_read_write {m : Memory} {a k : Nat} {b : Byte} (h : k ≠ a → (m.read k).isSome = true) :
    ((m.write a b).read k).isSome = true := by
  rw [Memory.read_write]; split
  · rfl
  · exact h (Ne.symm ‹_›)

/-- R141, R143: a header byte is stored, and the step answers and leaves the invariant. -/
theorem headerByte_inv {s : State} (b : Byte) (hr : s.rsm.Holds s.cfg s.rsm.bytesRead) (hs : s.slot.Inv s.cfg)
    (hn : s.rsm.bytesRead < 7) (hp : s.rsm.ckaPending = false) :
    ∃ t k, headerByte b s = .ok (t, k) ∧ t.rsm.Inv s.cfg ∧ t.slot.Inv s.cfg := by
  have hw : (writeByte .hdrBuf 7 s.rsm.hdrBuf s.rsm.bytesRead b) = .ok (s.rsm.hdrBuf.write s.rsm.bytesRead b) := by
    simp [hn]
  have hst : ∀ i, i < s.rsm.bytesRead + 1 → i < 7 →
      ((s.rsm.hdrBuf.write s.rsm.bytesRead b).read i).isSome = true := fun i hi h7 =>
    Memory.isSome_read_write fun hne => hr.header_stored i (by omega) h7
  have hwf := Memory.wf_write (b := b) hn hr.hdrBuf_wf
  have mid : ∀ v, s.rsm.bytesRead + 1 < 7 →
      ({ s.rsm with hdrBuf := s.rsm.hdrBuf.write s.rsm.bytesRead b, bytesRead := s.rsm.bytesRead + 1,
                    frameValid := v } : Reassembler).Inv s.cfg := fun v hlt =>
    { hdrBuf_wf := hwf, payBuf_wf := hr.payBuf_wf, position := by dsimp only; omega
      header_stored := hst
      idle_valid := by simp
      header_passed := fun h => by dsimp only at h; omega
      payload_stored := fun j hj => by dsimp only at hj; omega
      cka_between_frames := by simp [hp]
      cka_frame := hr.cka_frame }
  by_cases h2 : s.rsm.bytesRead + 1 = 2
  · obtain ⟨d, hd⟩ := Option.isSome_iff_exists.1 (hst 0 (by omega) (by omega))
    refine ⟨{ s with rsm := { s.rsm with
        hdrBuf := s.rsm.hdrBuf.write s.rsm.bytesRead b, bytesRead := s.rsm.bytesRead + 1
        frameValid := s.rsm.frameValid && destOk s.cfg s.conn.ownAddr d } }, 0, ?_, mid _ (by omega), hs⟩
    by_cases hok : destOk s.cfg s.conn.ownAddr d = true <;>
      simp [headerByte, hw, h2, checkDestination, hd, hok, markInvalid]
  · by_cases h7 : s.rsm.bytesRead + 1 = 7
    · obtain ⟨t, k, h1, h3, h4⟩ := finishHeader_inv
        (s := { s with rsm := { s.rsm with
          hdrBuf := s.rsm.hdrBuf.write s.rsm.bytesRead b, bytesRead := s.rsm.bytesRead + 1 } })
        ⟨hwf, hr.payBuf_wf, fun i hi _ => hst i (by omega) hi, by simp, hr.cka_frame⟩ hs h7 hp
      refine ⟨t, k, ?_, h3, h4⟩
      simp only [headerByte, hw, ok_bind, h2, if_false]
      rw [if_pos h7]; exact h1
    · refine ⟨{ s with rsm := { s.rsm with
          hdrBuf := s.rsm.hdrBuf.write s.rsm.bytesRead b, bytesRead := s.rsm.bytesRead + 1 } }, 0, ?_,
        mid s.rsm.frameValid (by omega), hs⟩
      simp only [headerByte, hw, ok_bind, h2, h7, if_false]

/-- R146, R147: a payload byte is stored, and the step answers and leaves the invariant. -/
theorem payloadByte_inv {s : State} {h : Header} (b : Byte) (hr : s.rsm.Holds s.cfg s.rsm.bytesRead)
    (hs : s.slot.Inv s.cfg) (hn : 7 ≤ s.rsm.bytesRead) (hp : s.rsm.ckaPending = false)
    (hh : s.rsm.hdrBuf.header? = some h) (hk : checksumOk h = true) (hl : s.rsm.bytesRead < 7 + h.length.toNat) :
    ∃ t k, payloadByte b s = .ok (t, k) ∧ t.rsm.Inv s.cfg ∧ t.slot.Inv s.cfg := by
  have h255 := h.length.isLt
  have hlt : s.rsm.bytesRead - 7 < 255 := by omega
  have hw : (writeByte .payBuf 255 s.rsm.payBuf (s.rsm.bytesRead - 7) b) =
      .ok (s.rsm.payBuf.write (s.rsm.bytesRead - 7) b) := by simp [hlt]
  have hst : ∀ j, j < s.rsm.bytesRead + 1 - 7 →
      ((s.rsm.payBuf.write (s.rsm.bytesRead - 7) b).read j).isSome = true := fun j hj =>
    Memory.isSome_read_write fun hne => hr.payload_stored j (by omega)
  have hwf := Memory.wf_write (b := b) hlt hr.payBuf_wf
  have h5 := Memory.header?_length hh
  by_cases hend : s.rsm.bytesRead + 1 = 7 + h.length.toNat
  · obtain ⟨t, h1, h2, h3⟩ := complete_inv (h := h)
      (s := { s with rsm := { s.rsm with
        payBuf := s.rsm.payBuf.write (s.rsm.bytesRead - 7) b, bytesRead := s.rsm.bytesRead + 1 } })
      ⟨hr.hdrBuf_wf, hwf, fun i hi h7 => hr.header_stored i (by omega) h7, fun j hj => hst j (by omega),
        hr.cka_frame⟩ hs hh hk
    refine ⟨t, 0, ?_, h2, h3⟩
    simp only [payloadByte, hw, ok_bind, h5, need_some]
    rw [if_pos hend, h1]; rfl
  · refine ⟨{ s with rsm := { s.rsm with
        payBuf := s.rsm.payBuf.write (s.rsm.bytesRead - 7) b, bytesRead := s.rsm.bytesRead + 1 } }, 0,
      by simp only [payloadByte, hw, ok_bind, h5, need_some]; rw [if_neg hend], ?_, hs⟩
    exact
      { hdrBuf_wf := hr.hdrBuf_wf, payBuf_wf := hwf, position := by dsimp only; omega
        header_stored := fun i hi h7 => hr.header_stored i (by omega) h7
        idle_valid := by simp
        header_passed := fun _ => ⟨h, hh, hk, by dsimp only; omega⟩
        payload_stored := hst
        cka_between_frames := by simp [hp]
        cka_frame := hr.cka_frame }

/-- R140: from a state that meets the reassembler's and the slot's invariants, RX_BYTE answers and keeps both. -/
theorem rxStep_inv {s : State} (e : Bool) (b : Byte) (hr : s.rsm.Inv s.cfg) (hs : s.slot.Inv s.cfg)
    (hp : s.rsm.ckaPending = false) :
    ∃ t k, rxStep e b s = .ok (t, k) ∧ t.rsm.Inv s.cfg ∧ t.slot.Inv s.cfg := by
  have go : ∀ v, ∃ t k,
      (if s.rsm.bytesRead < 7 then headerByte b { s with rsm := { s.rsm with frameValid := v } }
        else payloadByte b { s with rsm := { s.rsm with frameValid := v } }) = .ok (t, k) ∧
      t.rsm.Inv s.cfg ∧ t.slot.Inv s.cfg := by
    intro v
    have hh : ({ s.rsm with frameValid := v } : Reassembler).Holds s.cfg s.rsm.bytesRead :=
      ⟨hr.hdrBuf_wf, hr.payBuf_wf, hr.header_stored, hr.payload_stored, hr.cka_frame⟩
    split
    · exact headerByte_inv (s := { s with rsm := { s.rsm with frameValid := v } }) b hh hs ‹_› hp
    · obtain ⟨h, h1, h2, h3⟩ := hr.header_passed (by omega)
      exact payloadByte_inv (s := { s with rsm := { s.rsm with frameValid := v } }) b hh hs (by simp only; omega) hp
        h1 h2 h3
  by_cases he : (e && s.cfg.priorErrorInvalidates) = true
  · simpa [rxStep, he, markInvalid] using go false
  · simpa [rxStep, he] using go s.rsm.frameValid

end Sys2Proof.Machine
end

