-- ==== Sys2Proof/Laws/Step.lean ====
section
/-! SUPPORT. What a step runs: the instruction a turn fetches is well-formed, and which turn fetched it. -/
namespace Sys2Proof

theorem instrOfOp_wf (c : Config) (op : BitVec 4) {f : CmdFields} {data : List Byte} (h : f.lengthOk data = true) :
    (instrOfOp op f data).wf c = true := by
  have key : ∀ k : Fin 16, (instrOfOp (BitVec.ofFin k) f data).wf c = true := by
    intro k
    fin_cases k <;> exact h
  exact key op.toFin

/-- What a command word decodes to is well-formed (R98, R99). -/
theorem decodeCommand_wf (c : Config) {cw : CmdBits} {data : List Byte} {i : Instr}
    (h : decodeCommand cw data = .ok i) : i.wf c = true := by
  unfold decodeCommand at h
  split_ifs at h with h1 h2
  · have : cwRsv cw ≠ 0 := h2
    simp only [Bool.not_eq_false] at h1
    simp only [Except.ok.injEq] at h; subst h
    simp only [Instr.wf, h1, bne_iff_ne, Bool.and_true]; exact this
  · simp only [Bool.not_eq_false] at h1
    simp only [Except.ok.injEq] at h; subst h
    exact instrOfOp_wf c _ h1

/-- What a byte stream's first frame decodes to is a well-formed frame row (R89, R108). -/
theorem decodeFrame_wf {c : Config} {bs rest : List Byte} {i : Instr} (h : decodeFrame c bs = .ok (i, rest)) :
    i.wf c = true ∧ ((∃ h p, i = .frameCheck h p ∨ i = .frameAck h p ∨ i = .frameRequest h p ∨
      i = .frameResponse h p) ∨ ∃ st h p, i = .frameOtherStatus st h p) := by
  unfold decodeFrame at h
  split at h
  · rename_i d u st cmd i l k rest
    split at h
    · simp at h
    · simp only [Except.ok.injEq, Prod.mk.injEq] at h
      obtain ⟨rfl, -⟩ := h
      have : FrameFields.lengthOk ⟨d, u, cmd, i, l, k⟩ (rest.take l.toNat) = true := by
        simp [FrameFields.lengthOk]; omega
      simp only [instrOfStatus]
      split_ifs <;> simp_all [Instr.wf, Config.wireStatus]
  · simp at h

namespace Machine

/-- Every instruction a turn runs is well-formed. -/
theorem fetch_wf {t : Turn} {s : State} {i : Instr} (h : fetch t s = .instr i) : i.wf s.cfg = true := by
  cases t <;> simp only [fetch] at h
  case frame =>
    split at h <;> simp only [Fetched.instr.injEq, reduceCtorEq] at h
    subst h
    exact (decodeFrame_wf ‹_›).1
  case host =>
    split at h <;> try simp at h
    split at h <;> simp only [Fetched.instr.injEq, reduceCtorEq] at h
    subst h
    exact decodeCommand_wf _ ‹_›
  case rx =>
    split at h <;> try simp at h
    simp [decode] at h; subst h; rfl
  case drop => split at h <;> simp at h
  case seqPoll => simp at h
  all_goals
    simp only [Fetched.instr.injEq] at h; subst h; rfl

/-- The only refusal of a fetch is the one of R98. -/
theorem fetch_refuse {t : Turn} {s : State} {r : Refusal} (h : fetch t s = .refuse r) :
    r = .payloadLengthMismatch := by
  cases t <;> simp only [fetch] at h <;> (repeat' split at h) <;> simp_all

/-- A run of bytes answers on a state that meets the reassembler's and the slot's invariants, and keeps them. -/
theorem deliverBytes_inv (bs : List Byte) (n : Nat) (s : State) (h1 : s.rsm.Inv s.cfg) (h2 : s.slot.Inv s.cfg) :
    ∃ t left, deliverBytes bs n s = .ok (t, left) ∧ t.cfg = s.cfg ∧ t.conn = s.conn ∧ t.seq = s.seq ∧
      t.rsm.Inv s.cfg ∧ t.slot.Inv s.cfg := by
  induction bs generalizing n s with
  | nil => exact ⟨s, [], rfl, rfl, rfl, rfl, h1, h2⟩
  | cons b bs ih =>
    cases n with
    | succ n => exact ih n s h1 h2
    | zero =>
      simp only [deliverBytes]
      split
      · rename_i he
        obtain ⟨t, k, h3, h4, h5⟩ := rxStep_inv false b h1 h2 (by simpa [rxEnabled] using he)
        have hf := rxStep_frame h3
        have : deliverByte false b s = .ok (answerSkip k t, k) := by simp [deliverByte, h3]
        rw [this]
        obtain ⟨u, left, h6, h7, h8, h9, h10, h11⟩ := ih k.toNat (answerSkip k t) (by simpa [hf.cfg] using h4)
          (by simpa [hf.cfg] using h5)
        exact ⟨u, left, h6, h7.trans hf.cfg, h8.trans hf.conn, h9.trans hf.seq, by simpa [hf.cfg] using h10,
          by simpa [hf.cfg] using h11⟩
      · exact ⟨s, b :: bs, rfl, rfl, rfl, rfl, h1, h2⟩

/-- Everything a step can do. -/
theorem step_cases {s t : State} (h : step s = .next t) :
    (∃ i, fetch (nextTurn s) (takeTurn s) = .instr i ∧ exec i (takeTurn s) = .next t) ∨
    (nextTurn s = .seqPoll ∧ seqPoll (takeTurn s) = .next t) ∨
    (nextTurn s = .drop ∧ t = takeRx 1 (takeTurn s)) ∨ t = takeTurn s := by
  unfold step at h
  split at h
  · unfold runTurn at h
    split at h
    · exact .inl ⟨_, ‹_›, h⟩
    · rename_i hf
      refine .inr (.inl ⟨?_, h⟩)
      revert hf; generalize nextTurn s = u; intro hf
      cases u <;> simp only [fetch] at hf <;> (repeat' split at hf) <;> simp_all
    · rename_i hf
      refine .inr (.inr (.inl ⟨?_, by simpa using h.symm⟩))
      revert hf; generalize nextTurn s = u; intro hf
      cases u <;> simp only [fetch] at hf <;> (repeat' split at hf) <;> simp_all
    · exact .inr (.inr (.inr ((hold_eq_next _).1 h).symm))
    · simp at h
  · simp at h

/-- Runs compose. -/
theorem runSteps_add (a b : Nat) (s t : State) (h : runSteps a s = .next t) :
    runSteps (a + b) s = runSteps b t := by
  induction a generalizing s with
  | zero => simp [runSteps] at h; simp [h]
  | succ a ih =>
    rw [show a + 1 + b = (a + b) + 1 by omega]
    simp only [runSteps] at h ⊢
    cases hs : step s with
    | next u => rw [hs] at h; exact ih u h
    | fault f => rw [hs] at h; simp at h
    | refused r => rw [hs] at h; simp at h

/-- The step of a poll that finds the slot empty (R205). -/
theorem step_poll_empty (s : State) (rest : List Turn) (hw : s.cfg.wf = true)
    (hsch : s.ports.schedule = .seqPoll :: rest) (hd : s.seq.pollDue = true) (hp : s.seq.phase.waits = true)
    (hs : s.slot.hasPacket = false) :
    step s = outcomeOf
      (let u := { takeTurn s with seq := { s.seq with pollDue := false } }
      if (!s.seq.forever && s.seq.remaining == 0) = true then onTimeout u else .ok u) := by
  simp only [step, hw, if_true, runTurn, nextTurn_scheduled s hsch, fetch, seqPoll, seqPollEnabled, takeTurn_seq,
    hd, hp, Bool.and_self, pollStep, slotMatches, takeTurn_slot, hs]
  rfl

/-- The step of a tick that counts (R206). -/
theorem step_tick_counts (s : State) (rest : List Turn) (hw : s.cfg.wf = true)
    (hsch : s.ports.schedule = .tick :: rest) (hd : s.seq.pollDue = false) (hp : s.seq.phase.waits = true)
    (hf : s.seq.forever = false) (hr : s.seq.remaining ≠ 0) :
    step s = .next { takeTurn s with seq := { s.seq with remaining := s.seq.remaining - 1, pollDue := true } } := by
  simp only [step, hw, if_true, runTurn, nextTurn_scheduled s hsch, fetch, decodeEvent, exec, execTick, takeTurn_seq,
    hd, hp, countTick, hf, hr]
  rfl

/-- What the environment adds breaks no part of the invariant, which speaks of the block alone. -/
theorem supply_inv {s : State} (u : Supply) (h : s.Inv) : (supply u s).Inv := ⟨h.cfg_wf, h.rsm, h.slot, h.seq⟩

end Machine
end Sys2Proof
end

