-- ==== Sys2Proof/Tests/Slice0.lean ====
section
/-! SUPPORT. Tests: the ill-formed terms WellFormed refuses, words written out from the spec's encodings, single steps
from the vectors of 95_test_vectors.md, and a witness for the hypotheses of every obligation. -/
namespace Sys2Proof.Tests
open Sys2Proof.Machine

/-! ### Helpers -/

/-- The next state, where there is one. -/
def after (o : Host.Outcome State Fault Refusal) : Option State :=
  match o with
  | .next s => some s
  | .fault _ => none
  | .refused _ => none

/-- A claimed node with nothing at its ports (the start states of 95_test_vectors.md). -/
def node (own id : Byte) : State := { State.reset with conn := ⟨own, true, id⟩ }

/-- `s` with its sequencer replaced. -/
def withSeq (q : Sequencer) (s : State) : State := { s with seq := q }

/-- `s` with the packet `p` in the slot. -/
def withPacket (p : Packet) (s : State) : State := publish p s

/-- `s` with the turns `ts` next. -/
def withTurns (ts : List Turn) (s : State) : State := { s with ports := { s.ports with schedule := ts } }

/-- `s` with the TX answers `rs` next. -/
def withAnswers (rs : List TxAnswer) (s : State) : State := { s with ports := { s.ports with txAnswers := rs } }

/-- `s` with the words `ws` on its RX port. -/
def withRx (ws : List RxBits) (s : State) : State := { s with ports := { s.ports with rxPort := ws } }

/-- `s` with one host offer. -/
def withHost (cw : CmdBits) (data : List Byte) (s : State) : State :=
  { s with ports := { s.ports with hostPort := [⟨cw, data⟩] } }

/-- `s` after `n` bytes of a frame whose header bytes are `bs`, valid so far. -/
def midFrame (n : Nat) (bs pay : List Byte) (s : State) : State :=
  { s with rsm := { s.rsm with
      bytesRead := n, hdrBuf := Memory.fromBytes 0 bs, payBuf := Memory.fromBytes 0 pay } }

/-- The fields of a command with everything 0. -/
def fields0 : CmdFields := ⟨false, 0, 0, 0, 0, 0, 0⟩

/-- The Request of the SEND example (R210): `0A 05 03 10 01 02 1F | AA BB`. -/
def request : Packet := ⟨⟨0x0A, 0x05, 0x03, 0x10, 0x01, 0x02, 0x1F⟩, [0xAA, 0xBB]⟩

/-- Its Acknowledge: `05 0A 02 00 01 00 0C`. -/
def ack : Packet := ⟨⟨0x05, 0x0A, 0x02, 0x00, 0x01, 0x00, 0x0C⟩, []⟩

/-- The fields of a Request's frame row. -/
def requestFields : FrameFields := ⟨0x0A, 0x05, 0x10, 0x01, 0x02, 0x1F⟩

/-- The Check of V-RX-6: `0A 05 01 00 03 00 0D`. -/
def checkFields : FrameFields := ⟨0x0A, 0x05, 0x00, 0x03, 0x00, 0x0D⟩

/-- The sequencer of a command with op `op` in phase `ph`, with frame `p` and filter `g`. -/
def busy (ph : SeqPhase) (op : CmdOp) (p : Packet) (g : Filter) : Sequencer :=
  { Sequencer.atReset with
    phase := ph, cur := some ⟨op, fields0, []⟩, txf := some p, sendTry := 1, flt := some g, pollDue := true }

/-- The filter of the Acknowledge of `request`. -/
def ackOf : Filter := ⟨0x0A, 0x02, 0x00, 0x01, false⟩

/-- The filter that matches every packet. -/
def anyFilter : Filter := ⟨0x00, 0x00, 0x00, 0x00, true⟩

/-- The node of the SEND vectors, its Request ready for TX. -/
def sending : State := withSeq (busy .transmit .send request ackOf) (node 0x05 0x01)

/-- A node in a packet wait of op `op`, its first poll owed. -/
def waitingNode (op : CmdOp) : State := withSeq (busy .pktWait op request anyFilter) (node 0x0A 0x00)

/-- A node with a Check acknowledgement pending (V-RX-6). -/
def pendingNode : State :=
  { node 0x0A 0x00 with rsm := { Reassembler.atReset with
      ckaPending := true, ckaFrame := some ⟨0x05, 0x0A, 0x02, 0x00, 0x03, 0x00, 0x0E⟩ } }

/-! ### WellFormed refuses an ill-formed term of each check -/

theorem test_wf_command_length : Instr.wf .default (.send { fields0 with l := 2 } [0xAA]) = false := by decide
theorem test_wf_unused_length : Instr.wf .default (.getAddress fields0 [0xAA]) = false := by decide
theorem test_wf_rsv_zero : Instr.wf .default (.reservedRsv 1 0 fields0 []) = false := by decide
theorem test_wf_rsv_length : Instr.wf .default (.reservedRsv 1 1 fields0 [0xAA]) = false := by decide
theorem test_wf_frame_length : Instr.wf .default (.frameRequest requestFields [0xAA]) = false := by decide
theorem test_wf_check_length : Instr.wf .default (.frameCheck checkFields [0xAA]) = false := by decide
theorem test_wf_other_status_is_a_wire_status :
    Instr.wf .default (.frameOtherStatus 0x03 requestFields [0xAA, 0xBB]) = false := by decide
theorem test_wf_other_status_length : Instr.wf .default (.frameOtherStatus 0x09 requestFields []) = false := by decide

theorem test_cfg_default : Config.default.wf = true := by decide
theorem test_cfg_sentinels_distinct : ({ Config.default with addrNone := 0xFF } : Config).wf = false := by decide
theorem test_cfg_range_order : ({ Config.default with addrMin := 0x10, addrMax := 0x0F } : Config).wf = false := by
  decide
theorem test_cfg_none_not_claimable : ({ Config.default with addrNone := 0x01 } : Config).wf = false := by decide
theorem test_cfg_broadcast_not_claimable : ({ Config.default with addrBroadcast := 0xFE } : Config).wf = false := by
  decide
theorem test_cfg_statuses_distinct : ({ Config.default with stAck := 0x01 } : Config).wf = false := by decide
theorem test_cfg_tx_attempts : ({ Config.default with maxTxAttempts := 0 } : Config).wf = false := by decide
theorem test_cfg_send_attempts : ({ Config.default with maxSendAttempts := 0 } : Config).wf = false := by decide
theorem test_cfg_ack_timeout : ({ Config.default with ackTimeout := 32768 } : Config).wf = false := by decide
theorem test_cfg_check_timeout : ({ Config.default with checkTimeout := 32768 } : Config).wf = false := by decide

/-! ### Decoding: every constructor by a word written out from the spec's encoding -/

-- V-ENC-1 to V-ENC-16 of 95_test_vectors.md section 2.4 (R93, R94)
theorem test_decode_send : decode .default (.host 0x100A031000020000 [0xAA, 0xBB]) =
    .ok (.send ⟨false, 0x0A, 0x03, 0x10, 0, 2, 0⟩ [0xAA, 0xBB]) := by decide
theorem test_decode_waitForPacket : decode .default (.host 0x2005020001000002 []) =
    .ok (.waitForPacket ⟨false, 0x05, 0x02, 0, 0x01, 0, 2⟩ []) := by decide
theorem test_decode_waitForPacket_any : decode .default (.host 0x210003000000FFFF []) =
    .ok (.waitForPacket ⟨true, 0, 0x03, 0, 0, 0, 0xFFFF⟩ []) := by decide
theorem test_decode_getRequest : decode .default (.host 0x3000000000000005 []) =
    .ok (.getRequest ⟨false, 0, 0, 0, 0, 0, 5⟩ []) := by decide
theorem test_decode_sendResponse : decode .default (.host 0x4005001000010000 [0xCC]) =
    .ok (.sendResponse ⟨false, 0x05, 0, 0x10, 0, 1, 0⟩ [0xCC]) := by decide
theorem test_decode_getResponse : decode .default (.host 0x500A001000020014 [0xAA, 0xBB]) =
    .ok (.getResponse ⟨false, 0x0A, 0, 0x10, 0, 2, 20⟩ [0xAA, 0xBB]) := by decide
theorem test_decode_probe : decode .default (.host 0x600A000000000000 []) =
    .ok (.probe ⟨false, 0x0A, 0, 0, 0, 0, 0⟩ []) := by decide
theorem test_decode_acknowledge : decode .default (.host 0x7005000001000000 []) =
    .ok (.acknowledge ⟨false, 0x05, 0, 0, 0x01, 0, 0⟩ []) := by decide
theorem test_decode_setAddress : decode .default (.host 0x8002000000000000 []) =
    .ok (.setAddress ⟨false, 0x02, 0, 0, 0, 0, 0⟩ []) := by decide
theorem test_decode_getAddress : decode .default (.host 0x9000000000000000 []) =
    .ok (.getAddress fields0 []) := by decide
theorem test_decode_reserved0 : decode .default (.host 0x0000000000000000 []) = .ok (.reserved0 fields0 []) := by
  decide
theorem test_decode_reservedA : decode .default (.host 0xA000000000000000 []) = .ok (.reservedA fields0 []) := by
  decide
theorem test_decode_reservedB : decode .default (.host 0xB000000000000000 []) = .ok (.reservedB fields0 []) := by
  decide
theorem test_decode_reservedC : decode .default (.host 0xC000000000000000 []) = .ok (.reservedC fields0 []) := by
  decide
theorem test_decode_reservedD : decode .default (.host 0xD000000000000000 []) = .ok (.reservedD fields0 []) := by
  decide
theorem test_decode_reservedE : decode .default (.host 0xE000000000000000 []) = .ok (.reservedE fields0 []) := by
  decide
theorem test_decode_reservedF : decode .default (.host 0xF000000000000000 []) = .ok (.reservedF fields0 []) := by
  decide
theorem test_decode_reservedRsv : decode .default (.host 0x120A030000000000 []) =
    .ok (.reservedRsv 1 1 ⟨false, 0x0A, 0x03, 0, 0, 0, 0⟩ []) := by decide
-- R98: `|data| != l` is refused
theorem test_decode_length_refused :
    decode .default (.host 0x100A031000020000 [0xAA]) = .error .payloadLengthMismatch := by decide

-- the frames of V-RX-6, R216, V-RX-1, V-SEND-10 and V-RX-7 (R80, R91)
theorem test_decode_frameCheck : decode .default (.frame [0x0A, 0x05, 0x01, 0x00, 0x03, 0x00, 0x0D]) =
    .ok (.frameCheck ⟨0x0A, 0x05, 0x00, 0x03, 0x00, 0x0D⟩ []) := by decide
theorem test_decode_frameAck : decode .default (.frame [0x05, 0x0A, 0x02, 0x00, 0x01, 0x00, 0x0C]) =
    .ok (.frameAck ⟨0x05, 0x0A, 0x00, 0x01, 0x00, 0x0C⟩ []) := by decide
theorem test_decode_frameRequest :
    decode .default (.frame [0x0A, 0x05, 0x03, 0x10, 0x01, 0x02, 0x1F, 0xAA, 0xBB]) =
      .ok (.frameRequest ⟨0x0A, 0x05, 0x10, 0x01, 0x02, 0x1F⟩ [0xAA, 0xBB]) := by decide
theorem test_decode_frameResponse : decode .default (.frame [0x05, 0x0A, 0x04, 0x10, 0x01, 0x01, 0x1B, 0xCC]) =
    .ok (.frameResponse ⟨0x05, 0x0A, 0x10, 0x01, 0x01, 0x1B⟩ [0xCC]) := by decide
theorem test_decode_frameOtherStatus : decode .default (.frame [0x0A, 0x05, 0x09, 0x00, 0x04, 0x00, 0x02]) =
    .ok (.frameOtherStatus 0x09 ⟨0x0A, 0x05, 0x00, 0x04, 0x00, 0x02⟩ []) := by decide
theorem test_decode_frame_truncated : decode .default (.frame [0x0A, 0x05, 0x03]) = .error .truncatedHeader := by
  decide
theorem test_decode_frame_short_payload :
    decode .default (.frame [0x0A, 0x05, 0x03, 0x10, 0x01, 0x02, 0x1F, 0xAA]) = .error .truncatedPayload := by decide
theorem test_decode_frame_long :
    decode .default (.frame [0x0A, 0x05, 0x01, 0x00, 0x03, 0x00, 0x0D, 0xAA]) = .error .trailingBytes := by decide
-- R102: `err ‖ byte`
theorem test_decode_rxByte : decode .default (.rx 0x10A) = .ok (.rxByte true 0x0A) := by decide
theorem test_decode_txFrame : decode .default (.event .txWrite) = .ok .txFrame := by decide
theorem test_decode_ckaTx : decode .default (.event .ckaWrite) = .ok .ckaTx := by decide
theorem test_decode_tick : decode .default (.event .tick) = .ok .tick := by decide
theorem test_decode_reset : decode .default (.event .reset) = .ok .reset := by decide

-- the table's own words: a command, a frame's 56 header bits, a received byte
theorem test_table_probe : decodeTableWord 64 0x600A000000000000 = some (.probe { fields0 with a := 0x0A } []) := by
  decide
theorem test_table_frameCheck : decodeTableWord 56 0x0A05010003000D = some (.frameCheck checkFields []) := by decide
theorem test_table_rxByte : decodeTableWord 9 0x00A = some (.rxByte false 0x0A) := by decide

/-! ### One step of each instruction, from the vectors -/

-- R210's example and V-SEND-15 (the id wraps)
theorem test_send : (after (exec (.send ⟨false, 0x0A, 0x03, 0x10, 0, 2, 0⟩ [0xAA, 0xBB]) (node 0x05 0x00))).map
    (fun s => (s.seq.txf, s.conn.lastId, s.seq.phase)) = some (some request, 0x01, .transmit) := by decide
theorem test_send_id_wraps : (after (exec (.send ⟨false, 0xFF, 0x03, 0x20, 0, 0, 0⟩ []) (node 0x05 0xFF))).map
    (fun s => (s.seq.txf.map Packet.wire, s.conn.lastId)) =
      some (some [0xFF, 0x05, 0x03, 0x20, 0x00, 0x00, 0xD9], 0x00) := by decide
-- R211 and V-WAIT-9's timeout -1
theorem test_waitForPacket :
    (after (exec (.waitForPacket ⟨true, 0x05, 0x03, 0x10, 0, 0, 2⟩ []) (node 0x0A 0x00))).map
      (fun s => (s.seq.flt, s.seq.remaining, s.seq.forever, s.seq.pollDue)) =
      some (some ⟨0x05, 0x03, 0x10, 0x00, true⟩, 2, false, true) := by decide
theorem test_getRequest_forever : (after (exec (.getRequest ⟨false, 0, 0, 0, 0, 0, 0xFFFF⟩ []) (node 0x0A 0x00))).map
    (fun s => (s.seq.flt, s.seq.remaining, s.seq.forever)) =
      some (some ⟨0x00, 0x03, 0x00, 0x00, true⟩, 0, true) := by decide
-- V-SEND-10
theorem test_sendResponse : (after (exec (.sendResponse ⟨false, 0x05, 0, 0x10, 0, 1, 0⟩ [0xCC]) (node 0x0A 0x00))).map
    (fun s => s.seq.txf.map Packet.wire) = some (some [0x05, 0x0A, 0x04, 0x10, 0x01, 0x01, 0x1B, 0xCC]) := by decide
-- V-SEND-11
theorem test_getResponse : (after (exec (.getResponse ⟨false, 0xFF, 0, 0x20, 0, 0, 20⟩ []) (node 0x05 0x00))).map
    (fun s => s.seq.txf.map Packet.wire) = some (some [0xFF, 0x05, 0x03, 0x20, 0x01, 0x00, 0xD8]) := by decide
-- R215's example, on an unclaimed node
theorem test_probe : (after (exec (.probe { fields0 with a := 0x0A } [])
    { State.reset with conn := ⟨0x00, false, 0x06⟩ })).map (fun s => (s.seq.txf.map Packet.wire, s.conn.lastId)) =
      some (some [0x0A, 0x00, 0x01, 0x00, 0x07, 0x00, 0x0C], 0x07) := by decide
-- R216's example
theorem test_acknowledge : (after (exec (.acknowledge ⟨false, 0x05, 0, 0, 0x01, 0, 0⟩ []) (node 0x0A 0x00))).map
    (fun s => (s.seq.txf, s.conn.lastId)) = some (some ack, 0x00) := by decide
-- V-ISS-7 and V-ISS-6
theorem test_setAddress : (after (exec (.setAddress { fields0 with a := 0x0B } []) .reset)).map
    (fun s => (s.conn, s.ports.responses)) = some (⟨0x0B, true, 0x00⟩, [{ code := .ok }]) := by decide
theorem test_setAddress_broadcast : (after (exec (.setAddress { fields0 with a := 0xFF } []) .reset)).map
    (fun s => (s.conn, s.ports.responses)) = some (⟨0x00, false, 0x00⟩, [{ code := .illegalCommand }]) := by decide
-- V-ISS-8
theorem test_getAddress : (after (exec (.getAddress fields0 []) .reset)).map (fun s => s.ports.responses) =
    some [{ code := .ok, addr := some 0x00, init := some false }] := by decide
-- V-ISS-1, V-ISS-4: the gate, then the status
theorem test_send_gated : (after (exec (.send ⟨false, 0x0A, 0x03, 0x10, 0, 0, 0⟩ []) .reset)).map
    (fun s => (s.ports.responses, s.conn.lastId)) = some ([{ code := .notInitialized }], 0x00) := by decide
theorem test_send_no_status : (after (exec (.send ⟨false, 0x0A, 0x00, 0x10, 0, 0, 0⟩ []) (node 0x05 0x00))).map
    (fun s => s.ports.responses) = some [{ code := .illegalCommand }] := by decide
-- V-ISS-2, V-ISS-3
theorem test_reservedA : (after (exec (.reservedA fields0 []) .reset)).map (fun s => s.ports.responses) =
    some [{ code := .illegalCommand }] := by decide
theorem test_reservedRsv : (after (exec (.reservedRsv 1 1 fields0 []) .reset)).map (fun s => s.ports.responses) =
    some [{ code := .illegalCommand }] := by decide

-- V-RX-1 whole, its skips and its slot; V-RX-4
theorem test_frameRequest : (after (exec (.frameRequest requestFields [0xAA, 0xBB]) (node 0x0A 0x00))).map
    (fun s => (s.ports.skips, s.slot)) = some ([0, 0, 0, 0, 0, 0, 0, 0, 0], ⟨true,
      [(0, 0x0A), (1, 0x05), (2, 0x03), (3, 0x10), (4, 0x01), (5, 0x02), (6, 0x1F)], [(0, 0xAA), (1, 0xBB)]⟩) := by
  decide
theorem test_frameRequest_bad_checksum :
    (after (exec (.frameRequest { requestFields with checksum := 0x00 } [0xAA, 0xBB]) (node 0x0A 0x00))).map
      (fun s => (s.ports.skips, s.slot.hasPacket)) = some ([0, 0, 0, 0, 0, 0, 2], false) := by decide
-- V-RX-6
theorem test_frameCheck : (after (exec (.frameCheck checkFields []) (node 0x0A 0x00))).map
    (fun s => (s.rsm.ckaPending, s.rsm.ckaFrame.map Header.bytes, s.slot.hasPacket)) =
      some (true, some [0x05, 0x0A, 0x02, 0x00, 0x03, 0x00, 0x0E], false) := by decide
-- V-RX-11: the slot is full
theorem test_frameResponse_slot_full :
    (after (exec (.frameResponse ⟨0x0A, 0x05, 0x10, 0x06, 0x01, 0x1C⟩ [0xCC])
      (withPacket request (node 0x0A 0x00)))).map (fun s => (s.ports.skips, s.slot.hdr.header?)) =
      some ([0, 0, 0, 0, 0, 0, 0, 0], some request.hdr) := by decide
theorem test_frameAck : (after (exec (.frameAck ⟨0x05, 0x0A, 0x00, 0x01, 0x00, 0x0C⟩ []) (node 0x05 0x00))).map
    (fun s => s.slot.hdr.header?) = some (some ack.hdr) := by decide
-- V-RX-7
theorem test_frameOtherStatus :
    (after (exec (.frameOtherStatus 0x09 ⟨0x0A, 0x05, 0x00, 0x04, 0x00, 0x02⟩ []) (node 0x0A 0x00))).map
      (fun s => s.slot.hdr.header?) = some (some ⟨0x0A, 0x05, 0x09, 0x00, 0x04, 0x00, 0x02⟩) := by decide
-- V-RX-3: the seventh byte of a frame to 0x0B answers skip 1; V-RX-9: an error in the last payload byte
theorem test_rxByte_foreign : (after (exec (.rxByte false 0x1F)
    (let s := midFrame 6 [0x0B, 0x05, 0x03, 0x10, 0x03, 0x01] [] (node 0x0A 0x00)
     { s with rsm := { s.rsm with frameValid := false } }))).map (fun s => (s.ports.skips, s.rsm.bytesRead)) =
      some ([1], 0) := by decide
theorem test_rxByte_payload_error : (after (exec (.rxByte true 0xBB)
    (midFrame 8 request.hdr.bytes [0xAA] (node 0x0A 0x00)))).map (fun s => (s.ports.skips, s.slot.hasPacket)) =
      some ([0], false) := by decide
-- V-RX-6's CKA_TX
theorem test_ckaTx : (after (exec .ckaTx (withAnswers [.collisionDetected] pendingNode))).map
    (fun s => (s.rsm.ckaPending, s.ports.txStream)) =
      some (false, [⟨[0x05, 0x0A, 0x02, 0x00, 0x03, 0x00, 0x0E], .collisionDetected⟩]) := by decide
-- V-SEND-1's first step; V-SEND-5's third
theorem test_txFrame_ok : (after (exec .txFrame (withAnswers [.ok] sending))).map
    (fun s => (s.ports.txStream, s.seq.phase, s.seq.flt, s.seq.remaining)) =
      some ([⟨[0x0A, 0x05, 0x03, 0x10, 0x01, 0x02, 0x1F, 0xAA, 0xBB], .ok⟩], .ackWait, some ackOf, 10) := by decide
theorem test_txFrame_third_collision :
    (after (exec .txFrame (withAnswers [.collisionDetected]
      { sending with seq := { sending.seq with txTry := 2 } }))).map
      (fun s => (s.ports.responses, s.seq.phase)) = some ([{ code := .collisionDetected }], .idle) := by decide
-- P2 steps 7 and 11
theorem test_tick_counts : (after (exec .tick { waitingNode .getRequest with seq :=
    { (waitingNode .getRequest).seq with pollDue := false, remaining := 10 } })).map
      (fun s => (s.seq.remaining, s.seq.pollDue)) = some (9, true) := by decide
theorem test_tick_forever : (after (exec .tick { waitingNode .getRequest with seq :=
    { (waitingNode .getRequest).seq with pollDue := false, forever := true } })).map
      (fun s => (s.seq.remaining, s.seq.pollDue)) = some (0, true) := by decide
-- V-RST-1
theorem test_reset : (after (exec .reset (withPacket request sending))).map
    (fun s => (s.conn, s.slot.hasPacket, s.seq.phase, s.ports.responses)) =
      some (⟨0x00, false, 0x00⟩, false, .idle, []) := by decide
-- V-WAIT-3 and V-WAIT-5: the poll of a wait
theorem test_poll_acknowledges : (after (seqPoll (withPacket request (waitingNode .waitForPacket)))).map
    (fun s => (s.seq.phase, s.seq.txf, s.slot.hasPacket)) = some (.ackEmit, some ack, false) := by decide
theorem test_poll_broadcast :
    (after (seqPoll (withPacket ⟨⟨0xFF, 0x05, 0x03, 0x20, 0x05, 0x00, 0xDC⟩, []⟩ (waitingNode .getRequest)))).map
      (fun s => (s.seq.phase, s.ports.responses)) =
      some (.idle, [{ code := .ok, hdr := some ⟨0xFF, 0x05, 0x03, 0x20, 0x05, 0x00, 0xDC⟩, data := some [] }]) := by
  decide

-- V-CK-1, V-CK-3, V-CK-10
theorem test_checksum : checksum request.hdr = 0x1F ∧ checksum ⟨0xFF, 0xFF, 0xFF, 0xFF, 0xFF, 0xFF, 0x00⟩ = 0x00 ∧
    checksum ⟨0x0A, 0x05, 0x02, 0x11, 0x01, 0x02, 0x00⟩ = 0x1F := by decide
-- V-SL-2, V-SL-3
theorem test_match : matchesFilter .default ⟨0x0A, 0x05, 0x02, 0x00, 0x02, 0x00, 0x0F⟩ ⟨0x05, 0x02, 0x00, 0x01, false⟩ =
    false ∧ matchesFilter .default request.hdr ⟨0x00, 0x03, 0x00, 0x00, true⟩ = true := by decide
-- V-ENC-9 through the assembler's line (R109)
theorem test_line : encode .default (Line.instr (.getResponse 0x0A 0x10 [0xAA, 0xBB] 20)) =
    .host 0x500A001000020014 [0xAA, 0xBB] := by decide
-- P1: GET_ADDRESS, PROBE 1 in use, PROBE 2 free, SET_ADDRESS 2
theorem test_scan : [({ code := .ok, addr := some 0, init := some false } : Response),
    { code := .ok, inUse := some true }, { code := .ok, inUse := some false }].foldl
      (fun sc r => Scan.next .default r sc) .asking = .claiming 0x02 := by decide
-- R178 on the packet of P2 step 9
theorem test_requestData : requestData request = ⟨0x05, 0x0A, 0x10, 0x02, [0xAA, 0xBB]⟩ := by decide

/-- The family PayloadCap is not empty: the longest payload is well-formed. -/
theorem test_payload_cap :
    CmdFields.lengthOk { fields0 with l := 0xFF } (List.replicate 255 0) = true := by
  unfold CmdFields.lengthOk
  rw [List.length_replicate]
  decide

/-! ### Witnesses: the hypotheses of each obligation are met together, clause by clause -/

theorem witness_DecodeOfEncode : Config.default.wf = true ∧
    Instr.wf .default (.send ⟨true, 0xFF, 0xFF, 0xFF, 0xFF, 2, 0xFFFF⟩ [0xFF, 0xFF]) = true ∧
    Instr.wf .default (.reservedRsv 0xF 7 fields0 []) = true ∧
    Instr.wf .default (.frameRequest requestFields [0xAA, 0xBB]) = true ∧
    Instr.wf .default (.frameOtherStatus 0x00 checkFields []) = true ∧ Instr.wf .default (.rxByte true 0xFF) = true := by
  decide

theorem witness_EncodeOfDecode : Config.default.wf = true ∧
    decode .default (.host 0xF000000000000000 []) = .ok (.reservedF fields0 []) ∧
    decode .default (.rx 0x1FF) = .ok (.rxByte true 0xFF) ∧
    decode .default (.frame [0x0A, 0x05, 0x01, 0x00, 0x03, 0x00, 0x0D]) = .ok (.frameCheck checkFields []) ∧
    decode .default (.event .reset) = .ok .reset := by decide

theorem witness_StepRuns_host :
    let s := withTurns [.host] (withHost 0x9000000000000000 [] .reset)
    s.cfg.wf = true ∧ nextTurn s = .host ∧ s.ports.hostPort = [⟨0x9000000000000000, []⟩] ∧
      decode s.cfg (.host 0x9000000000000000 []) = .ok (.getAddress fields0 []) := by decide

theorem witness_StepRuns_rx :
    let s := withTurns [.rx] (withRx [0x10A] .reset)
    s.cfg.wf = true ∧ nextTurn s = .rx ∧ s.ports.rxPort = [0x10A] ∧
      decode s.cfg (.rx 0x10A) = .ok (.rxByte true 0x0A) := by decide

theorem witness_StepRuns_frame :
    let s := withTurns [.frame] (withRx (([0x0A, 0x05, 0x01, 0x00, 0x03, 0x00, 0x0D, 0xAA] : List Byte).map rxBits) .reset)
    s.cfg.wf = true ∧ nextTurn s = .frame ∧
      decodeFrame s.cfg (cleanBytes s.ports.rxPort) = .ok (.frameCheck checkFields [], [0xAA]) := by decide

theorem witness_StepRuns_events : Config.default.wf = true ∧
    ∀ t ∈ [Turn.seqTx, .cka, .tick, .reset, .seqPoll, .host, .rx, .drop, .frame],
      nextTurn (withTurns [t] .reset) = t ∧ (withTurns [t] .reset).ports.hostPort = [] ∧
        (withTurns [t] .reset).ports.rxPort = [] ∧
        decodeFrame .default (cleanBytes (withTurns [t] .reset).ports.rxPort) = .error .truncatedHeader := by decide

theorem witness_StepRuns_drop : nextTurn (withTurns [.drop] (withRx [0x0AA] .reset)) = .drop ∧
    (withTurns [.drop] (withRx [0x0AA] .reset)).ports.rxPort = [0x0AA] := by decide

theorem witness_FetchWord : State.reset.cfg.wf = true ∧
    offerOfTableWord 64 0xA000000000000000 = some (.host 0xA000000000000000 []) ∧
    offerOfTableWord 56 0x0A05010003000D = some (.frame [0x0A, 0x05, 0x01, 0x00, 0x03, 0x00, 0x0D]) ∧
    offerOfTableWord 9 0x1FF = some (.rx 0x1FF) ∧ offerOfTableWord 8 1 = some (.event .reset) ∧
    decode .default (.host 0xA000000000000000 []) = .ok (.reservedA fields0 []) ∧
    decode .default (.frame [0x0A, 0x05, 0x01, 0x00, 0x03, 0x00, 0x0D]) = .ok (.frameCheck checkFields []) ∧
    decode .default (.rx 0x1FF) = .ok (.rxByte true 0xFF) ∧ decode .default (.event .reset) = .ok .reset := by decide

/-- R98: `l` is 2 and one byte is offered; `l` is 0 and none is, while a command is outstanding. -/
theorem witness_HostOffer :
    let s := withTurns [.host] (withHost 0x100A031000020000 [0xAA] .reset)
    let u := withTurns [.host] (withHost 0x9000000000000000 [] sending)
    (s.cfg.wf = true ∧ nextTurn s = .host ∧ s.ports.hostPort = [⟨0x100A031000020000, [0xAA]⟩] ∧
      ([0xAA] : List Byte).length ≠ ((0x100A031000020000 : CmdBits) >>> 16).toNat % 256) ∧
    (u.cfg.wf = true ∧ nextTurn u = .host ∧ u.ports.hostPort = [⟨0x9000000000000000, []⟩] ∧
      ([] : List Byte).length = ((0x9000000000000000 : CmdBits) >>> 16).toNat % 256 ∧ u.seq.phase ≠ .idle) := by decide

/-- S1: byte 3 of the SEND example's header corrupted, and its last byte. -/
theorem witness_SingleByteChange :
    checksumOk request.hdr = true ∧ request.hdr.bytes[3]? ≠ some 0x11 ∧ request.hdr.bytes[6]? ≠ some 0x1E ∧
    ({ request.hdr with command := 0x11 } : Header).bytes = request.hdr.bytes.set 3 0x11 ∧
    ({ request.hdr with checksum := 0x1E } : Header).bytes = request.hdr.bytes.set 6 0x1E := by decide

theorem witness_PendingCheckAck : pendingNode.rsm.ckaPending = true ∧
    pendingNode.rsm.ckaFrame = some ⟨0x05, 0x0A, 0x02, 0x00, 0x03, 0x00, 0x0E⟩ := by decide

/-- The first header byte, the second, and the sixth. -/
theorem witness_HeaderByteIsStored :
    (node 0x0A 0).rsm.ckaPending = false ∧ (node 0x0A 0).rsm.bytesRead = 0 ∧
    (let s := midFrame 1 [0x0A] [] (node 0x0A 0)
     s.rsm.ckaPending = false ∧ s.rsm.bytesRead = 1 ∧ s.rsm.hdrBuf.read 0 = some 0x0A) ∧
    (let s := midFrame 5 [0x0A, 0x05, 0x03, 0x10, 0x01] [] (node 0x0A 0)
     s.rsm.ckaPending = false ∧ s.rsm.bytesRead = 5) := by decide

/-- V-RX-4's checksum, V-RX-8's prior error and V-RX-3's destination. -/
theorem witness_InvalidHeader :
    let s := midFrame 6 [0x0A, 0x05, 0x03, 0x10, 0x01, 0x02] [] (node 0x0A 0)
    let u := { s with rsm := { s.rsm with frameValid := false } }
    s.rsm.ckaPending = false ∧ s.rsm.bytesRead = 6 ∧
    (s.rsm.hdrBuf.write 6 0x00).header? = some { request.hdr with checksum := 0x00 } ∧
    (stillValid false s && checksumOk { request.hdr with checksum := 0x00 }) = false ∧
    (s.rsm.hdrBuf.write 6 0x1F).header? = some request.hdr ∧ (stillValid true s && checksumOk request.hdr) = false ∧
    u.rsm.bytesRead = 6 ∧ (stillValid false u && checksumOk request.hdr) = false := by decide

theorem witness_ValidHeader :
    let s := midFrame 6 [0x0A, 0x05, 0x03, 0x10, 0x01, 0x02] [] (node 0x0A 0)
    s.rsm.ckaPending = false ∧ s.rsm.bytesRead = 6 ∧ (s.rsm.hdrBuf.write 6 0x1F).header? = some request.hdr ∧
    stillValid false s = true ∧ checksumOk request.hdr = true ∧ request.hdr.length ≠ 0 := by decide

/-- The first of two payload bytes: the only one before the last. -/
theorem witness_PayloadByte :
    let s := midFrame 7 request.hdr.bytes [] (node 0x0A 0)
    s.rsm.ckaPending = false ∧ 7 ≤ s.rsm.bytesRead ∧ s.rsm.hdrBuf.read 5 = some 2 ∧
      s.rsm.bytesRead + 1 < 7 + (2 : Byte).toNat := by decide

/-- The last byte of a frame of length 0 (V-RX-6's Check) and of length 2, the slot empty and full, the frame valid and
invalidated by a prior error (V-RX-9). -/
theorem witness_LastByte :
    let z := midFrame 6 [0x0A, 0x05, 0x01, 0x00, 0x03, 0x00] [] (node 0x0A 0)
    let s := midFrame 8 request.hdr.bytes [0xAA] (node 0x0A 0)
    let u := withPacket request s
    (z.rsm.ckaPending = false ∧ z.rsm.bytesRead = 6 ∧
      (z.rsm.hdrBuf.write 6 0x0D).header? = some ⟨0x0A, 0x05, 0x01, 0x00, 0x03, 0x00, 0x0D⟩ ∧
      checksumOk ⟨0x0A, 0x05, 0x01, 0x00, 0x03, 0x00, 0x0D⟩ = true ∧ stillValid false z = true ∧
      (0x01 : Byte) = z.cfg.stCheck) ∧
    (s.rsm.ckaPending = false ∧ s.rsm.hdrBuf.header? = some request.hdr ∧
      s.rsm.bytesRead + 1 = 7 + request.hdr.length.toNat ∧
      (s.rsm.payBuf.write (s.rsm.bytesRead - 7) 0xBB).readRange 0 request.hdr.length.toNat = some [0xAA, 0xBB] ∧
      stillValid false s = true ∧ request.hdr.status ≠ s.cfg.stCheck ∧ s.slot.hasPacket = false ∧
      u.slot.hasPacket = true ∧ u.rsm = s.rsm ∧ stillValid true s = false) := by decide

theorem witness_RxDoesNotRead : ∃ t, exec (.rxByte false 0x0A) (node 0x0A 0) = .next t := ⟨_, rfl⟩

theorem witness_CheckAckIsWrittenOnce : pendingNode.rsm.ckaPending = true ∧
    pendingNode.rsm.ckaFrame = some ⟨0x05, 0x0A, 0x02, 0x00, 0x03, 0x00, 0x0E⟩ ∧
    (node 0x0A 0).rsm.ckaPending = false := by decide

/-- A frame row delivered whole to an Idle node: length 2 and length 0, header valid and not. -/
theorem witness_FrameConsumption :
    (node 0x0A 0).rsm.ckaPending = false ∧ (node 0x0A 0).rsm.bytesRead = 0 ∧ (node 0x0A 0).rsm.frameValid = true ∧
    requestFields.lengthOk [0xAA, 0xBB] = true ∧ checkFields.lengthOk [] = true ∧
    requestFields.destination = (node 0x0A 0).conn.ownAddr ∧ checksumOk (requestFields.header 0x03) = true ∧
    checksumOk (requestFields.header 0x02) = false := by decide

theorem witness_CheckFrame :
    (node 0x0A 0).rsm.ckaPending = false ∧ (node 0x0A 0).rsm.bytesRead = 0 ∧ (node 0x0A 0).rsm.frameValid = true ∧
    checkFields.lengthOk [] = true ∧ checkFields.destination = (node 0x0A 0).conn.ownAddr ∧
    checksumOk (checkFields.header (node 0x0A 0).cfg.stCheck) = true := by decide

/-- A frame of each row, with a right checksum, to the node and to broadcast, the slot empty. -/
theorem witness_FrameIsPublished :
    (node 0x0A 0).cfg.wf = true ∧ (node 0x0A 0).rsm.frameValid = true ∧ (node 0x0A 0).slot.hasPacket = false ∧
    checksumOk ((⟨0x0A, 0x05, 0x00, 0x01, 0x00, 0x0C⟩ : FrameFields).header 0x02) = true ∧
    checksumOk (requestFields.header 0x03) = true ∧
    checksumOk ((⟨0xFF, 0x05, 0x10, 0x06, 0x00, 0xE8⟩ : FrameFields).header 0x04) = true ∧
    checksumOk ((⟨0x0A, 0x05, 0x00, 0x04, 0x00, 0x02⟩ : FrameFields).header 0x09) = true ∧
    Config.default.wireStatus 0x09 = false := by decide

/-- A full slot, a wrong checksum, a foreign destination. -/
theorem witness_FrameIsDiscarded :
    (withPacket request (node 0x0A 0)).slot.hasPacket = true ∧ (withPacket request (node 0x0A 0)).rsm.bytesRead = 0 ∧
    (0x03 : Byte) ≠ (node 0x0A 0).cfg.stCheck ∧ checksumOk (requestFields.header 0x04) = false ∧
    requestFields.destination ≠ (node 0x0B 0).conn.ownAddr ∧
    requestFields.destination ≠ (node 0x0B 0).cfg.addrBroadcast ∧ requestFields.lengthOk [0xAA, 0xBB] = true := by
  decide

theorem witness_IssueHoldsWhileBusy : sending.seq.phase ≠ .idle := by decide

theorem witness_Idle : (node 0x05 0).seq.phase = .idle ∧ (node 0x05 0).seq.cur = none ∧ (node 0x05 0).seq.got = none ∧
    (node 0x05 0).conn.isInitialized = true ∧ State.reset.seq.phase = .idle ∧ State.reset.seq.cur = none ∧
    State.reset.seq.got = none ∧ State.reset.conn.isInitialized = false := by decide

/-- R99: a status that is no wire status; the addresses on either side of `ADDR_MIN..ADDR_MAX`. R217: its ends. -/
theorem witness_IllegalOperands : (0x05 : Byte) ≠ Config.default.stCheck ∧ (0x05 : Byte) ≠ Config.default.stAck ∧
    (0x05 : Byte) ≠ Config.default.stRequest ∧ (0x05 : Byte) ≠ Config.default.stResponse ∧
    (0x00 : Byte).toNat < Config.default.addrMin.toNat ∧ Config.default.addrMax.toNat < (0xFF : Byte).toNat ∧
    Config.default.addrMin.toNat ≤ (0x01 : Byte).toNat ∧ (0x01 : Byte).toNat ≤ Config.default.addrMax.toNat ∧
    Config.default.addrMin.toNat ≤ (0xFE : Byte).toNat ∧ (0xFE : Byte).toNat ≤ Config.default.addrMax.toNat := by decide

theorem witness_SendCommands : ∀ st ∈ [0x01, 0x02, 0x03, 0x04], Config.default.wireStatus st = true := by decide

/-- A first collision of three attempts is not final; a phase that does not transmit; `AckEmit` transmits. -/
theorem witness_CollisionIsRetried :
    let s := withAnswers [.collisionDetected] sending
    let u := withAnswers [.collisionDetected] (withSeq (busy .ackEmit .getRequest ack anyFilter) (node 0x0A 0))
    (s.seq.phase = .transmit ∧ s.rsm.ckaPending = false ∧ s.seq.txf = some request ∧
      nextTxAnswer s = .collisionDetected ∧ s.seq.txTry + 1 < s.cfg.maxTxAttempts) ∧
    (u.seq.phase = .ackEmit ∧ u.rsm.ckaPending = false ∧ u.seq.txf = some ack ∧
      nextTxAnswer u = .collisionDetected ∧ u.seq.txTry + 1 < u.cfg.maxTxAttempts) ∧
    ((node 0x05 0).seq.phase ≠ .transmit ∧ (node 0x05 0).seq.phase ≠ .ackEmit) := by decide

/-- The last attempt: any answer but a collision, or the third collision; a unicast Request, a Check and a broadcast. -/
theorem witness_TransmissionOutcome :
    let s := fun op p r => withAnswers [r] (withSeq (busy .transmit op p anyFilter) (node 0x05 0))
    let bc : Packet := ⟨⟨0xFF, 0x05, 0x03, 0x20, 0x01, 0x00, 0xD8⟩, []⟩
    let ck : Packet := ⟨⟨0x0A, 0x05, 0x01, 0x00, 0x01, 0x00, 0x0F⟩, []⟩
    (∀ op ∈ [CmdOp.send, .sendResponse, .getResponse, .probe, .acknowledge], ∀ r ∈ [TxAnswer.ok, .writeError],
      ∀ p ∈ [request, bc, ck], (s op p r).seq.phase = .transmit ∧ (s op p r).rsm.ckaPending = false ∧
        (s op p r).seq.txf = some p ∧ (s op p r).seq.cur = some ⟨op, fields0, []⟩ ∧
        nextTxAnswer (s op p r) = r ∧ r ≠ .collisionDetected) ∧
    (let u := { s .send request .collisionDetected with
        seq := { busy .transmit .send request anyFilter with txTry := 2 } }
     nextTxAnswer u = .collisionDetected ∧ u.cfg.maxTxAttempts ≤ u.seq.txTry + 1) ∧
    (request.hdr.status ≠ Config.default.stCheck ∧ request.hdr.status ≠ Config.default.stAck ∧
      request.hdr.destination ≠ Config.default.addrBroadcast) ∧
    bc.hdr.destination = Config.default.addrBroadcast ∧
    (ck.hdr.status = Config.default.stCheck ∧ ck.hdr.destination ≠ Config.default.addrBroadcast) := by decide

theorem witness_AcknowledgementEmission :
    let q := { busy .ackEmit .getRequest ack anyFilter with got := some request }
    let s := withAnswers [.writeError] (withSeq q (node 0x0A 0))
    let u := withAnswers [.collisionDetected] (withSeq { q with txTry := 2 } (node 0x0A 0))
    s.seq.phase = .ackEmit ∧ s.rsm.ckaPending = false ∧ s.seq.txf = some ack ∧ s.seq.got = some request ∧
    nextTxAnswer s ≠ .collisionDetected ∧ u.seq.phase = .ackEmit ∧ u.cfg.maxTxAttempts ≤ u.seq.txTry + 1 := by decide

theorem witness_BroadcastNeverWaits :
    let bc : Packet := ⟨⟨0xFF, 0x05, 0x03, 0x20, 0x01, 0x00, 0xD8⟩, []⟩
    let s := withAnswers [.ok] (withSeq (busy .transmit .send bc anyFilter) (node 0x05 0))
    (fields0 = { fields0 with a := 0x00 } ∧ ({ fields0 with a := 0xFF } : CmdFields).a = (node 0x05 0).cfg.addrBroadcast) ∧
    s.seq.phase = .transmit ∧ s.rsm.ckaPending = false ∧ s.seq.txf = some bc ∧
    s.seq.cur = some ⟨.send, fields0, []⟩ ∧ bc.hdr.destination = s.cfg.addrBroadcast ∧ nextTxAnswer s = .ok := by decide

/-- V-WAIT-8: a Response before a wait for a Request; an empty slot; a wait for ever and one with a tick left. -/
theorem witness_FailedPoll :
    let q := busy .pktWait .getRequest request ⟨0x00, 0x03, 0x00, 0x00, true⟩
    let rsp : Packet := ⟨⟨0x0A, 0x05, 0x04, 0x10, 0x06, 0x01, 0x1C⟩, [0xCC]⟩
    let s := withPacket rsp (withSeq { q with remaining := 1 } (node 0x0A 0))
    let u := withSeq { q with forever := true } (node 0x0A 0)
    (s.seq.phase = .pktWait ∧ s.seq.pollDue = true ∧ s.slot.hdr.header? = some rsp.hdr ∧ s.seq.flt = q.flt ∧
      matchesFilter s.cfg rsp.hdr ⟨0x00, 0x03, 0x00, 0x00, true⟩ = false ∧ s.seq.remaining ≠ 0) ∧
    (u.seq.phase = .pktWait ∧ u.seq.pollDue = true ∧ u.slot.hasPacket = false ∧ u.seq.forever = true) ∧
    seqPollEnabled (node 0x0A 0) = false := by decide

/-- V-SEND-1's Acknowledge in the slot, for a SEND and for a GET_RESPONSE. -/
theorem witness_MatchedAcknowledgement : ∀ op ∈ [CmdOp.send, .getResponse],
    let s := withPacket ack (withSeq (busy .ackWait op request ackOf) (node 0x05 1))
    s.seq.phase = .ackWait ∧ s.seq.pollDue = true ∧ s.slot.hasPacket = true ∧ s.slot.hdr.header? = some ack.hdr ∧
    s.slot.pay.readRange 0 ack.hdr.length.toNat = some [] ∧ s.seq.flt = some ackOf ∧
    matchesFilter s.cfg ack.hdr ackOf = true ∧ s.seq.cur = some ⟨op, fields0, []⟩ ∧ s.seq.txf = some request ∧
    request.hdr.destination ≠ s.cfg.addrBroadcast := by decide

/-- V-WAIT-3, V-WAIT-5, V-WAIT-6 and a PROBE's wait. -/
theorem witness_MatchedPacket :
    let bc : Packet := ⟨⟨0xFF, 0x05, 0x03, 0x20, 0x05, 0x00, 0xDC⟩, []⟩
    (∀ op ∈ [CmdOp.probe, .getRequest, .waitForPacket], ∀ p ∈ [request, bc, ack],
      let s := withPacket p (waitingNode op)
      s.seq.phase = .pktWait ∧ s.seq.pollDue = true ∧ s.slot.hasPacket = true ∧ s.slot.hdr.header? = some p.hdr ∧
      s.slot.pay.readRange 0 p.hdr.length.toNat = some p.data ∧ s.seq.flt = some anyFilter ∧
      matchesFilter s.cfg p.hdr anyFilter = true ∧ s.seq.cur = some ⟨op, fields0, []⟩) ∧
    (request.hdr.status ≠ Config.default.stAck ∧ request.hdr.destination ≠ Config.default.addrBroadcast) ∧
    bc.hdr.destination = Config.default.addrBroadcast ∧ ack.hdr.status = Config.default.stAck := by decide

/-- A wait with no tick left and the slot empty: attempts left and none left, a PROBE and another command. -/
theorem witness_WaitTimesOut :
    let s := withSeq (busy .ackWait .send request ackOf) (node 0x05 1)
    let u := withSeq { busy .ackWait .send request ackOf with sendTry := 3 } (node 0x05 1)
    (s.seq.pollDue = true ∧ s.slot.hasPacket = false ∧ s.seq.forever = false ∧ s.seq.remaining = 0 ∧
      s.seq.cur = some ⟨.send, fields0, []⟩ ∧ s.seq.phase = .ackWait ∧ s.seq.sendTry < s.cfg.maxSendAttempts ∧
      s.seq.txf = some request) ∧
    (u.seq.phase = .ackWait ∧ u.cfg.maxSendAttempts ≤ u.seq.sendTry) ∧
    (∀ op ∈ [CmdOp.probe, .getRequest], (waitingNode op).seq.phase = .pktWait ∧ (waitingNode op).seq.remaining = 0 ∧
      (waitingNode op).seq.forever = false ∧ (waitingNode op).slot.hasPacket = false) := by decide

/-- A wait with one tick left, a wait for ever, a wait that owes a poll, and no wait. -/
theorem witness_Tick :
    let q := { busy .ackWait .send request ackOf with pollDue := false }
    (q.phase = .ackWait ∧ q.pollDue = false ∧ 1 ≤ { q with remaining := 1 }.remaining ∧
      { q with forever := true }.forever = true) ∧ (waitingNode .probe).seq.pollDue = true ∧
    (State.reset.seq.phase ≠ .ackWait ∧ State.reset.seq.phase ≠ .pktWait) := by decide

theorem witness_Reset : ∃ t, exec .reset sending = .next t := ⟨_, rfl⟩

/-! ### The invariant -/

/-- The reset state meets the invariant. -/
theorem witness_reset_inv : State.reset.Inv where
  cfg_wf := by decide
  rsm := by constructor <;> simp [State.reset, State.resetWith, Reassembler.atReset, Memory.wf]
  slot := by constructor <;> simp [State.reset, State.resetWith, Slot.atReset, Memory.wf]
  seq := by
    constructor <;>
      simp [State.reset, State.resetWith, Sequencer.atReset, SeqPhase.transmits, SeqPhase.waits]

/-- So does a node that is about to send. -/
theorem witness_sending_inv : sending.Inv where
  cfg_wf := by decide
  rsm := witness_reset_inv.rsm
  slot := witness_reset_inv.slot
  seq := by
    constructor <;> simp [sending, withSeq, busy, node, Sequencer.atReset, SeqPhase.transmits, SeqPhase.waits,
      State.reset, State.resetWith, Config.default, CmdOp.transmits, CmdFields.lengthOk, fields0]
    decide

/-- A step from it, taken; what it has transmitted, nothing, is well-formed. -/
theorem witness_StepKeepsTheInvariant : ∃ s t, s.Inv ∧ TxStreamOk s.cfg s.ports.txStream ∧ step s = .next t ∧
    t.ports.txStream ≠ [] := by
  refine ⟨withAnswers [.ok] (withTurns [.seqTx] sending), _, ?_, ?_, rfl, by decide⟩
  · exact ⟨witness_sending_inv.cfg_wf, witness_sending_inv.rsm, witness_sending_inv.slot, witness_sending_inv.seq⟩
  · intro w hw; simp [withAnswers, withTurns, sending, withSeq, node, State.reset, State.resetWith, Ports.atReset] at hw

theorem witness_OnlySetAddressClaims : ∃ t, exec (.setAddress { fields0 with a := 0x0B } []) .reset = .next t ∧
    (t.conn.ownAddr ≠ State.reset.conn.ownAddr ∨ t.conn.isInitialized ≠ State.reset.conn.isInitialized) :=
  ⟨_, rfl, by decide⟩

theorem witness_OnlySendsTakeAnId : ∃ t, exec (.probe { fields0 with a := 0x0A } []) .reset = .next t ∧
    t.conn.lastId ≠ State.reset.conn.lastId := ⟨_, rfl, by decide⟩

/-- A publish by a frame, and a consume by a poll. -/
theorem witness_SlotHasSingleWriters :
    (∃ t, exec (.frameRequest requestFields [0xAA, 0xBB]) (node 0x0A 0) = .next t ∧
      t.slot ≠ (node 0x0A 0).slot) ∧
    (∃ t, seqPoll (withPacket request (waitingNode .getRequest)) = .next t ∧
      t.slot ≠ (withPacket request (waitingNode .getRequest)).slot) :=
  ⟨⟨_, rfl, by decide⟩, _, rfl, by decide⟩

theorem witness_AtMostOneResponse : ∃ t, step (withTurns [.host] (withHost 0x9000000000000000 [] .reset)) = .next t ∧
    t.ports.responses = [{ code := .ok, addr := some 0x00, init := some false }] := ⟨_, rfl, by decide⟩

/-- V-SEND-9: the Acknowledge of another id blocks the wait. -/
theorem witness_Convoy :
    let other : Packet := ⟨⟨0x05, 0x0A, 0x02, 0x00, 0x02, 0x00, 0x0F⟩, []⟩
    let s := withTurns [.seqPoll] (withPacket other (withSeq (busy .ackWait .send request ackOf) (node 0x05 1)))
    (s.seq.phase = .ackWait ∧ s.slot.hasPacket = true ∧ s.slot.hdr.header? = some other.hdr ∧
      s.seq.flt = some ackOf ∧ matchesFilter s.cfg other.hdr ackOf = false ∧ nextTurn s ≠ .reset) ∧
    (after (step s)).isSome = true := by decide

theorem witness_Quiescent : ∀ t ∈ [Turn.tick, .seqTx, .seqPoll, .cka],
    quiescent (withTurns [t] .reset) = true ∧ nextTurn (withTurns [t] .reset) = t ∧
      (withTurns [t] .reset).cfg.wf = true := by decide

/-- A wait of one tick: `k` is 0 and `T` is 1; and of none. -/
theorem witness_PacketWait :
    let s := fun T n => withTurns (pollsAndTicks n) (withSeq { busy .pktWait .getRequest request anyFilter with remaining := T } (node 0x0A 0))
    (s 1 0).cfg.wf = true ∧ (s 1 0).seq.phase = .pktWait ∧ (s 1 0).seq.cur = some ⟨.getRequest, fields0, []⟩ ∧
    (s 1 0).seq.pollDue = true ∧ (s 1 0).seq.forever = false ∧ (s 1 0).seq.remaining = 1 ∧
    (s 1 0).slot.hasPacket = false ∧ (s 1 0).ports.schedule = pollsAndTicks 0 ++ [] ∧
    (s 1 1).ports.schedule = pollsAndTicks 1 ++ [] ∧ (s 0 0).seq.remaining = 0 := by decide

theorem witness_UnreachablePeer :
    let s := withTurns (sendAttempts 10 3) (withAnswers [.ok, .ok, .ok] sending)
    s.Inv ∧ s.rsm.ckaPending = false ∧ s.slot.hasPacket = false ∧ s.seq.phase = .transmit ∧ s.seq.txTry = 0 ∧
    s.seq.sendTry = 1 ∧ s.seq.cur = some ⟨.send, fields0, []⟩ ∧ s.seq.txf = some request ∧
    wantsAckWait s.cfg request = true ∧
    s.ports.txAnswers = List.replicate s.cfg.maxSendAttempts .ok ++ [] ∧
    s.ports.schedule = sendAttempts s.cfg.ackTimeout s.cfg.maxSendAttempts ++ [] :=
  ⟨⟨witness_sending_inv.cfg_wf, witness_sending_inv.rsm, witness_sending_inv.slot, witness_sending_inv.seq⟩,
    by decide, by decide, by decide, by decide, by decide, by decide, by decide, by decide, by decide, by decide⟩

/-- Two nodes, the first about to write a Check acknowledgement. -/
theorem witness_NodesShareNoState :
    let a := withAnswers [.ok] (withTurns [.cka] pendingNode)
    ∃ b', busStep 0 ⟨[a, node 0x05 0]⟩ = .next b' ∧ (1 : Nat) ≠ 0 ∧
      (⟨[a, node 0x05 0]⟩ : Bus).nodes[0]? = some a ∧ (⟨[a, node 0x05 0]⟩ : Bus).nodes[1]? = some (node 0x05 0) :=
  ⟨_, rfl, by decide, rfl, rfl⟩

/-- The scan claims the lowest and the highest address. -/
theorem witness_Scan : Config.default.wf = true ∧
    [({ code := .ok, init := some false } : Response), { code := .ok, inUse := some false }].foldl
      (fun sc r => Scan.next .default r sc) .asking = .claiming 0x01 ∧
    [({ code := .ok, inUse := some false } : Response)].foldl (fun sc r => Scan.next .default r sc) (.probing 0xFE) =
      .claiming 0xFE := by decide

/-! ### A fair run -/

/-- Nothing is offered to the node and none of its own steps is enabled. -/
def asleep (s : State) : Prop :=
  s.cfg.wf = true ∧ s.seq.phase = .idle ∧ s.rsm.ckaPending = false ∧ s.ports.hostPort = [] ∧ s.ports.rxPort = []

/-- Such a node takes every turn and stays so. -/
theorem asleep_step {s : State} (h : asleep s) : ∃ t, step s = .next t ∧ asleep t := by
  obtain ⟨h1, h2, h3, h4, h5⟩ := h
  have hT : asleep (takeTurn s) := ⟨h1, h2, h3, h4, h5⟩
  by_cases hr : nextTurn s = .reset
  · refine ⟨_, by simp only [step, h1, if_true, runTurn, hr, fetch, decodeEvent, exec, execReset]; rfl, ?_⟩
    exact ⟨h1, rfl, rfl, h4, h5⟩
  · refine ⟨takeTurn s, ?_, hT⟩
    simp only [step, h1, if_true, runTurn]
    cases ht : nextTurn s <;>
      simp_all [fetch, decodeEvent, exec, execTick, execTxFrame, execCkaTx, seqPoll, seqTxEnabled, seqPollEnabled,
        ckaEnabled, SeqPhase.waits, SeqPhase.transmits, hold, cleanBytes, decodeFrame]

/-- The next state, or the same one where there is none. -/
def advance (s : State) : State := (after (step s)).getD s

/-- A node whose only duty is a Check acknowledgement, and its run. -/
def fairRun : Nat → State
  | 0 => withAnswers [.ok] (withTurns [.cka] pendingNode)
  | n + 1 => advance (fairRun n)

theorem fairRun_asleep (n : Nat) : asleep (fairRun (n + 1)) := by
  induction n with
  | zero => exact ⟨by decide, by decide, by decide, by decide, by decide⟩
  | succ n ih =>
    obtain ⟨t, h1, h2⟩ := asleep_step ih
    have : fairRun (n + 1 + 1) = t := by
      change advance (fairRun (n + 1)) = t
      simp [advance, h1, after]
    rw [this]; exact h2

theorem witness_FairRun : IsRun fairRun ∧ WeaklyFair fairRun ∧ (fairRun 0).rsm.ckaPending = true := by
  refine ⟨?_, ?_, by decide⟩
  · intro n
    cases n with
    | zero => exact ⟨fairRun 1, {}, rfl, (supply_nothing _).symm⟩
    | succ n =>
      obtain ⟨t, h1, -⟩ := asleep_step (fairRun_asleep n)
      have : fairRun (n + 1 + 1) = t := by
        change advance (fairRun (n + 1)) = t
        simp [advance, h1, after]
      exact ⟨t, {}, h1, by rw [this, supply_nothing]⟩
  · intro t ht n
    obtain ⟨-, h2, h3, -, -⟩ := fairRun_asleep n
    refine ⟨n + 1, by omega, .inl ?_⟩
    simp only [ownTurns, List.mem_cons, List.not_mem_nil, or_false] at ht
    rcases ht with rfl | rfl | rfl <;>
      simp [enabled, seqTxEnabled, seqPollEnabled, ckaEnabled, h2, h3, SeqPhase.transmits, SeqPhase.waits]

/-! ### An environment that never stops: Checks without end (R5, R153) -/

/-- A Check to address 0x05 and the two turns it takes. -/
def oneCheck : Supply :=
  { rxPort := [0x05, 0x0A, 0x01, 0x00, 0x07, 0x00, 0x09].map rxBits, schedule := [.frame, .cka] }

/-- A node in Transmit between two frames. -/
structure Transmitting (s : State) : Prop where
  cfg : s.cfg = .default
  own : s.conn.ownAddr = 0x05
  idle : s.rsm.bytesRead = 0
  valid : s.rsm.frameValid = true
  phase : s.seq.phase = .transmit

/-- Such a node with a Check offered and its turn next. -/
structure Offered (s : State) : Prop extends Transmitting s where
  free : s.rsm.ckaPending = false
  rx : s.ports.rxPort = oneCheck.rxPort
  turns : s.ports.schedule = oneCheck.schedule

/-- Such a node once the Check is delivered. -/
structure Owing (s : State) : Prop extends Transmitting s where
  pending : s.rsm.ckaPending = true
  frame : s.rsm.ckaFrame.isSome = true
  rx : s.ports.rxPort = []
  turns : s.ports.schedule = [.cka]

theorem offered_step {s : State} (h : Offered s) : ∃ t, step s = .next t ∧ Owing t := by
  obtain ⟨hm, pm, he⟩ := deliverBytes_valid (takeTurn s) ⟨0x05, 0x0A, 0x01, 0x00, 0x07, 0x00, 0x09⟩ [] h.free h.idle
    h.valid rfl (.inl h.own.symm) (by decide)
  have hf : fetch .frame (takeTurn s) = .instr (.frameCheck ⟨0x05, 0x0A, 0x00, 0x07, 0x00, 0x09⟩ []) := by
    simp only [fetch, takeTurn_cfg, takeTurn_rxPort, h.cfg, h.rx]; rfl
  have hb : frameBytes 0x01 ⟨0x05, 0x0A, 0x00, 0x07, 0x00, 0x09⟩ [] =
      (⟨0x05, 0x0A, 0x01, 0x00, 0x07, 0x00, 0x09⟩ : Header).bytes ++ [] := rfl
  have hw : s.cfg.wf = true := by rw [h.cfg]; decide
  have hs : (takeTurn s).cfg.stCheck = 0x01 := by rw [takeTurn_cfg, h.cfg]; rfl
  refine ⟨_, by
    simp only [step, hw, if_true, runTurn, nextTurn_scheduled s h.turns, hf, exec, execFrameCheck, hs, hb, deliverFrame,
      he]
    rfl, ?_⟩
  constructor
  · constructor <;> simp [settle, h.cfg, h.own, h.phase, Config.default]
  all_goals simp [settle, h.cfg, h.rx, h.turns, oneCheck, Config.default, Header.bytes]

theorem owing_step {s : State} (h : Owing s) : ∃ t, step s = .next t ∧ Offered (supply oneCheck t) := by
  obtain ⟨f, hf⟩ := Option.isSome_iff_exists.1 h.frame
  have hw : s.cfg.wf = true := by rw [h.cfg]; decide
  refine ⟨_, by
    simp only [step, hw, if_true, runTurn, nextTurn_scheduled s h.turns, fetch, decodeEvent, exec, execCkaTx, ckaEnabled,
      takeTurn_rsm, h.pending, hf, need]
    rfl, ?_⟩
  constructor
  · constructor <;> simp [h.cfg, h.own, h.phase, h.idle, h.valid]
  all_goals simp [h.cfg, h.rx, h.turns, txWrite, Config.default]

/-- The next state, with the next Check offered once the last one is answered. -/
def pester (s : State) : State :=
  if s.rsm.ckaPending then supply oneCheck (advance s) else advance s

def pesteredRun : Nat → State
  | 0 => supply oneCheck (withTurns [] sending)
  | n + 1 => pester (pesteredRun n)

theorem pester_offered {s : State} (h : Offered s) : step s = .next (pester s) ∧ Owing (pester s) := by
  obtain ⟨t, h1, h2⟩ := offered_step h
  have e : pester s = t := by simp [pester, h.free, advance, h1, after]
  exact ⟨by rw [h1, e], e ▸ h2⟩

theorem pester_owing {s : State} (h : Owing s) :
    (∃ t, step s = .next t ∧ pester s = supply oneCheck t) ∧ Offered (pester s) := by
  obtain ⟨t, h1, h2⟩ := owing_step h
  have e : pester s = supply oneCheck t := by simp [pester, h.pending, advance, h1, after]
  exact ⟨⟨t, h1, e⟩, e ▸ h2⟩

theorem pesteredRun_cases (n : Nat) : Offered (pesteredRun (2 * n)) ∧ Owing (pesteredRun (2 * n + 1)) := by
  induction n with
  | zero =>
    have h : Offered (pesteredRun 0) := ⟨⟨rfl, rfl, rfl, rfl, rfl⟩, rfl, rfl, rfl⟩
    exact ⟨h, (pester_offered h).2⟩
  | succ n ih =>
    have h : Offered (pesteredRun (2 * n + 2)) := (pester_owing ih.2).2
    exact ⟨h, (pester_offered h).2⟩

/-- Weak fairness alone does not end a SEND: there is a weakly fair run in which Checks without end keep SEQ_TX from
ever being taken. -/
theorem witness_open_run : IsRun pesteredRun ∧ WeaklyFair pesteredRun ∧
    ∀ n, (pesteredRun n).seq.phase = .transmit ∧ nextTurn (pesteredRun n) ≠ .seqTx := by
  have at_ (n : Nat) : Offered (pesteredRun n) ∨ Owing (pesteredRun n) := by
    rcases Nat.even_or_odd' n with ⟨k, rfl | rfl⟩
    · exact .inl (pesteredRun_cases k).1
    · exact .inr (pesteredRun_cases k).2
  refine ⟨fun n => ?_, fun t ht n => ?_, fun n => ?_⟩
  · rcases at_ n with h | h
    · exact ⟨_, {}, (pester_offered h).1, (supply_nothing _).symm⟩
    · obtain ⟨t, h1, h2⟩ := (pester_owing h).1
      exact ⟨t, oneCheck, h1, h2⟩
  · simp only [ownTurns, List.mem_cons, List.not_mem_nil, or_false] at ht
    rcases ht with rfl | rfl | rfl
    · exact ⟨2 * n + 1, by omega, .inl (by simp [enabled, seqTxEnabled, (pesteredRun_cases n).2.pending])⟩
    · exact ⟨2 * n, by omega, .inl (by
        simp [enabled, seqPollEnabled, (pesteredRun_cases n).1.phase, SeqPhase.waits])⟩
    · exact ⟨2 * n, by omega, .inl (by simp [enabled, ckaEnabled, (pesteredRun_cases n).1.free])⟩
  · rcases at_ n with h | h
    · exact ⟨h.phase, by rw [nextTurn_scheduled _ h.turns]; decide⟩
    · exact ⟨h.phase, by rw [nextTurn_scheduled _ h.turns]; decide⟩

end Sys2Proof.Tests
end

section
/-! The family of 00_scope.md: which turn runs what (R5, R6), which configurations are refused (R8), and that no step
faults in a state that meets the invariant (R12). -/
namespace Sys2Proof

/-! ### R8's conditions as relations between the parameters -/

theorem Config.claimable_iff (c : Config) (a : Byte) :
    c.claimable a = true ↔ c.addrMin.toNat ≤ a.toNat ∧ a.toNat ≤ c.addrMax.toNat := by
  simp [Config.claimable, BitVec.le_def]

/-- Five codes are distinct exactly when no two of them, in order, coincide. -/
theorem nodup_five_iff {α : Type} (a b c d e : α) :
    [a, b, c, d, e].Nodup ↔
      ¬ (a = b ∨ a = c ∨ a = d ∨ a = e ∨ b = c ∨ b = d ∨ b = e ∨ c = d ∨ c = e ∨ d = e) := by
  simp only [List.nodup_cons, List.mem_cons, List.not_mem_nil, or_false, not_false_eq_true, List.nodup_nil, and_true]
  tauto

/-- The configurations R8 admits, its conditions grouped as the table gives them. -/
theorem Config.wf_iff (c : Config) : c.wf = true ↔
    c.addrNone ≠ c.addrBroadcast ∧ c.addrMin.toNat ≤ c.addrMax.toNat ∧
      c.claimable c.addrNone = false ∧ c.claimable c.addrBroadcast = false ∧
      [c.stNone, c.stCheck, c.stAck, c.stRequest, c.stResponse].Nodup ∧
      1 ≤ c.maxTxAttempts ∧ 1 ≤ c.maxSendAttempts ∧ c.ackTimeout ≤ 32767 ∧ c.checkTimeout ≤ 32767 := by
  simp only [Config.wf, Bool.and_eq_true, decide_eq_true_eq, bne_iff_ne, Bool.not_eq_true', BitVec.le_def, and_assoc]

namespace Machine

/-! ### What a turn runs -/

theorem step_eq_runTurn {s : State} (hw : s.cfg.wf = true) : step s = runTurn (nextTurn s) (takeTurn s) := by
  simp [step, hw]

/-- An instruction that the turn fetches is what the step runs. -/
theorem step_of_fetch_instr {s : State} {t : Turn} {i : Instr} (hw : s.cfg.wf = true) (ht : nextTurn s = t)
    (hf : fetch t (takeTurn s) = .instr i) : step s = exec i (takeTurn s) := by
  rw [step_eq_runTurn hw, ht, runTurn, hf]

/-- A turn at whose port nothing stands holds (log 4). -/
theorem step_of_fetch_nothing {s : State} {t : Turn} (hw : s.cfg.wf = true) (ht : nextTurn s = t)
    (hf : fetch t (takeTurn s) = .nothing) : step s = .next (takeTurn s) := by
  rw [step_eq_runTurn hw, ht, runTurn, hf, hold]

/-- A withheld byte leaves the RX stream (log 9). -/
theorem step_of_fetch_withhold {s : State} {t : Turn} (hw : s.cfg.wf = true) (ht : nextTurn s = t)
    (hf : fetch t (takeTurn s) = .withhold) : step s = .next (takeRx 1 (takeTurn s)) := by
  rw [step_eq_runTurn hw, ht, runTurn, hf]

theorem fetch_host_cons {s : State} {o : HostOffer} {rest : List HostOffer} {i : Instr}
    (hp : s.ports.hostPort = o :: rest) (hd : decode s.cfg (.host o.cw o.data) = .ok i) :
    fetch .host s = .instr i := by
  simp only [fetch, hp, hd]

theorem fetch_host_nil {s : State} (hp : s.ports.hostPort = []) : fetch .host s = .nothing := by
  simp only [fetch, hp]

theorem fetch_rx_cons {s : State} {w : RxBits} {rest : List RxBits} {i : Instr} (hp : s.ports.rxPort = w :: rest)
    (hd : decode s.cfg (.rx w) = .ok i) : fetch .rx s = .instr i := by
  simp only [fetch, hp, hd]

theorem fetch_rx_nil {s : State} (hp : s.ports.rxPort = []) : fetch .rx s = .nothing := by
  simp only [fetch, hp]

theorem fetch_drop_cons {s : State} {w : RxBits} {rest : List RxBits} (hp : s.ports.rxPort = w :: rest) :
    fetch .drop s = .withhold := by
  simp only [fetch, hp]

theorem fetch_drop_nil {s : State} (hp : s.ports.rxPort = []) : fetch .drop s = .nothing := by
  simp only [fetch, hp]

theorem fetch_frame_ok {s : State} {i : Instr} {rest : List Byte}
    (hd : decodeFrame s.cfg (cleanBytes s.ports.rxPort) = .ok (i, rest)) : fetch .frame s = .instr i := by
  simp only [fetch, hd]

theorem fetch_frame_error {s : State} {e : DecodeError}
    (hd : decodeFrame s.cfg (cleanBytes s.ports.rxPort) = .error e) : fetch .frame s = .nothing := by
  simp only [fetch, hd]

/-- Settles O4: one fetch equation per turn and content of its port. -/
theorem stepRunsWhatStandsAtThePort : Obligations.StepRunsWhatStandsAtThePort := by
  intro s i hw
  refine ⟨?host, ?rx, ?frame, ?seqTx, ?cka, ?tick, ?reset, ?seqPoll, ?drop, ?noOffer, ?noByte, ?noFrame, rfl⟩
  case host => exact fun o rest ht hp hd => step_of_fetch_instr hw ht (fetch_host_cons hp hd)
  case rx => exact fun w rest ht hp hd => step_of_fetch_instr hw ht (fetch_rx_cons hp hd)
  case frame => exact fun rest ht hd => step_of_fetch_instr hw ht (fetch_frame_ok hd)
  case seqTx | cka | tick | reset => exact fun ht => step_of_fetch_instr hw ht rfl
  case seqPoll => exact fun ht => by rw [step_eq_runTurn hw, ht]; rfl
  case drop => exact fun w rest ht hp => step_of_fetch_withhold hw ht (fetch_drop_cons hp)
  case noOffer => exact fun ht hp => step_of_fetch_nothing hw ht (fetch_host_nil hp)
  case noByte =>
    rintro (ht | ht) hp
    · exact step_of_fetch_nothing hw ht (fetch_rx_nil hp)
    · exact step_of_fetch_nothing hw ht (fetch_drop_nil hp)
  case noFrame => exact fun e ht hd => step_of_fetch_nothing hw ht (fetch_frame_error hd)

/-! ### Refusals -/

/-- Which step an instruction is: the 17 host rows and RESET answer in every state, the five frame rows deliver a
frame, and four rows are steps of their own. -/
theorem exec_cases (i : Instr) (s : State) :
    (∃ t, exec i s = .next t) ∨ (∃ bs, exec i s = deliverFrame bs s) ∨ (∃ err b, exec i s = execRxByte err b s) ∨
      exec i s = execTxFrame s ∨ exec i s = execCkaTx s ∨ exec i s = execTick s := by
  cases i
  case send | waitForPacket | getRequest | sendResponse | getResponse | probe | acknowledge | setAddress | getAddress =>
    simp only [exec]
    exact .inl (issue_next ..)
  case reserved0 | reservedA | reservedB | reservedC | reservedD | reservedE | reservedF | reservedRsv =>
    exact .inl (issueIllegal_next s)
  case reset => exact .inl ⟨_, rfl⟩
  case frameCheck | frameAck | frameRequest | frameResponse | frameOtherStatus => exact .inr (.inl ⟨_, rfl⟩)
  case rxByte err b => exact .inr (.inr (.inl ⟨err, b, rfl⟩))
  case txFrame => exact .inr (.inr (.inr (.inl rfl)))
  case ckaTx => exact .inr (.inr (.inr (.inr (.inl rfl))))
  case tick => exact .inr (.inr (.inr (.inr (.inr rfl))))

/-- A step that is taken when enabled and held otherwise is never refused. -/
theorem ite_outcomeOf_ne_refused (b : Bool) (x : Except Fault State) (s : State) (r : Refusal) :
    (if b then outcomeOf x else .next s) ≠ .refused r := by
  split
  · exact outcomeOf_ne_refused
  · simp

/-- No instruction is refused: each has a meaning in every state. -/
theorem exec_ne_refused (i : Instr) (s : State) (r : Refusal) : exec i s ≠ .refused r := by
  rcases exec_cases i s with ⟨t, h⟩ | ⟨bs, h⟩ | ⟨err, b, h⟩ | h | h | h <;> rw [h]
  · simp
  · exact outcomeOf_ne_refused
  all_goals exact ite_outcomeOf_ne_refused _ _ s r

theorem seqPoll_ne_refused (s : State) (r : Refusal) : seqPoll s ≠ .refused r :=
  ite_outcomeOf_ne_refused _ _ s r

/-- A turn refuses a payload of the wrong length (R98) and nothing else. -/
theorem runTurn_refused {t : Turn} {s : State} {r : Refusal} (h : runTurn t s = .refused r) :
    r = .payloadLengthMismatch := by
  unfold runTurn at h
  split at h
  case h_1 => exact (exec_ne_refused _ _ _ h).elim
  case h_2 => exact (seqPoll_ne_refused _ _ h).elim
  case h_3 => simp at h
  case h_4 => simp [hold] at h
  case h_5 r' hf => cases h; exact fetch_refuse hf

/-- U20: the configuration alone decides whether a step answers the refusal of R8. -/
theorem step_refuses_config_iff (s : State) : step s = .refused .illFormedConfig ↔ s.cfg.wf = false := by
  cases hw : s.cfg.wf
  · simp [step, hw]
  · rw [step_eq_runTurn hw]
    simp only [Bool.true_eq_false, iff_false]
    exact fun h => absurd (runTurn_refused h) (by simp)

/-- Settles O6: the negation of the conjunction of R8, condition by condition. -/
theorem configurationConditions : Obligations.ConfigurationConditions := by
  refine ⟨fun s => ?_, rfl⟩
  simp only [step_refuses_config_iff, ← Bool.not_eq_true, Config.wf_iff, nodup_five_iff, not_and_or, not_or, ne_eq,
    not_not, Config.claimable_iff, not_le, not_lt, or_assoc]

/-! ### No fault -/

/-- R160, R161: a whole frame is delivered without a fault. -/
theorem deliverFrame_next {s : State} (bs : List Byte) (h : s.Inv) : ∃ t, deliverFrame bs s = .next t := by
  obtain ⟨t, left, hd, -⟩ := deliverBytes_inv bs 0 s h.rsm h.slot
  exact ⟨_, by rw [deliverFrame, hd]; rfl⟩

/-- R140: a received byte is taken without a fault, or held. -/
theorem execRxByte_next {s : State} (err : Bool) (b : Byte) (h : s.Inv) : ∃ t, execRxByte err b s = .next t := by
  unfold execRxByte
  split
  case isTrue he =>
    obtain ⟨t, k, hr, -⟩ := rxStep_inv (s := takeRx 1 s) err b h.rsm h.slot (by simpa [rxEnabled] using he)
    exact ⟨answerSkip k t, by simp [deliverByte, hr]⟩
  case isFalse => exact ⟨s, rfl⟩

/-- R203: a transmit attempt meets no fault. -/
theorem execTxFrame_next {s : State} (h : s.Inv) : ∃ t, execTxFrame s = .next t := by
  unfold execTxFrame
  split
  case isTrue he =>
    simp only [seqTxEnabled, Bool.and_eq_true] at he
    obtain ⟨t, ht, -⟩ := seqTx_inv h.seq h.cfg_wf he.1
    exact ⟨t, outcomeOf_eq_next.2 ht⟩
  case isFalse => exact ⟨s, rfl⟩

/-- R152: a pending Check acknowledgement has its frame. -/
theorem execCkaTx_next {s : State} (h : s.Inv) : ∃ t, execCkaTx s = .next t := by
  unfold execCkaTx
  split
  case isTrue he =>
    obtain ⟨hd, hf, -⟩ := h.rsm.cka_frame he
    exact ⟨_, by rw [hf]; rfl⟩
  case isFalse => exact ⟨s, rfl⟩

/-- R206: a tick that counts finds `remaining` at least 1. -/
theorem execTick_next {s : State} (h : s.Inv) : ∃ t, execTick s = .next t := by
  unfold execTick
  split
  case isTrue he =>
    simp only [Bool.and_eq_true, Bool.not_eq_true'] at he
    obtain ⟨t, ht, -⟩ := countTick_inv h.seq he.1 he.2
    exact ⟨t, outcomeOf_eq_next.2 ht⟩
  case isFalse => exact ⟨s, rfl⟩

/-- R205: a poll meets no fault. -/
theorem seqPoll_next {s : State} (h : s.Inv) : ∃ t, seqPoll s = .next t := by
  unfold seqPoll
  split
  case isTrue he =>
    simp only [seqPollEnabled, Bool.and_eq_true] at he
    obtain ⟨t, ht, -⟩ := pollStep_inv h.seq h.slot h.cfg_wf he.1
    exact ⟨t, outcomeOf_eq_next.2 ht⟩
  case isFalse => exact ⟨s, rfl⟩

/-- Under the invariant every instruction answers a next state. -/
theorem exec_next {s : State} (i : Instr) (h : s.Inv) : ∃ t, exec i s = .next t := by
  rcases exec_cases i s with h' | ⟨bs, h'⟩ | ⟨err, b, h'⟩ | h' | h' | h'
  · exact h'
  all_goals rw [h']
  · exact deliverFrame_next bs h
  · exact execRxByte_next err b h
  · exact execTxFrame_next h
  · exact execCkaTx_next h
  · exact execTick_next h

/-- Taking the turn touches the ports alone, of which the invariant says nothing. -/
theorem takeTurn_inv {s : State} (h : s.Inv) : (takeTurn s).Inv := ⟨h.cfg_wf, h.rsm, h.slot, h.seq⟩

/-- Settles O47: under the invariant whatever a turn fetches answers a next state, or is refused. -/
theorem noStepFaults : Obligations.NoStepFaults := by
  intro s e hs
  have hu := takeTurn_inv hs
  have of_next {o : Host.Outcome State Fault Refusal} : (∃ t, o = .next t) → o ≠ .fault e := by
    rintro ⟨t, rfl⟩; simp
  rw [step_eq_runTurn hs.cfg_wf, runTurn]
  split
  case h_1 i _ => exact of_next (exec_next i hu)
  case h_2 => exact of_next (seqPoll_next hu)
  case h_3 => exact of_next ⟨_, rfl⟩
  case h_4 => exact of_next ⟨_, rfl⟩
  case h_5 => simp

end Machine
end Sys2Proof
end

section
/-! The family of 10_state.md: the state after reset meets the invariant and every step keeps it (R44), and which
steps write `own_addr` and `is_initialized` (R23, R24). -/
namespace Sys2Proof.Machine

/-! ### The state after reset -/

theorem Reassembler.atReset_inv (c : Config) : Reassembler.atReset.Inv c := by
  constructor <;> simp [Reassembler.atReset, Memory.wf]

theorem Slot.atReset_inv (c : Config) : Slot.atReset.Inv c := by
  constructor <;> simp [Slot.atReset, Memory.wf]

theorem Sequencer.atReset_inv (c : Config) : Sequencer.atReset.Inv c := by
  constructor <;> simp [Sequencer.atReset, SeqPhase.transmits, SeqPhase.waits]

/-- Settles O45: block by block. -/
theorem resetMeetsTheInvariant : Obligations.ResetMeetsTheInvariant := fun c hw =>
  ⟨hw, Reassembler.atReset_inv c, Slot.atReset_inv c, Sequencer.atReset_inv c⟩

/-- R290: RESET leads to the state after reset under the node's own parameters, the ports as they stand (log 12). -/
theorem execReset_eq (s : State) : execReset s = .next { State.resetWith s.cfg with ports := s.ports } := rfl

theorem execReset_inv {s t : State} (hs : s.Inv) (h : execReset s = .next t) : t.Inv := by
  rw [execReset_eq, Host.Outcome.next.injEq] at h
  obtain ⟨hw, hr, hsl, hq⟩ := resetMeetsTheInvariant s.cfg hs.cfg_wf
  exact h ▸ ⟨hw, hr, hsl, hq⟩

/-! ### The invariant over a frame -/

/-- A step that keeps the parameters keeps the invariant when each block of the next state meets its part. -/
theorem State.Inv.of_cfg {s t : State} (hs : s.Inv) (hc : t.cfg = s.cfg) (hr : t.rsm.Inv s.cfg)
    (hsl : t.slot.Inv s.cfg) (hq : t.seq.Inv s.cfg) : t.Inv :=
  ⟨hc ▸ hs.cfg_wf, hc ▸ hr, hc ▸ hsl, hc ▸ hq⟩

theorem SeqFrame.inv {s t : State} (hf : SeqFrame s t) (hs : s.Inv) (hq : t.seq.Inv s.cfg) : t.Inv :=
  hs.of_cfg hf.cfg (hf.rsm ▸ hs.rsm) (hf.slot ▸ hs.slot) hq

theorem IssueFrame.inv {s t : State} (hf : IssueFrame s t) (hs : s.Inv) (hq : t.seq.Inv s.cfg) : t.Inv :=
  hs.of_cfg hf.cfg (hf.rsm ▸ hs.rsm) (hf.slot ▸ hs.slot) hq

/-- R174: an emptied slot owes nothing of its packet. -/
theorem Slot.Inv.emptied {c : Config} {sl : Slot} (h : sl.Inv c) : ({ sl with hasPacket := false } : Slot).Inv c :=
  ⟨h.hdr_wf, h.pay_wf, by simp⟩

theorem PollFrame.inv {s t : State} (hf : PollFrame s t) (hs : s.Inv) (hq : t.seq.Inv s.cfg) : t.Inv := by
  refine hs.of_cfg hf.cfg (hf.rsm ▸ hs.rsm) ?_ hq
  rcases hf.slot with h | ⟨-, h⟩ <;> rw [h]
  · exact hs.slot
  · exact hs.slot.emptied

/-- What holds of the answer a step is known to give holds of the answer it gave. -/
theorem of_exists_eq_ok {α : Type} {P : α → Prop} {x : Except Fault α} {b : α} (hx : ∃ a, x = .ok a ∧ P a)
    (h : x = .ok b) : P b := by
  obtain ⟨a, ha, hP⟩ := hx
  cases ha.symm.trans h
  exact hP

/-! ### The sequencer's steps and TICK -/

theorem execTxFrame_inv {s t : State} (hs : s.Inv) (h : execTxFrame s = .next t) : t.Inv := by
  unfold execTxFrame at h
  split at h
  case isTrue he =>
    simp only [seqTxEnabled, Bool.and_eq_true] at he
    obtain ⟨hq, hf⟩ := of_exists_eq_ok (seqTx_inv hs.seq hs.cfg_wf he.1) (outcomeOf_eq_next.1 h)
    exact hf.inv hs hq
  case isFalse => exact (hold_eq_next s).1 h ▸ hs

theorem seqPoll_inv {s t : State} (hs : s.Inv) (h : seqPoll s = .next t) : t.Inv := by
  unfold seqPoll at h
  split at h
  case isTrue he =>
    simp only [seqPollEnabled, Bool.and_eq_true] at he
    obtain ⟨hq, hf⟩ := of_exists_eq_ok (pollStep_inv hs.seq hs.slot hs.cfg_wf he.1) (outcomeOf_eq_next.1 h)
    exact hf.inv hs hq
  case isFalse => exact (hold_eq_next s).1 h ▸ hs

theorem execTick_inv {s t : State} (hs : s.Inv) (h : execTick s = .next t) : t.Inv := by
  unfold execTick at h
  split at h
  case isTrue he =>
    simp only [Bool.and_eq_true, Bool.not_eq_true'] at he
    obtain ⟨hq, hf⟩ := of_exists_eq_ok (countTick_inv hs.seq he.1 he.2) (outcomeOf_eq_next.1 h)
    exact hf.inv hs hq
  case isFalse => exact (hold_eq_next s).1 h ▸ hs

/-! ### Received bytes and the Check acknowledgement -/

theorem ReceiveFrame.inv {s t : State} (hf : ReceiveFrame s t) (hs : s.Inv) (hr : t.rsm.Inv s.cfg)
    (hsl : t.slot.Inv s.cfg) : t.Inv :=
  hs.of_cfg hf.cfg hr hsl (hf.seq ▸ hs.seq)

theorem deliverFrame_inv {bs : List Byte} {s t : State} (hs : s.Inv) (h : deliverFrame bs s = .next t) : t.Inv := by
  have hf := deliverFrame_frame h
  obtain ⟨u, left, hu, rfl⟩ := deliverFrame_eq_next h
  obtain ⟨u', left', hu', -, -, -, hr, hsl⟩ := deliverBytes_inv bs 0 s hs.rsm hs.slot
  cases hu.symm.trans hu'
  exact hf.inv hs hr hsl

theorem execRxByte_inv {err : Bool} {b : Byte} {s t : State} (hs : s.Inv) (h : execRxByte err b s = .next t) :
    t.Inv := by
  have hf := execRxByte_frame h
  unfold execRxByte at h
  split at h
  case isTrue he =>
    obtain ⟨u, k, hu, hr, hsl⟩ :=
      rxStep_inv (s := takeRx 1 s) err b hs.rsm hs.slot (by simpa [rxEnabled] using he)
    obtain rfl : answerSkip k u = t := by simpa [deliverByte, hu] using h
    exact hf.inv hs hr hsl
  case isFalse => exact (hold_eq_next s).1 h ▸ hs

/-- R152: with no acknowledgement pending the reassembler owes none a frame. -/
theorem Reassembler.Inv.unpended {c : Config} {r : Reassembler} (h : r.Inv c) :
    ({ r with ckaPending := false } : Reassembler).Inv c :=
  { hdrBuf_wf := h.hdrBuf_wf, payBuf_wf := h.payBuf_wf, position := h.position, header_stored := h.header_stored
    idle_valid := h.idle_valid, header_passed := h.header_passed, payload_stored := h.payload_stored
    cka_between_frames := by simp
    cka_frame := by simp }

theorem execCkaTx_inv {s t : State} (hs : s.Inv) (h : execCkaTx s = .next t) : t.Inv := by
  rcases execCkaTx_cases h with rfl | ⟨hd, -, -, rfl⟩
  · exact hs
  · exact hs.of_cfg rfl hs.rsm.unpended hs.slot hs.seq

/-! ### Commands -/

/-- An issue keeps the invariant when its dispatch writes what an issue may and enters its phase properly. -/
theorem issue_keeps_inv {op : CmdOp} {f : CmdFields} {data : List Byte} {go : State → State} {s t : State}
    (hs : s.Inv) (h : issue op f data go s = .next t) (hframe : ∀ u, IssueFrame u (go u))
    (hgo : s.seq.phase = .idle → issueError op f s = none →
      (go { takeHostOffer s with seq := { s.seq with cur := some ⟨op, f, data⟩ } }).seq.Inv s.cfg) : t.Inv :=
  (issue_frame h hframe).inv hs (issue_inv h hs.seq hgo)

theorem issueIllegal_inv {s t : State} (hs : s.Inv) (h : issueIllegal s = .next t) : t.Inv := by
  rcases issueIllegal_cases h with ⟨-, rfl⟩ | ⟨-, rfl⟩
  · exact hs
  · exact hs.of_cfg rfl hs.rsm hs.slot (respond_inv _ hs.seq.base)

theorem Sequencer.Base.withCur {c : Config} {q : Sequencer} (h : q.Base c) (cur : Option Command) :
    ({ q with cur := cur } : Sequencer).Base c :=
  ⟨h.txf_ok, h.txTry_le, h.sendTry_le, h.remaining_le⟩

/-- R99: a SEND that passes its checks carries one of the four wire statuses. -/
theorem wireStatus_of_issueError_none {f : CmdFields} {s : State} (h : issueError .send f s = none) :
    s.cfg.wireStatus f.s = true := by
  unfold issueError at h
  split_ifs at h with h1 h2
  all_goals simpa using h2

/-- R202: SEND, SEND_RESPONSE and GET_RESPONSE start the transmission of a frame with the payload they carry. -/
theorem issue_send_inv {op : CmdOp} {f : CmdFields} {data : List Byte} {st : State → Byte} {s t : State} (hs : s.Inv)
    (hl : f.lengthOk data = true) (ht : op.transmits = true)
    (h : issue op f data (fun u => startTx (build u.conn.ownAddr f.a (st u) f.c (nextId u) data) .transmit
      (firstSendTry (takeId u))) s = .next t)
    (hst : ∀ u : State, u.cfg = s.cfg → issueError op f s = none → s.cfg.wireStatus (st u) = true) : t.Inv :=
  issue_keeps_inv hs h (fun _ => ⟨rfl, rfl, rfl, rfl, .inl rfl⟩) fun hp he =>
    dispatchTx_inv hs.seq hs.cfg_wf hp hl ht (build_ok (lengthOk_le hl) (hst _ rfl he)) rfl

/-- R202: WAIT_FOR_PACKET and GET_REQUEST start a wait. -/
theorem issue_wait_inv {op : CmdOp} {f : CmdFields} {data : List Byte} {g : State → Filter} {s t : State} (hs : s.Inv)
    (hl : f.lengthOk data = true) (hop : op.waitsForPacket = true)
    (h : issue op f data (fun u => startWait .pktWait (g u) (timeoutOf f) u) s = .next t) : t.Inv :=
  issue_keeps_inv hs h (fun _ => ⟨rfl, rfl, rfl, rfl, .inl rfl⟩) fun hp _ => dispatchWait_inv hs.seq hp hl hop rfl

/-- Every well-formed instruction keeps the invariant. -/
theorem exec_inv {i : Instr} {s t : State} (hs : s.Inv) (hi : i.wf s.cfg = true) (h : exec i s = .next t) : t.Inv := by
  cases i
  case send f data =>
    exact issue_send_inv (st := fun _ => f.s) hs hi rfl h fun _ _ he => wireStatus_of_issueError_none he
  case sendResponse f data =>
    exact issue_send_inv (st := fun u => u.cfg.stResponse) hs hi rfl h fun _ hc _ => by simp [Config.wireStatus, hc]
  case getResponse f data =>
    exact issue_send_inv (st := fun u => u.cfg.stRequest) hs hi rfl h fun _ hc _ => by simp [Config.wireStatus, hc]
  case probe f data =>
    exact issue_keeps_inv (op := .probe) (go := dispatchProbe f) hs h (fun _ => ⟨rfl, rfl, rfl, rfl, .inl rfl⟩)
      fun hp _ => dispatchTx_inv hs.seq hs.cfg_wf hp hi rfl (build_ok (by simp) (by simp [Config.wireStatus])) rfl
  case acknowledge f data =>
    exact issue_keeps_inv (op := .acknowledge) (go := dispatchAcknowledge f) hs h
      (fun _ => ⟨rfl, rfl, rfl, rfl, .inl rfl⟩)
      fun hp _ => dispatchTx_inv hs.seq hs.cfg_wf hp hi rfl (build_ok (by simp) (by simp [Config.wireStatus])) rfl
  case waitForPacket f data =>
    exact issue_wait_inv (op := .waitForPacket) (g := fun _ => waitFilter f) hs hi rfl h
  case getRequest f data =>
    exact issue_wait_inv (op := .getRequest) (g := fun u => requestFilter u.cfg) hs hi rfl h
  case setAddress f data =>
    exact issue_keeps_inv (op := .setAddress) (go := dispatchSetAddress f) hs h
      (fun _ => ⟨rfl, rfl, rfl, rfl, .inr ⟨_, rfl, by simp⟩⟩) fun _ _ => respond_inv _ (hs.seq.base.withCur _)
  case getAddress f data =>
    exact issue_keeps_inv (op := .getAddress) (go := dispatchGetAddress) hs h
      (fun _ => ⟨rfl, rfl, rfl, rfl, .inr ⟨_, rfl, by simp⟩⟩) fun _ _ => respond_inv _ (hs.seq.base.withCur _)
  case reserved0 | reservedA | reservedB | reservedC | reservedD | reservedE | reservedF | reservedRsv =>
    exact issueIllegal_inv hs h
  case frameCheck | frameAck | frameRequest | frameResponse | frameOtherStatus => exact deliverFrame_inv hs h
  case rxByte => exact execRxByte_inv hs h
  case txFrame => exact execTxFrame_inv hs h
  case ckaTx => exact execCkaTx_inv hs h
  case tick => exact execTick_inv hs h
  case reset => exact execReset_inv hs h

/-! ### Every step -/

/-- Settles O46: whatever a turn fetches keeps the invariant, and what it fetches is well-formed. -/
theorem stepKeepsTheInvariant : Obligations.StepKeepsTheInvariant := by
  intro s t hs h
  have hu := takeTurn_inv hs
  rcases step_cases h with ⟨i, hi, h⟩ | ⟨-, h⟩ | ⟨-, rfl⟩ | rfl
  · exact exec_inv hu (fetch_wf hi) h
  · exact seqPoll_inv hu h
  · exact hu.of_cfg rfl hu.rsm hu.slot hu.seq
  · exact hu

/-! ### Who writes the node's address -/

/-- `d` has the address and the flag of `c` (R23, R24). -/
def Connection.SameClaim (c d : Connection) : Prop := d.ownAddr = c.ownAddr ∧ d.isInitialized = c.isInitialized

theorem Connection.SameClaim.of_eq {c d : Connection} (h : d = c) : c.SameClaim d := h ▸ ⟨rfl, rfl⟩

theorem execTxFrame_conn {s t : State} (h : execTxFrame s = .next t) : t.conn = s.conn := by
  rcases execTxFrame_cases h with rfl | h
  · rfl
  · obtain ⟨-, -, hf, -⟩ := seqTx_frame h
    exact hf.conn

theorem execCkaTx_conn {s t : State} (h : execCkaTx s = .next t) : t.conn = s.conn := by
  rcases execCkaTx_cases h with rfl | ⟨-, -, -, rfl⟩ <;> rfl

/-- R217: SET_ADDRESS leaves the claim as it is, or claims its operand. -/
theorem execSetAddress_claim {f : CmdFields} {data : List Byte} {s t : State} (h : execSetAddress f data s = .next t) :
    s.conn.SameClaim t.conn ∨ t.conn.ownAddr = f.a ∧ t.conn.isInitialized = true :=
  issue_conn (P := fun c d => c.SameClaim d ∨ d.ownAddr = f.a ∧ d.isInitialized = true) h (.inl ⟨rfl, rfl⟩)
    fun _ => .inr ⟨rfl, rfl⟩

/-- R23, R24: an instruction other than SET_ADDRESS and RESET leaves the claim as it is. -/
theorem exec_sameClaim {i : Instr} {s t : State} (h : exec i s = .next t) (hset : ∀ f data, i ≠ .setAddress f data)
    (hreset : i ≠ .reset) : s.conn.SameClaim t.conn := by
  cases i
  case send | waitForPacket | getRequest | sendResponse | getResponse | probe | acknowledge | getAddress =>
    simp only [exec] at h
    exact issue_conn (P := Connection.SameClaim) h ⟨rfl, rfl⟩ fun _ => ⟨rfl, rfl⟩
  case setAddress f data => exact absurd rfl (hset f data)
  case reserved0 | reservedA | reservedB | reservedC | reservedD | reservedE | reservedF | reservedRsv =>
    exact .of_eq (issueIllegal_frame h).2
  case frameCheck | frameAck | frameRequest | frameResponse | frameOtherStatus =>
    exact .of_eq (deliverFrame_frame h).conn
  case rxByte => exact .of_eq (execRxByte_frame h).conn
  case txFrame => exact .of_eq (execTxFrame_conn h)
  case ckaTx => exact .of_eq (execCkaTx_conn h)
  case tick => exact .of_eq (execTick_frame h).1.conn
  case reset => exact absurd rfl hreset

/-- Settles O50: SET_ADDRESS and RESET apart, no instruction and no poll touches the claim. -/
theorem onlySetAddressClaims : Obligations.OnlySetAddressClaims := by
  refine ⟨fun i s t h hne => ?_, fun s t h => (seqPoll_frame h).1.conn⟩
  have changed : ¬ s.conn.SameClaim t.conn := fun hc => hne.elim (absurd hc.1) (absurd hc.2)
  by_cases hreset : i = .reset
  · exact .inl hreset
  by_cases hset : ∃ f data, i = .setAddress f data
  · obtain ⟨f, data, rfl⟩ := hset
    exact .inr ⟨f, data, rfl, (execSetAddress_claim h).resolve_left changed⟩
  · simp only [not_exists] at hset
    exact absurd (exec_sameClaim h hset hreset) changed

end Sys2Proof.Machine
end

section
/-! The family of 30_encoding.md: the encoder and the decoder are inverse to each other (R80, R93, R94, R102), an offer
at the host port is run, refused or held (R98, R99, R107), at most one response leaves a step (R100), and a valid frame
is published (R108). -/
namespace Sys2Proof

/-! ### The opcode map and the status map -/

theorem decode_encodeCommand (c : Config) (op : BitVec 4) {f : CmdFields} {data : List Byte}
    (hl : f.lengthOk data = true) : decode c (.host (encodeCommand op 0 f) data) = .ok (instrOfOp op f data) :=
  decodeCommand_encode hl

/-- R94: the opcode map and the encoder number the rows alike. -/
theorem encode_instrOfOp (c : Config) (op : BitVec 4) (f : CmdFields) (data : List Byte) :
    encode c (instrOfOp op f data) = .host (encodeCommand op 0 f) data := by
  have key : ∀ k : Fin 16,
      encode c (instrOfOp (BitVec.ofFin k) f data) = .host (encodeCommand (BitVec.ofFin k) 0 f) data := by
    intro k
    fin_cases k <;> rfl
  exact key op.toFin

/-- R91: the row a status byte selects writes that status back. -/
theorem encode_instrOfStatus (c : Config) (st : Byte) (h : FrameFields) (p : List Byte) :
    encode c (instrOfStatus c st h p) = .frame (frameBytes st h p) := by
  unfold instrOfStatus
  split_ifs with h1 h2 h3 h4
  · rw [h1]; rfl
  · rw [h2]; rfl
  · rw [h3]; rfl
  · rw [h4]; rfl
  · rfl

/-- R8, R91: under a configuration the model accepts, each of the four status codes selects its own row. -/
theorem instrOfStatus_codes {c : Config} (hw : c.wf = true) (h : FrameFields) (p : List Byte) :
    instrOfStatus c c.stCheck h p = .frameCheck h p ∧ instrOfStatus c c.stAck h p = .frameAck h p ∧
      instrOfStatus c c.stRequest h p = .frameRequest h p ∧
      instrOfStatus c c.stResponse h p = .frameResponse h p := by
  have hd := (nodup_five_iff ..).1 (Config.wf_statuses hw)
  simp only [not_or] at hd
  obtain ⟨-, -, -, -, hCheckAck, hCheckReq, hCheckResp, hAckReq, hAckResp, hReqResp⟩ := hd
  simp [instrOfStatus, Ne.symm hCheckAck, Ne.symm hCheckReq, Ne.symm hCheckResp, Ne.symm hAckReq, Ne.symm hAckResp,
    Ne.symm hReqResp]

theorem instrOfStatus_other {c : Config} {st : Byte} (hst : c.wireStatus st = false) (h : FrameFields)
    (p : List Byte) : instrOfStatus c st h p = .frameOtherStatus st h p := by
  simp only [Config.wireStatus, Bool.or_eq_false_iff, beq_eq_false_iff_ne, ne_eq] at hst
  obtain ⟨⟨⟨hCheck, hAck⟩, hReq⟩, hResp⟩ := hst
  simp [instrOfStatus, hCheck, hAck, hReq, hResp]

/-! ### The round trips -/

/-- Settles O1: the reserved words by `rsv`, the commands by the opcode map, the frames by the status map. -/
theorem decodeOfEncodeIsTheInstruction : Obligations.DecodeOfEncodeIsTheInstruction := by
  intro c i hw hi
  cases i
  case send | waitForPacket | getRequest | sendResponse | getResponse | probe | acknowledge | setAddress | getAddress
      | reserved0 | reservedA | reservedB | reservedC | reservedD | reservedE | reservedF =>
    exact decode_encodeCommand c _ hi
  case reservedRsv op rsv f data =>
    simp only [Instr.wf, Bool.and_eq_true, bne_iff_ne] at hi
    obtain ⟨hrsv, hl⟩ := hi
    exact (decodeCommand_encode hl).trans (by rw [if_pos hrsv])
  case frameCheck | frameAck | frameRequest | frameResponse =>
    exact (decode_frameBytes c _ hi).trans (by simp only [instrOfStatus_codes hw])
  case frameOtherStatus st h p =>
    simp only [Instr.wf, Bool.and_eq_true, Bool.not_eq_true'] at hi
    obtain ⟨hst, hl⟩ := hi
    exact (decode_frameBytes c st hl).trans (by rw [instrOfStatus_other hst])
  case rxByte err b => simp only [encode, decode, rxBits_err, rxBits_byte]
  case txFrame | ckaTx | tick | reset => rfl

/-- R93: what a command word decodes to encodes back to the word, whatever its payload. -/
theorem encode_of_decodeCommand {c : Config} {cw : CmdBits} {data : List Byte} {i : Instr}
    (h : decodeCommand cw data = .ok i) : encode c i = .host cw data := by
  unfold decodeCommand at h
  split_ifs at h with hl hrsv
  · cases h
    rw [encode, encodeCommand_cw]
  · cases h
    rw [encode_instrOfOp, ← not_not.1 hrsv, encodeCommand_cw]

/-- R80, R89: a byte stream that decodes begins with the bytes of the row it decodes to. -/
theorem decodeFrame_eq_ok {c : Config} {bs rest : List Byte} {i : Instr} (hd : decodeFrame c bs = .ok (i, rest)) :
    ∃ st h p, h.lengthOk p = true ∧ i = instrOfStatus c st h p ∧ bs = frameBytes st h p ++ rest := by
  unfold decodeFrame at hd
  split at hd
  · rename_i d u st cmd id l k tail
    split at hd
    · simp at hd
    · simp only [Except.ok.injEq, Prod.mk.injEq] at hd
      obtain ⟨rfl, rfl⟩ := hd
      refine ⟨st, ⟨d, u, cmd, id, l, k⟩, tail.take l.toNat, ?_, rfl, ?_⟩
      · simp only [FrameFields.lengthOk, List.length_take, beq_iff_eq]
        omega
      · simp [frameBytes, FrameFields.header, Header.bytes]
  · simp at hd

/-- R89: an offered frame decodes when the stream of its bytes does and nothing follows. -/
theorem decode_frame_eq_ok {c : Config} {bs : List Byte} {i : Instr} :
    decode c (.frame bs) = .ok i ↔ decodeFrame c bs = .ok (i, []) := by
  simp only [decode]
  split <;> simp_all

/-- The error bit and the byte are all of an RX transaction (R102). -/
theorem rxBits_cover (w : RxBits) : (BitVec.ofBool (w.getLsbD 8) ++ w.extractLsb' 0 8 : RxBits) = w := by
  ext k hk
  simp only [BitVec.getElem_append, BitVec.getElem_extractLsb', BitVec.getElem_ofBool]
  split <;> rw [← BitVec.getLsbD_eq_getElem] <;> congr 1 <;> omega

/-- Settles O2: each kind of offer is written back by its row, and what decodes is well-formed. -/
theorem encodeOfDecodeIsTheOffer : Obligations.EncodeOfDecodeIsTheOffer := by
  intro c o i _ hd
  cases o
  case host cw data => exact ⟨encode_of_decodeCommand hd, decodeCommand_wf c hd⟩
  case frame bs =>
    rw [decode_frame_eq_ok] at hd
    refine ⟨?_, (decodeFrame_wf hd).1⟩
    obtain ⟨st, h, p, -, rfl, rfl⟩ := decodeFrame_eq_ok hd
    rw [encode_instrOfStatus, List.append_nil]
  case rx w =>
    cases hd
    exact ⟨congrArg Offer.rx (rxBits_cover w), rfl⟩
  case event e =>
    cases hd
    cases e <;> exact ⟨rfl, rfl⟩

/-- Settles O3: the decoder evaluated on the words. -/
theorem specWordsDecode : Obligations.SpecWordsDecode := ⟨rfl, rfl, rfl, rfl, rfl, rfl⟩

/-! ### The rows of the host port -/

/-- The 17 rows that stand at the host port (R94, R219). -/
def Instr.hostRow : Instr → Bool
  | .frameCheck .. | .frameAck .. | .frameRequest .. | .frameResponse .. | .frameOtherStatus .. => false
  | .rxByte .. | .txFrame | .ckaTx | .tick | .reset => false
  | _ => true

theorem instrOfOp_hostRow (op : BitVec 4) (f : CmdFields) (data : List Byte) :
    (instrOfOp op f data).hostRow = true := by
  unfold instrOfOp
  split <;> rfl

theorem decodeCommand_hostRow {cw : CmdBits} {data : List Byte} {i : Instr} (h : decodeCommand cw data = .ok i) :
    i.hostRow = true := by
  unfold decodeCommand at h
  split_ifs at h <;> cases h
  · rfl
  · exact instrOfOp_hostRow ..

/-- `l` is bits 23:16 of the command word (R93). -/
theorem cwFields_l_toNat (cw : CmdBits) : (cwFields cw).l.toNat = (cw >>> 16).toNat % 256 := by
  simp [cwFields]

/-- R98, R99: a command word is refused for the length of its payload and for nothing else. -/
theorem decodeCommand_wrongLength {cw : CmdBits} {data : List Byte} (h : data.length ≠ (cw >>> 16).toNat % 256) :
    decodeCommand cw data = .error .payloadLengthMismatch := by
  rw [← cwFields_l_toNat] at h
  simp [decodeCommand, CmdFields.lengthOk, h]

theorem decodeCommand_rightLength {cw : CmdBits} {data : List Byte} (h : data.length = (cw >>> 16).toNat % 256) :
    ∃ i, decodeCommand cw data = .ok i := by
  rw [← cwFields_l_toNat] at h
  simp only [decodeCommand, CmdFields.lengthOk, h, beq_self_eq_true, Bool.true_eq_false, if_false]
  split <;> exact ⟨_, rfl⟩

namespace Machine

/-! ### An offer at the head of its port -/

@[simp] theorem offerNext_cfg (o : Offer) (s : State) : (offerNext o s).cfg = s.cfg := by
  cases o <;> rfl

theorem rxBits_clean (b : Byte) : (rxBits b).getLsbD 8 = false := rxBits_err false b

theorem rxByteOf_rxBits (b : Byte) : rxByteOf (rxBits b) = b := rxBits_byte false b

/-- Error-free transactions at the head of the RX stream carry their bytes (R102). -/
theorem cleanBytes_map_rxBits_append (bs : List Byte) (ws : List RxBits) :
    cleanBytes (bs.map rxBits ++ ws) = bs ++ cleanBytes ws := by
  induction bs with
  | nil => rfl
  | cons b bs ih =>
    simp only [cleanBytes] at ih
    simp only [cleanBytes, List.map_cons, List.cons_append, List.takeWhile_cons, rxBits_clean, Bool.not_false, if_true,
      rxByteOf_rxBits, ih]

/-- A frame that decodes decodes alike at the head of a longer stream (R89). -/
theorem decodeFrame_append {c : Config} {bs : List Byte} {i : Instr} (h : decodeFrame c bs = .ok (i, []))
    (more : List Byte) : decodeFrame c (bs ++ more) = .ok (i, more) := by
  obtain ⟨st, f, p, hl, rfl, rfl⟩ := decodeFrame_eq_ok h
  rw [List.append_nil]
  exact decodeFrame_frameBytes c st more hl

/-- An offer that decodes, put at the head of its port with its turn, is what the next step runs (R107). -/
theorem step_offerNext {s : State} {o : Offer} {i : Instr} (hw : s.cfg.wf = true) (hd : decode s.cfg o = .ok i) :
    step (offerNext o s) = exec i (takeTurn (offerNext o s)) := by
  have hw' : (offerNext o s).cfg.wf = true := by rwa [offerNext_cfg]
  cases o
  case host cw data => exact step_of_fetch_instr hw' rfl (fetch_host_cons (o := ⟨cw, data⟩) rfl hd)
  case rx w => exact step_of_fetch_instr hw' rfl (fetch_rx_cons rfl hd)
  case frame bs =>
    refine step_of_fetch_instr hw' rfl (fetch_frame_ok (rest := cleanBytes s.ports.rxPort) ?_)
    change decodeFrame s.cfg (cleanBytes (bs.map rxBits ++ s.ports.rxPort)) = _
    rw [cleanBytes_map_rxBits_append]
    exact decodeFrame_append (decode_frame_eq_ok.1 hd) _
  case event e =>
    cases hd
    cases e <;> exact step_of_fetch_instr hw' rfl rfl

/-- Settles O5: `withFetchWord` places the word's offer at the head of its port. -/
theorem fetchWordRunsNext : Obligations.FetchWordRunsNext := by
  intro s nbits w o i hw ho hd
  rw [State.withFetchWord, ho]
  exact step_offerNext hw hd

/-! ### Issues that hold, and issues that a check turns away -/

theorem issue_busy {op : CmdOp} {f : CmdFields} {data : List Byte} {go : State → State} {s : State}
    (hb : s.seq.phase ≠ .idle) : issue op f data go s = .next s := by
  simp [issue, issueEnabled, hb, hold]

theorem issueIllegal_busy {s : State} (hb : s.seq.phase ≠ .idle) : issueIllegal s = .next s := by
  simp [issueIllegal, issueEnabled, hb, hold]

/-- R107, R200: while a command is outstanding no host row does anything. -/
theorem exec_busy {i : Instr} {s : State} (hi : i.hostRow = true) (hb : s.seq.phase ≠ .idle) :
    exec i s = .next s := by
  cases i
  case send | waitForPacket | getRequest | sendResponse | getResponse | probe | acknowledge | setAddress | getAddress =>
    simp only [exec]
    exact issue_busy hb
  case reserved0 | reservedA | reservedB | reservedC | reservedD | reservedE | reservedF | reservedRsv =>
    exact issueIllegal_busy hb
  all_goals exact absurd hi (by simp [Instr.hostRow])

/-- Settles O24: every listed row is a row of the host port. -/
theorem issueHoldsWhileBusy : Obligations.IssueHoldsWhileBusy := by
  intro s f data op rsv hb i hi
  refine exec_busy ?_ hb
  revert i
  simp [Instr.hostRow]

theorem fetch_host_refuse {s : State} {o : HostOffer} {rest : List HostOffer} {e : DecodeError}
    (hp : s.ports.hostPort = o :: rest) (hd : decode s.cfg (.host o.cw o.data) = .error e) :
    fetch .host s = .refuse .payloadLengthMismatch := by
  simp only [fetch, hp, hd]

/-- Settles O7: the length decides whether the offer decodes, the phase whether its row holds. -/
theorem hostOfferRefusedOrHeld : Obligations.HostOfferRefusedOrHeld := by
  intro s o rest hw ht hp
  constructor
  · intro hl
    have hf : fetch .host (takeTurn s) = .refuse .payloadLengthMismatch :=
      fetch_host_refuse hp (decodeCommand_wrongLength hl)
    rw [step_eq_runTurn hw, ht, runTurn, hf]
  · intro hl hb
    obtain ⟨i, hd⟩ := decodeCommand_rightLength hl
    have hf : fetch .host (takeTurn s) = .instr i := fetch_host_cons hp hd
    rw [step_of_fetch_instr hw ht hf]
    exact exec_busy (decodeCommand_hostRow hd) hb

/-- R209: at an Idle sequencer with no command outstanding an answer at issue is new, and nothing else. -/
theorem respond_takeHostOffer_of_idle {s : State} (r : Response) (hp : s.seq.phase = .idle) (hc : s.seq.cur = none)
    (hg : s.seq.got = none) : respond r (takeHostOffer s) = { s with ports := answeredAtIssue r s.ports } := by
  have hq : { s.seq with cur := none, got := none, phase := .idle } = s.seq := by rw [← hp, ← hc, ← hg]
  simp only [respond, takeHostOffer, hq, answeredAtIssue]

/-- R200: an issue that a check turns away only answers. -/
theorem issue_error_of_idle {op : CmdOp} {f : CmdFields} {s : State} {code : RespCode} (data : List Byte)
    (go : State → State) (hp : s.seq.phase = .idle) (hc : s.seq.cur = none) (hg : s.seq.got = none)
    (he : issueError op f s = some code) :
    issue op f data go s = .next { s with ports := answeredAtIssue { code := code } s.ports } := by
  simp only [issue, issueEnabled, hp, decide_true, if_true, he, respond_takeHostOffer_of_idle _ hp hc hg]

/-- R99: an initialized SEND is turned away for its status alone. -/
theorem issueError_send {f : CmdFields} {s : State} (hi : s.conn.isInitialized = true)
    (hst : s.cfg.wireStatus f.s = false) : issueError .send f s = some .illegalCommand := by
  simp [issueError, CmdOp.gated, hi, hst]

/-- R217: SET_ADDRESS is turned away for its address alone. -/
theorem issueError_setAddress {f : CmdFields} {s : State} (ha : s.cfg.claimable f.a = false) :
    issueError .setAddress f s = some .illegalCommand := by
  simp [issueError, CmdOp.gated, ha]

/-- Settles O27: both operand checks of the issue fail. -/
theorem illegalOperandsAnswerIllegalCommand : Obligations.IllegalOperandsAnswerIllegalCommand := by
  intro s f data hp hc hg
  constructor
  · intro hi hCheck hAck hReq hResp
    exact issue_error_of_idle _ _ hp hc hg
      (issueError_send hi (by simp [Config.wireStatus, hCheck, hAck, hReq, hResp]))
  · intro ha
    have hr : s.cfg.claimable f.a = false := by
      rw [← Bool.not_eq_true, Config.claimable_iff]
      omega
    exact issue_error_of_idle _ _ hp hc hg (issueError_setAddress hr)

/-! ### Who answers -/

theorem execTxFrame_mayAnswer {s t : State} (h : execTxFrame s = .next t) : MayAnswer s t := by
  rcases execTxFrame_cases h with rfl | h
  · exact .inl rfl
  · obtain ⟨-, -, -, -, ha⟩ := seqTx_frame h
    exact ha

/-- R100, R264: a host row answers at most once, and never NoAddressAvailable. -/
theorem exec_hostRow_mayAnswer {i : Instr} {s t : State} (hi : i.hostRow = true) (h : exec i s = .next t) :
    MayAnswer s t := by
  cases i
  case send | waitForPacket | getRequest | sendResponse | getResponse | probe | acknowledge =>
    simp only [exec] at h
    exact (issue_frame h fun _ => ⟨rfl, rfl, rfl, rfl, .inl rfl⟩).responses
  case setAddress | getAddress =>
    simp only [exec] at h
    exact (issue_frame h fun _ => ⟨rfl, rfl, rfl, rfl, .inr ⟨_, rfl, by simp⟩⟩).responses
  case reserved0 | reservedA | reservedB | reservedC | reservedD | reservedE | reservedF | reservedRsv =>
    exact (issueIllegal_frame h).1.responses
  all_goals exact absurd hi (by simp [Instr.hostRow])

/-- R100: no instruction but a host row or TX_FRAME answers. -/
theorem exec_silent {i : Instr} {s t : State} (hi : i.hostRow = false) (htx : i ≠ .txFrame)
    (h : exec i s = .next t) : t.ports.responses = s.ports.responses := by
  cases i
  case frameCheck | frameAck | frameRequest | frameResponse | frameOtherStatus => exact (deliverFrame_frame h).responses
  case rxByte => exact (execRxByte_frame h).responses
  case txFrame => exact absurd rfl htx
  case ckaTx => rcases execCkaTx_cases h with rfl | ⟨-, -, -, rfl⟩ <;> rfl
  case tick => rw [(execTick_frame h).2]
  case reset => cases h; rfl
  all_goals exact absurd hi (by simp [Instr.hostRow])

/-- R100: an instruction answers at most once, and only a host row or TX_FRAME does. -/
theorem exec_answers {i : Instr} {s t : State} (h : exec i s = .next t) :
    t.ports.responses = s.ports.responses ∨ (i.hostRow = true ∨ i = .txFrame) ∧ MayAnswer s t := by
  cases hi : i.hostRow
  · by_cases htx : i = .txFrame
    · subst htx
      exact .inr ⟨.inr rfl, execTxFrame_mayAnswer h⟩
    · exact .inl (exec_silent hi htx h)
  · exact .inr ⟨.inl rfl, exec_hostRow_mayAnswer hi h⟩

/-- Only the host's turn fetches a host row, and only SEQ_TX's turn TX_FRAME. -/
theorem turn_of_fetch_answering {u : Turn} {s : State} {i : Instr} (hf : fetch u s = .instr i)
    (hi : i.hostRow = true ∨ i = .txFrame) : u = .host ∨ u = .seqTx := by
  cases u
  case host => exact .inl rfl
  case seqTx => exact .inr rfl
  case frame =>
    simp only [fetch] at hf
    split at hf <;> cases hf
    rcases (decodeFrame_wf ‹_›).2 with ⟨h, p, rfl | rfl | rfl | rfl⟩ | ⟨st, h, p, rfl⟩ <;> simp [Instr.hostRow] at hi
  case rx =>
    simp only [fetch, decode] at hf
    split at hf <;> cases hf
    simp [Instr.hostRow] at hi
  case drop =>
    simp only [fetch] at hf
    split at hf <;> cases hf
  case seqPoll => cases hf
  case tick | cka | reset =>
    cases hf
    simp [decodeEvent, Instr.hostRow] at hi

/-- Settles O53: what each kind of step may answer, and which turn fetches what answers. -/
theorem atMostOneResponse : Obligations.AtMostOneResponse := by
  intro s t h
  have on_turn : (nextTurn s = .host ∨ nextTurn s = .seqTx ∨ nextTurn s = .seqPoll) → MayAnswer (takeTurn s) t →
      t.ports.responses = s.ports.responses ∨ ∃ r, t.ports.responses = s.ports.responses ++ [r] ∧
        r.code ≠ .noAddressAvailable ∧ (nextTurn s = .host ∨ nextTurn s = .seqTx ∨ nextTurn s = .seqPoll) :=
    fun hu ha => ha.imp id fun ⟨r, hr, hc⟩ => ⟨r, hr, hc, hu⟩
  rcases step_cases h with ⟨i, hf, hx⟩ | ⟨hu, hx⟩ | ⟨-, rfl⟩ | rfl
  · rcases exec_answers hx with he | ⟨hi, ha⟩
    · exact .inl he
    · exact on_turn ((turn_of_fetch_answering hf hi).imp id .inl) ha
  · obtain ⟨-, -, ha, -⟩ := seqPoll_frame hx
    exact on_turn (.inr (.inr hu)) ha
  · exact .inl rfl
  · exact .inl rfl

/-! ### A valid frame that finds the slot empty -/

/-- R147, R170: a valid frame other than a Check that finds the slot empty is published. -/
theorem settle_publish {h : Header} {s : State} (data : List Byte) (hst : h.status ≠ s.cfg.stCheck)
    (hs : s.slot.hasPacket = false) : settle h data s = toIdle (publish ⟨h, data⟩ s) := by
  simp [settle, hst, hs]

/-- R91: the three other codes of a configuration the model accepts, and every status that is no code, are not the
Check's. -/
theorem status_ne_stCheck {c : Config} {st : Byte} (hw : c.wf = true)
    (hst : st = c.stAck ∨ st = c.stRequest ∨ st = c.stResponse ∨ c.wireStatus st = false) : st ≠ c.stCheck := by
  have hd := (nodup_five_iff ..).1 (Config.wf_statuses hw)
  simp only [not_or] at hd
  obtain ⟨-, -, -, -, hAck, hReq, hResp, -, -, -⟩ := hd
  rintro rfl
  rcases hst with h | h | h | h
  · exact hAck h
  · exact hReq h
  · exact hResp h
  · simp [Config.wireStatus] at h

/-- R108, R161: a run of bytes that RX takes to the last is a whole frame taken from the port. -/
theorem deliverFrame_of_deliverBytes {bs : List Byte} {s u : State} (h : deliverBytes bs 0 s = .ok (u, [])) :
    deliverFrame bs s = .next (takeRx bs.length u) := by
  rw [deliverFrame, h]
  rfl

/-- R108, R170: a valid frame other than a Check, delivered whole to an Idle reassembler and an empty slot, fills the
slot with its header and payload. -/
theorem deliverFrame_publishes {s : State} {st : Byte} {h : FrameFields} {p : List Byte}
    (hk : s.rsm.ckaPending = false) (hn : s.rsm.bytesRead = 0) (hv : s.rsm.frameValid = true)
    (hl : h.lengthOk p = true) (hst : st ≠ s.cfg.stCheck)
    (hd : h.destination = s.conn.ownAddr ∨ h.destination = s.cfg.addrBroadcast)
    (hc : checksumOk (h.header st) = true) (hs : s.slot.hasPacket = false) :
    ∃ t, deliverFrame (frameBytes st h p) s = .next t ∧
      t.slot = ⟨true, Memory.fromBytes 0 (h.header st).bytes, Memory.fromBytes 0 p⟩ ∧
      t.rsm.ckaPending = false ∧ t.rsm.ckaFrame = s.rsm.ckaFrame ∧ t.cfg = s.cfg ∧ t.conn = s.conn ∧ t.seq = s.seq ∧
      t.ports = { s.ports with rxPort := t.ports.rxPort, skips := t.ports.skips } := by
  obtain ⟨hm, pm, hdel⟩ := deliverBytes_valid s (h.header st) p hk hn hv (beq_iff_eq.1 hl) hd hc
  rw [settle_publish p] at hdel
  · exact ⟨_, deliverFrame_of_deliverBytes hdel, rfl, hk, rfl, rfl, rfl, rfl, rfl⟩
  · exact hst
  · exact hs

/-- Settles O22: each of the four rows delivers its frame, whose status is not the Check's. -/
theorem frameIsPublished : Obligations.FrameIsPublished := by
  intro s i st h p hw hk hn hv hl hi hd hc hs
  have hst : st ≠ s.cfg.stCheck := status_ne_stCheck hw (by tauto)
  have hx : exec i s = deliverFrame (frameBytes st h p) s := by
    rcases hi with ⟨rfl, rfl⟩ | ⟨rfl, rfl⟩ | ⟨rfl, rfl⟩ | ⟨rfl, -⟩ <;> rfl
  obtain ⟨t, ht, hslot, hrest⟩ := deliverFrame_publishes hk hn hv hl hst hd hc hs
  refine ⟨t, hx.trans ht, by rw [hslot], fun j => ?_, fun j => ?_, hrest⟩
  · rw [hslot, Memory.read_fromBytes_zero]
  · rw [hslot, Memory.read_fromBytes_zero]

end Machine
end Sys2Proof
end

section
/-! The family of 40_checksum.md: the checksum as a fold over the wire bytes (R120 to R122), what a change of one byte
does to it (R124), and that every frame the block builds or transmits carries the right one (R123, R126). -/
namespace Sys2Proof.Machine

/-! ### The checksum as a fold over the wire bytes -/

/-- Settles O8: the fold starts at 0x00, the model's XOR ends with it. -/
theorem checksumIsXorOfSixBytes : Obligations.ChecksumIsXorOfSixBytes := by
  intro h
  simp [checksum, Header.bytes]

/-- R120: the fold over all seven bytes goes on from the checksum with the checksum byte. -/
theorem foldl_xor_bytes (h : Header) : h.bytes.foldl (· ^^^ ·) 0x00 = checksum h ^^^ h.checksum := by
  rw [checksumIsXorOfSixBytes h]
  rfl

theorem checksumOk_iff (h : Header) : checksumOk h = true ↔ checksum h = h.checksum := beq_iff_eq

/-- Settles O9: two bytes cancel exactly when they are equal. -/
theorem headerPassesIffSevenBytesCancel : Obligations.HeaderPassesIffSevenBytesCancel := by
  intro h
  rw [checksumOk_iff, foldl_xor_bytes]
  exact BitVec.xor_eq_zero_iff.symm

/-! ### A change of one byte -/

/-- A byte a fold starts with is taken out again by one more XOR. -/
theorem foldl_xor_cancel (l : List Byte) (a b : Byte) : l.foldl (· ^^^ ·) (a ^^^ b) ^^^ b = l.foldl (· ^^^ ·) a := by
  rw [BitVec.xor_comm a b, List.foldl_assoc, BitVec.xor_comm, ← BitVec.xor_assoc, BitVec.xor_self, BitVec.zero_xor]

/-- Apart from the byte at `k`, a list and the list with another byte there have the same XOR. -/
theorem foldl_xor_set (l : List Byte) (a b : Byte) {k : Nat} (hk : k < l.length) :
    (l.set k b).foldl (· ^^^ ·) a ^^^ b = l.foldl (· ^^^ ·) a ^^^ l[k] := by
  induction l generalizing a k with
  | nil => simp at hk
  | cons x xs ih =>
    cases k with
    | zero => exact (foldl_xor_cancel xs a b).trans (foldl_xor_cancel xs a x).symm
    | succ k => exact ih (a ^^^ x) (Nat.lt_of_succ_lt_succ hk)

/-- Settles O10: if the changed header passed too, the new byte would be the old one. -/
theorem singleByteChangeIsDetected : Obligations.SingleByteChangeIsDetected := by
  intro h h' k b hk hpass hb hset
  have hlen : k < h.bytes.length := hk
  by_contra hpass'
  rw [Bool.not_eq_false, headerPassesIffSevenBytesCancel, hset] at hpass'
  rw [headerPassesIffSevenBytesCancel] at hpass
  have hsame := foldl_xor_set h.bytes 0x00 b hlen
  rw [hpass, hpass', BitVec.xor_right_inj] at hsame
  exact hb (by rw [List.getElem?_eq_getElem hlen, hsame])

/-! ### The frames the block builds -/

/-- Settles O11: each of the three is a sealed header. -/
theorem builtFramesPass : Obligations.BuiltFramesPass :=
  ⟨fun _ _ _ _ _ _ => sealHeader_ok _, fun _ _ _ => sealHeader_ok _, fun _ _ _ => sealHeader_ok _⟩

/-! ### The frames the block transmits -/

/-- From `s` to `t` the parameters stay and TX takes at most one frame, which the block may hand to it (R123). -/
structure TransmitsOk (s t : State) : Prop where
  cfg : t.cfg = s.cfg
  txStream : t.ports.txStream = s.ports.txStream ∨
    ∃ p a, frameOk s.cfg p = true ∧ t.ports.txStream = s.ports.txStream ++ [⟨p.wire, a⟩]

theorem TransmitsOk.streamOk {s t : State} (h : TransmitsOk s t) (hs : TxStreamOk s.cfg s.ports.txStream) :
    TxStreamOk t.cfg t.ports.txStream := by
  rw [h.cfg]
  rcases h.txStream with he | ⟨p, a, hp, he⟩ <;> rw [he]
  · exact hs
  · intro w hw
    rcases List.mem_append.1 hw with hw | hw
    · exact hs w hw
    · exact ⟨p, hp, by rw [List.mem_singleton.1 hw]⟩

theorem TransmitsOk.refl (s : State) : TransmitsOk s s := ⟨rfl, .inl rfl⟩

theorem IssueFrame.transmitsOk {s t : State} (h : IssueFrame s t) : TransmitsOk s t := ⟨h.cfg, .inl h.txStream⟩

theorem ReceiveFrame.transmitsOk {s t : State} (h : ReceiveFrame s t) : TransmitsOk s t := ⟨h.cfg, .inl h.txStream⟩

/-- R203: SEQ_TX writes `txf`, which the invariant keeps fit for TX. -/
theorem execTxFrame_transmitsOk {s t : State} (hs : s.Inv) (h : execTxFrame s = .next t) : TransmitsOk s t := by
  rcases execTxFrame_cases h with rfl | h
  · exact .refl _
  · obtain ⟨f, hf, hframe, htx, -⟩ := seqTx_frame h
    exact ⟨hframe.cfg, .inr ⟨f, _, hs.seq.txf_ok f hf, htx⟩⟩

/-- R152: CKA_TX writes the pending acknowledgement, which the invariant keeps fit for TX. -/
theorem execCkaTx_transmitsOk {s t : State} (hs : s.Inv) (h : execCkaTx s = .next t) : TransmitsOk s t := by
  rcases execCkaTx_cases h with rfl | ⟨hd, hk, hf, rfl⟩
  · exact .refl _
  · obtain ⟨hd', hf', hok⟩ := hs.rsm.cka_frame hk
    obtain rfl : hd = hd' := Option.some.inj (hf.symm.trans hf')
    exact ⟨rfl, .inr ⟨⟨hd, []⟩, nextTxAnswer s, hok, rfl⟩⟩

/-- R200: a host row writes what an issue may. -/
theorem exec_hostRow_frame {i : Instr} {s t : State} (hi : i.hostRow = true) (h : exec i s = .next t) :
    IssueFrame s t := by
  cases i
  case send | waitForPacket | getRequest | sendResponse | getResponse | probe | acknowledge =>
    simp only [exec] at h
    exact issue_frame h fun _ => ⟨rfl, rfl, rfl, rfl, .inl rfl⟩
  case setAddress | getAddress =>
    simp only [exec] at h
    exact issue_frame h fun _ => ⟨rfl, rfl, rfl, rfl, .inr ⟨_, rfl, by simp⟩⟩
  case reserved0 | reservedA | reservedB | reservedC | reservedD | reservedE | reservedF | reservedRsv =>
    exact (issueIllegal_frame h).1
  all_goals exact absurd hi (by simp [Instr.hostRow])

/-- Of all instructions TX_FRAME and CKA_TX alone write to TX, each a frame fit for it. -/
theorem exec_transmitsOk {i : Instr} {s t : State} (hs : s.Inv) (h : exec i s = .next t) : TransmitsOk s t := by
  cases i
  case frameCheck | frameAck | frameRequest | frameResponse | frameOtherStatus =>
    exact (deliverFrame_frame h).transmitsOk
  case rxByte => exact (execRxByte_frame h).transmitsOk
  case txFrame => exact execTxFrame_transmitsOk hs h
  case ckaTx => exact execCkaTx_transmitsOk hs h
  case tick =>
    obtain ⟨hframe, hports⟩ := execTick_frame h
    exact ⟨hframe.cfg, .inl (by rw [hports])⟩
  case reset => cases h; exact ⟨rfl, .inl rfl⟩
  all_goals exact (exec_hostRow_frame rfl h).transmitsOk

/-- Settles O48: an instruction transmits at most a frame fit for TX; a poll and a withheld byte transmit nothing. -/
theorem transmittedFramesAreWellFormed : Obligations.TransmittedFramesAreWellFormed := by
  intro s t hs hok h
  have htx : TransmitsOk (takeTurn s) t := by
    rcases step_cases h with ⟨i, -, h⟩ | ⟨-, h⟩ | ⟨-, rfl⟩ | rfl
    · exact exec_transmitsOk (takeTurn_inv hs) h
    · obtain ⟨hframe, hstream, -, -⟩ := seqPoll_frame h
      exact ⟨hframe.cfg, .inl hstream⟩
    · exact ⟨rfl, .inl rfl⟩
    · exact .refl _
  exact htx.streamOk hok

end Sys2Proof.Machine
end

section
/-! The family of 41_reassembler.md: what a received byte does (R140 to R151), that a pending Check acknowledgement
holds RX and SEQ_TX until CKA_TX lifts it (R152, R153), and what a frame delivered whole accounts for (R161, R162). -/
namespace Sys2Proof.Machine

/-! ### A pending Check acknowledgement holds -/

theorem execRxByte_held {s : State} (e : Bool) (b : Byte) (hk : s.rsm.ckaPending = true) :
    execRxByte e b s = .next s := by
  simp [execRxByte, rxEnabled, hk, hold]

theorem deliverBytes_held {s : State} (b : Byte) (bs : List Byte) (hk : s.rsm.ckaPending = true) :
    deliverBytes (b :: bs) 0 s = .ok (s, b :: bs) := by
  simp [deliverBytes, rxEnabled, hk]

/-- R153: RX takes no byte of a frame, so all of it stays at the port. -/
theorem deliverFrame_held {s : State} (st : Byte) (h : FrameFields) (p : List Byte) (hk : s.rsm.ckaPending = true) :
    deliverFrame (frameBytes st h p) s = .next s := by
  have hd : deliverBytes (frameBytes st h p) 0 s = .ok (s, frameBytes st h p) := deliverBytes_held _ _ hk
  simp [deliverFrame, hd, outcomeOf, takeRx]

theorem execTxFrame_held {s : State} (hk : s.rsm.ckaPending = true) : execTxFrame s = .next s := by
  simp [execTxFrame, seqTxEnabled, hk, hold]

/-- Settles O12: none of the seven steps is enabled. -/
theorem pendingCheckAckHoldsRxAndTx : Obligations.PendingCheckAckHoldsRxAndTx := fun _ e b st h p hk =>
  ⟨execRxByte_held e b hk, deliverFrame_held _ h p hk, deliverFrame_held _ h p hk, deliverFrame_held _ h p hk,
    deliverFrame_held _ h p hk, deliverFrame_held st h p hk, execTxFrame_held hk⟩

/-! ### One received byte -/

/-- `s` with a byte taken from the RX stream and its prior error accounted for (R142). -/
def byteTaken (e : Bool) (s : State) : State :=
  { takeRx 1 s with rsm := { s.rsm with frameValid := stillValid e s } }

theorem execRxByte_of_rxStep {e : Bool} {b k : Byte} {s t : State} (hk : s.rsm.ckaPending = false)
    (h : rxStep e b (takeRx 1 s) = .ok (t, k)) : execRxByte e b s = .next (answerSkip k t) := by
  simp [execRxByte, rxEnabled, hk, deliverByte, h]

/-- R140: when RX is enabled, its step is what a received byte did. -/
theorem execRxByte_enabled {e : Bool} {b : Byte} {s t : State} (hk : s.rsm.ckaPending = false)
    (h : execRxByte e b s = .next t) : ∃ u k, rxStep e b (takeRx 1 s) = .ok (u, k) ∧ t = answerSkip k u := by
  simp only [execRxByte, rxEnabled, hk, Bool.not_false, if_true, outcomeOf_eq_next] at h
  obtain ⟨⟨v, k⟩, hd, hv⟩ := bind_eq_ok.1 h
  cases hv
  obtain ⟨u, hr, rfl, -⟩ := deliverByte_frame hd
  exact ⟨u, k, hr, rfl⟩

/-- R140, R141: in the header phase a byte is a header byte. -/
theorem execRxByte_header {e : Bool} {b k : Byte} {s t : State} (hk : s.rsm.ckaPending = false)
    (hn : s.rsm.bytesRead < 7) (h : headerByte b (byteTaken e s) = .ok (t, k)) :
    execRxByte e b s = .next (answerSkip k t) :=
  execRxByte_of_rxStep hk ((rxStep_eq e b (takeRx 1 s)).trans ((if_pos hn).trans h))

/-- R140, R146: in the payload phase a byte is a payload byte. -/
theorem execRxByte_payload {e : Bool} {b k : Byte} {s t : State} (hk : s.rsm.ckaPending = false)
    (hn : 7 ≤ s.rsm.bytesRead) (h : payloadByte b (byteTaken e s) = .ok (t, k)) :
    execRxByte e b s = .next (answerSkip k t) :=
  execRxByte_of_rxStep hk ((rxStep_eq e b (takeRx 1 s)).trans ((if_neg (Nat.not_lt.2 hn)).trans h))

/-- Settles O13: the byte is a header byte before the seventh. -/
theorem headerByteIsStored : Obligations.HeaderByteIsStored := by
  intro s e b d hk hn hd
  refine ⟨s.rsm.hdrBuf.write s.rsm.bytesRead b, Memory.read_write_same ..,
    fun a ha => Memory.read_write_other _ _ ha, ?_⟩
  exact execRxByte_header hk (by omega) (headerByte_early b (takeRx 1 s) (stillValid e s) d hn hd)

/-- Settles O16: the byte is a payload byte before the last. -/
theorem payloadByteIsStored : Obligations.PayloadByteIsStored := by
  intro s e b l hk hn hr hl
  refine ⟨s.rsm.payBuf.write (s.rsm.bytesRead - 7) b, Memory.read_write_same ..,
    fun a ha => Memory.read_write_other _ _ ha, ?_⟩
  exact execRxByte_payload hk hn (payloadByte_early b (takeRx 1 s) (stillValid e s) l hn hr hl)

/-! ### The seventh byte -/

/-- `s` with the seventh header byte `b` in, and `v` for `frame_valid` (R144). -/
def headerRead (b : Byte) (v : Bool) (s : State) : State :=
  { takeRx 1 s with rsm := { s.rsm with bytesRead := 7, hdrBuf := s.rsm.hdrBuf.write 6 b, frameValid := v } }

/-- R145: a seventh byte that leaves the frame invalid ends it and answers the length. -/
theorem headerByte_invalid {e : Bool} {b : Byte} {s : State} {h : Header} (hn : s.rsm.bytesRead = 6)
    (hh : (s.rsm.hdrBuf.write 6 b).header? = some h) (hv : (stillValid e s && checksumOk h) = false) :
    headerByte b (byteTaken e s) = .ok (toIdle (headerRead b false s), h.length) := by
  have h7 := headerByte_last b (takeRx 1 s) (stillValid e s) h hn hh
  rw [hv] at h7
  exact h7

/-- R144: a seventh byte that leaves the frame valid enters the payload phase, or completes a frame of length 0. -/
theorem headerByte_valid {e : Bool} {b : Byte} {s : State} {h : Header} (hn : s.rsm.bytesRead = 6)
    (hh : (s.rsm.hdrBuf.write 6 b).header? = some h) (hv : stillValid e s = true) (hc : checksumOk h = true) :
    headerByte b (byteTaken e s) =
      if h.length = 0 then (do let t ← complete (headerRead b true s); .ok (t, 0))
      else .ok (headerRead b true s, 0) := by
  have h7 := headerByte_last b (takeRx 1 s) (stillValid e s) h hn hh
  rw [hv, hc] at h7
  rw [byteTaken, hv]
  exact h7

/-- Settles O14: the seventh byte of an invalid header. -/
theorem invalidHeaderAnswersItsLength : Obligations.InvalidHeaderAnswersItsLength := by
  intro s e b h hk hn hh hv
  exact execRxByte_header hk (by omega) (headerByte_invalid hn hh hv)

/-- Settles O15: the seventh byte of a valid header with a payload to come. -/
theorem validHeaderEntersPayload : Obligations.ValidHeaderEntersPayload := by
  intro s e b h hk hn hh hv hc hl
  have hb := headerByte_valid hn hh hv hc
  rw [if_neg hl] at hb
  have hvalid : s.rsm.frameValid = true := by
    rw [stillValid, Bool.and_eq_true] at hv
    exact hv.1
  refine (execRxByte_header hk (by omega) hb).trans ?_
  simp only [headerRead, ← hvalid]
  rfl

/-! ### The end of a frame -/

@[simp] theorem settle_cfg (h : Header) (data : List Byte) (s : State) : (settle h data s).cfg = s.cfg := by
  unfold settle; split_ifs <;> rfl

@[simp] theorem settle_conn (h : Header) (data : List Byte) (s : State) : (settle h data s).conn = s.conn := by
  unfold settle; split_ifs <;> rfl

@[simp] theorem settle_seq (h : Header) (data : List Byte) (s : State) : (settle h data s).seq = s.seq := by
  unfold settle; split_ifs <;> rfl

@[simp] theorem settle_ports (h : Header) (data : List Byte) (s : State) : (settle h data s).ports = s.ports := by
  unfold settle; split_ifs <;> rfl

@[simp] theorem settle_bytesRead (h : Header) (data : List Byte) (s : State) : (settle h data s).rsm.bytesRead = 0 :=
  rfl

@[simp] theorem settle_frameValid (h : Header) (data : List Byte) (s : State) :
    (settle h data s).rsm.frameValid = true :=
  rfl

/-- R149: a valid Check is acknowledged, whether the slot is full or not. -/
theorem settle_check {h : Header} {s : State} (data : List Byte) (hst : h.status = s.cfg.stCheck) :
    settle h data s = toIdle (queueCheckAck h s) := by
  simp [settle, hst]

/-- R171: a valid frame other than a Check that finds the slot full is discarded. -/
theorem settle_full {h : Header} {s : State} (data : List Byte) (hst : h.status ≠ s.cfg.stCheck)
    (hs : s.slot.hasPacket = true) : settle h data s = toIdle s := by
  simp [settle, hst, hs]

/-- R149: the Acknowledge of a Check is sealed with the XOR of its first six bytes. -/
theorem checkAckHeader_eq (c : Config) (own : Byte) (h : Header) :
    checkAckHeader c own h = sealedHeader h.source own c.stAck c.cmdNone h.id 0x00 := by
  simp [checkAckHeader, sealHeader, checksum, sealedHeader]

/-- `u` is `s` with the last byte of a frame taken and stored, before the frame is completed. -/
structure LastByteStored (e : Bool) (s u : State) : Prop where
  cfg : u.cfg = s.cfg
  conn : u.conn = s.conn
  seq : u.seq = s.seq
  slot : u.slot = s.slot
  ports : u.ports = (takeRx 1 s).ports
  ckaPending : u.rsm.ckaPending = s.rsm.ckaPending
  ckaFrame : u.rsm.ckaFrame = s.rsm.ckaFrame

/-- R144, R147: the seventh byte of a valid frame of length 0. -/
theorem execRxByte_completes_header {e : Bool} {b : Byte} {s : State} {h : Header} (hk : s.rsm.ckaPending = false)
    (hn : s.rsm.bytesRead = 6) (hh : (s.rsm.hdrBuf.write 6 b).header? = some h) (hl : h.length = 0)
    (hc : checksumOk h = true) (hv : stillValid e s = true) :
    ∃ u, LastByteStored e s u ∧ execRxByte e b s = .next (answerSkip 0 (settle h [] u)) := by
  refine ⟨headerRead b true s, ⟨rfl, rfl, rfl, rfl, rfl, rfl, rfl⟩, execRxByte_header hk (by omega) ?_⟩
  have hcomp : complete (headerRead b true s) = .ok (settle h [] (headerRead b true s)) :=
    complete_eq _ h [] (fun _ => hh) (fun _ => by simp [hl, Memory.readRange])
  rw [headerByte_valid hn hh hv hc, if_pos hl, hcomp, ok_bind]

/-- `s` with the payload byte `b` in, and `v` for `frame_valid` (R146). -/
def payloadRead (b : Byte) (v : Bool) (s : State) : State :=
  { takeRx 1 s with rsm := { s.rsm with
      bytesRead := s.rsm.bytesRead + 1, payBuf := s.rsm.payBuf.write (s.rsm.bytesRead - 7) b, frameValid := v } }

/-- R146, R147: the last byte of a payload. -/
theorem execRxByte_completes_payload {e : Bool} {b : Byte} {s : State} {h : Header} {data : List Byte}
    (hk : s.rsm.ckaPending = false) (hn : 7 ≤ s.rsm.bytesRead) (hh : s.rsm.hdrBuf.header? = some h)
    (hl : s.rsm.bytesRead + 1 = 7 + h.length.toNat)
    (hd : (s.rsm.payBuf.write (s.rsm.bytesRead - 7) b).readRange 0 h.length.toNat = some data) :
    ∃ u, LastByteStored e s u ∧
      execRxByte e b s = .next (answerSkip 0 (if stillValid e s then settle h data u else toIdle u)) := by
  let u := payloadRead b (stillValid e s) s
  have hcomp : complete u = .ok (if stillValid e s then settle h data u else toIdle u) :=
    complete_eq u h data (fun _ => hh) (fun _ => hd)
  have hb : payloadByte b (byteTaken e s) = (do let t ← complete u; .ok (t, 0)) :=
    payloadByte_last b (takeRx 1 s) (stillValid e s) h.length hn (Memory.header?_length hh) hl
  rw [hcomp, ok_bind] at hb
  exact ⟨u, ⟨rfl, rfl, rfl, rfl, rfl, rfl, rfl⟩, execRxByte_payload hk hn hb⟩

/-- Settles O17: both forms complete the frame, and the settlement has one case for each outcome. -/
theorem lastByteCompletesTheFrame : Obligations.LastByteCompletesTheFrame := by
  intro s e b h data hk hlast
  obtain ⟨u, hu, hx⟩ : ∃ u, LastByteStored e s u ∧
      execRxByte e b s = .next (answerSkip 0 (if stillValid e s then settle h data u else toIdle u)) := by
    rcases hlast with ⟨hn, hh, hl, hc, hv, rfl⟩ | ⟨hn, hh, hl, hd⟩
    · simpa only [hv, if_true] using execRxByte_completes_header hk hn hh hl hc hv
    · exact execRxByte_completes_payload hk hn hh hl hd
  obtain ⟨hcfg, hconn, hseq, hslot, hports, hpending, hframe⟩ := hu
  rw [hk] at hpending
  refine ⟨_, hx, ?_⟩
  cases hv : stillValid e s
  case false => simp [hcfg, hconn, hseq, hslot, hports, hpending, hframe, rxAnswered]
  case true =>
    rw [if_pos rfl]
    refine ⟨by simp [hcfg], by simp [hconn], by simp [hseq], by simp [hports, rxAnswered], rfl, rfl,
      fun _ hst => ?check, fun _ hst hs => ?publish, fun _ hst hs => ?full, by simp⟩
    case check =>
      rw [settle_check data (hcfg ▸ hst)]
      exact ⟨hslot, rfl, by simp [checkAckHeader_eq, hcfg, hconn]⟩
    case publish =>
      rw [settle_publish data (hcfg ▸ hst) (hslot ▸ hs)]
      exact ⟨hpending, hframe, rfl, Memory.read_fromBytes_zero _, Memory.read_fromBytes_zero _⟩
    case full =>
      rw [settle_full data (hcfg ▸ hst) (hslot ▸ hs)]
      exact ⟨hslot, hpending, hframe⟩

/-! ### RX and the sequencer -/

/-- `s` with other sequencer registers. -/
def withSeq (q : Sequencer) (s : State) : State := { s with seq := q }

section
variable {q : Sequencer} {s t : State} {b k : Byte}

theorem complete_withSeq (h : complete s = .ok t) : complete (withSeq q s) = .ok (withSeq q t) := by
  rcases complete_cases h with ⟨hv, rfl⟩ | ⟨hd, hv, hh, ⟨hst, rfl⟩ | ⟨hst, hs, rfl⟩ | ⟨hst, hs, data, hp, rfl⟩⟩
  · simp [complete, withSeq, hv, toIdle]
  · simp [complete, withSeq, hv, hh, hst, toIdle, queueCheckAck]
  · simp [complete, withSeq, hv, hh, hst, hs, toIdle]
  · simp [complete, withSeq, hv, hh, hst, hs, hp, readPacket, toIdle, publish]

theorem checkDestination_withSeq (h : checkDestination s = .ok t) :
    checkDestination (withSeq q s) = .ok (withSeq q t) := by
  obtain ⟨d, hd, rfl⟩ := checkDestination_cases h
  by_cases hok : destOk s.cfg s.conn.ownAddr d = true <;> simp [checkDestination, withSeq, hd, hok, markInvalid]

theorem finishHeader_withSeq (h : finishHeader s = .ok (t, k)) :
    finishHeader (withSeq q s) = .ok (withSeq q t, k) := by
  obtain ⟨hd, hh, h⟩ := bind_eq_ok.1 h
  refine bind_eq_ok.2 ⟨hd, hh, ?_⟩
  have hmark : (if checksumOk hd then withSeq q s else markInvalid (withSeq q s)) =
      withSeq q (if checksumOk hd then s else markInvalid s) := by
    split <;> rfl
  dsimp only at h ⊢
  rw [hmark]
  revert h
  generalize (if checksumOk hd then s else markInvalid s) = u
  intro h
  split at h
  case isTrue hv =>
    refine (if_pos hv).trans ?_
    split at h
    case isTrue hl =>
      obtain ⟨v, hc, h⟩ := bind_eq_ok.1 h
      cases h
      rw [if_pos hl, complete_withSeq hc, ok_bind]
    case isFalse hl =>
      cases h
      rw [if_neg hl]
  case isFalse hv =>
    cases h
    exact if_neg hv

theorem headerByte_withSeq (h : headerByte b s = .ok (t, k)) : headerByte b (withSeq q s) = .ok (withSeq q t, k) := by
  obtain ⟨m, hm, h⟩ := bind_eq_ok.1 h
  refine bind_eq_ok.2 ⟨m, hm, ?_⟩
  dsimp only at h ⊢
  split at h
  case isTrue h2 =>
    obtain ⟨v, hc, h⟩ := bind_eq_ok.1 h
    cases h
    exact (if_pos h2).trans (bind_eq_ok.2 ⟨_, checkDestination_withSeq hc, rfl⟩)
  case isFalse h2 =>
    refine (if_neg h2).trans ?_
    split at h
    case isTrue h7 => exact (if_pos h7).trans (finishHeader_withSeq h)
    case isFalse h7 =>
      cases h
      exact if_neg h7

theorem payloadByte_withSeq (h : payloadByte b s = .ok (t, k)) :
    payloadByte b (withSeq q s) = .ok (withSeq q t, k) := by
  obtain ⟨m, hm, h⟩ := bind_eq_ok.1 h
  obtain ⟨l, hl, h⟩ := bind_eq_ok.1 h
  refine bind_eq_ok.2 ⟨m, hm, bind_eq_ok.2 ⟨l, hl, ?_⟩⟩
  dsimp only at h ⊢
  split at h
  case isTrue hend =>
    obtain ⟨v, hc, h⟩ := bind_eq_ok.1 h
    cases h
    exact (if_pos hend).trans (bind_eq_ok.2 ⟨_, complete_withSeq hc, rfl⟩)
  case isFalse hend =>
    cases h
    exact if_neg hend

/-- R227: the RX step takes the sequencer registers along unread. -/
theorem rxStep_withSeq {e : Bool} (h : rxStep e b s = .ok (t, k)) :
    rxStep e b (withSeq q s) = .ok (withSeq q t, k) := by
  rw [rxStep_eq] at h ⊢
  split at h
  case isTrue hn => exact (if_pos hn).trans (headerByte_withSeq h)
  case isFalse hn => exact (if_neg hn).trans (payloadByte_withSeq h)

end

/-- Settles O18: the enabling condition does not read the sequencer, and neither does the step. -/
theorem rxDoesNotReadTheSequencer : Obligations.RxDoesNotReadTheSequencer := by
  intro s t q e b h
  change execRxByte e b s = .next t at h
  change execRxByte e b (withSeq q s) = .next (withSeq q t)
  cases hk : s.rsm.ckaPending
  case true =>
    rw [execRxByte_held e b hk] at h
    cases h
    exact execRxByte_held e b hk
  case false =>
    obtain ⟨u, k, hr, rfl⟩ := execRxByte_enabled hk h
    exact execRxByte_of_rxStep (s := withSeq q s) hk (rxStep_withSeq hr)

/-! ### CKA_TX -/

/-- R152: the pending acknowledgement is written, whatever the answer. -/
theorem execCkaTx_pending {s : State} {h : Header} (hk : s.rsm.ckaPending = true) (hf : s.rsm.ckaFrame = some h) :
    execCkaTx s = .next { txWrite h.bytes s with rsm := { s.rsm with ckaPending := false } } := by
  simp [execCkaTx, ckaEnabled, hk, hf, outcomeOf]

theorem execCkaTx_held {s : State} (hk : s.rsm.ckaPending = false) : execCkaTx s = .next s := by
  simp [execCkaTx, ckaEnabled, hk, hold]

/-- Settles O19: the one step with the flag set, the other without. -/
theorem checkAckIsWrittenOnce : Obligations.CheckAckIsWrittenOnce := fun _ _ =>
  ⟨execCkaTx_pending, execCkaTx_held⟩

/-! ### Whole frames -/

/-- Settles O20: the run of bytes of a valid header, and the one of an invalid header. -/
theorem frameConsumptionLaw : Obligations.FrameConsumptionLaw := by
  intro s i st h p hk hn hv hl hi
  have hx : exec i s = deliverFrame (frameBytes st h p) s := by
    rcases hi with ⟨rfl, rfl⟩ | ⟨rfl, rfl⟩ | ⟨rfl, rfl⟩ | ⟨rfl, rfl⟩ | rfl <;> rfl
  have hp : p.length = h.length.toNat := beq_iff_eq.1 hl
  have hlen : (frameBytes st h p).length = 7 + h.length.toNat := by simp [frameBytes, hp]
  rw [hx]
  split
  case isTrue hvalid =>
    obtain ⟨hm, pm, hdel⟩ := deliverBytes_valid s (h.header st) p hk hn hv hp hvalid.1 hvalid.2
    refine ⟨_, deliverFrame_of_deliverBytes hdel, rfl, rfl, by simp [hlen], ?_⟩
    have hzeros : List.replicate (6 + h.length.toNat) (0 : Byte) ++ [0] = List.replicate (7 + h.length.toNat) 0 := by
      rw [← List.replicate_succ', Nat.add_right_comm]
    simpa [FrameFields.header] using hzeros
  case isFalse hinvalid =>
    have hd : ((h.destination == s.conn.ownAddr || h.destination == s.cfg.addrBroadcast) &&
        checksumOk (h.header st)) = false := by
      simpa [← Bool.not_eq_true] using hinvalid
    obtain ⟨hm, hdel⟩ := deliverBytes_invalid s (h.header st) p hk hn hv hp hd
    exact ⟨_, deliverFrame_of_deliverBytes hdel, rfl, rfl, by simp [hlen], by simp [FrameFields.header]⟩

/-- R149, R157: a valid Check, delivered whole to an Idle reassembler, leaves its Acknowledge pending and the slot as it
was. -/
theorem deliverFrame_queuesAck {s : State} {h : FrameFields} {p : List Byte} (hk : s.rsm.ckaPending = false)
    (hn : s.rsm.bytesRead = 0) (hv : s.rsm.frameValid = true) (hl : h.lengthOk p = true)
    (hd : h.destination = s.conn.ownAddr ∨ h.destination = s.cfg.addrBroadcast)
    (hc : checksumOk (h.header s.cfg.stCheck) = true) :
    ∃ t, deliverFrame (frameBytes s.cfg.stCheck h p) s = .next t ∧ t.slot = s.slot ∧ t.conn = s.conn ∧
      t.seq = s.seq ∧ t.cfg = s.cfg ∧ t.ports.txStream = s.ports.txStream ∧ t.rsm.ckaPending = true ∧
      t.rsm.ckaFrame = some (sealedHeader h.source s.conn.ownAddr s.cfg.stAck s.cfg.cmdNone h.id 0x00) := by
  obtain ⟨hm, pm, hdel⟩ := deliverBytes_valid s (h.header s.cfg.stCheck) p hk hn hv (beq_iff_eq.1 hl) hd hc
  rw [settle_check p rfl] at hdel
  exact ⟨_, deliverFrame_of_deliverBytes hdel, rfl, rfl, rfl, rfl, rfl, rfl, congrArg some (checkAckHeader_eq ..)⟩

/-- Settles O21: the frame leaves its Acknowledge pending, which CKA_TX writes. -/
theorem checkFrameLaw : Obligations.CheckFrameLaw := by
  intro s h p hk hn hv hl hd hc
  obtain ⟨t, ht, hslot, hconn, hseq, hcfg, htx, hpending, hframe⟩ :=
    deliverFrame_queuesAck hk hn hv hl (.inl hd) hc
  exact ⟨t, _, ht, hslot, hconn, hseq, hcfg, htx, hpending, execCkaTx_pending hpending hframe, hslot, rfl,
    congrArg (· ++ _) htx⟩

/-! ### Fair runs -/

theorem cfg_wf_of_step {s t : State} (h : step s = .next t) : s.cfg.wf = true := by
  by_contra hw
  simp [step, hw] at h

/-- R152: after CKA_TX no acknowledgement is pending. -/
theorem execCkaTx_lifts {s t : State} (h : execCkaTx s = .next t) : t.rsm.ckaPending = false := by
  unfold execCkaTx at h
  split at h
  case isTrue =>
    obtain ⟨hd, -, hw⟩ := bind_eq_ok.1 (outcomeOf_eq_next.1 h)
    cases hw
    rfl
  case isFalse he =>
    obtain rfl := (hold_eq_next s).1 h
    simpa [ckaEnabled] using he

theorem step_cka_lifts {s t : State} (h : step s = .next t) (hu : nextTurn s = .cka) : t.rsm.ckaPending = false := by
  rw [step_of_fetch_instr (cfg_wf_of_step h) hu rfl] at h
  exact execCkaTx_lifts h

/-- Settles O58: fairness to CKA_TX finds the flag cleared, or takes the step that clears it. -/
theorem fairRunLiftsTheCheckHold : Obligations.FairRunLiftsTheCheckHold := by
  intro r n hrun hfair hk
  obtain ⟨m, hm, hoff | hturn⟩ := hfair .cka (by simp [ownTurns]) n
  · have hk' : (r m).rsm.ckaPending = false := hoff
    exact ⟨m, lt_of_le_of_ne hm fun hnm => by simp [← hnm, hk] at hk', hk'⟩
  · obtain ⟨t, u, hstep, hnext⟩ := hrun m
    exact ⟨m + 1, by omega, by rw [hnext, supply_rsm]; exact step_cka_lifts hstep hturn⟩

end Sys2Proof.Machine
end

section
/-! The family of 42_receive_slot.md: the filter test (R173), a poll that misses (R175), a frame the slot does not take
(R171, R145, R151), and who writes the slot (R172). -/
namespace Sys2Proof.Machine

/-! ### A filter and a poll that misses it -/

/-- Settles O37: each field of the test is equal to the filter's, or a wildcard. -/
theorem filterMatches : Obligations.FilterMatches := by
  intro c h f
  simp only [matchesFilter, Bool.and_eq_true, Bool.or_eq_true, beq_iff_eq, and_assoc]

theorem slotMatches_empty {s : State} (hs : s.slot.hasPacket = false) : slotMatches s = .ok false := by
  simp [slotMatches, hs]

theorem slotMatches_full {s : State} {h : Header} {f : Filter} (hs : s.slot.hasPacket = true)
    (hh : s.slot.hdr.header? = some h) (hf : s.seq.flt = some f) :
    slotMatches s = .ok (matchesFilter s.cfg h f) := by
  simp [slotMatches, hs, hh, hf]

/-- R205: an empty slot is a miss, and so is a packet whose header does not match the filter. -/
theorem slotMatches_miss {s : State} {h : Header} {f : Filter} (hmiss : s.slot.hasPacket = false ∨
    s.slot.hdr.header? = some h ∧ s.seq.flt = some f ∧ matchesFilter s.cfg h f = false) :
    slotMatches s = .ok false := by
  cases hs : s.slot.hasPacket
  case false => exact slotMatches_empty hs
  case true =>
    obtain ⟨hh, hf, hm⟩ := hmiss.resolve_left (by simp [hs])
    rw [slotMatches_full hs hh hf, hm]

theorem seqPollEnabled_iff (s : State) :
    seqPollEnabled s = true ↔ (s.seq.phase = .ackWait ∨ s.seq.phase = .pktWait) ∧ s.seq.pollDue = true := by
  rw [seqPollEnabled, Bool.and_eq_true]
  cases s.seq.phase <;> simp [SeqPhase.waits]

theorem seqPoll_held {s : State} (he : seqPollEnabled s = false) : seqPoll s = .next s := by
  simp [seqPoll, he, hold]

/-- R175, R205: a miss with ticks left, or in a wait for ever, clears `poll_due` and leaves the slot. -/
theorem pollStep_miss {s : State} (hm : slotMatches s = .ok false)
    (hr : s.seq.forever = true ∨ s.seq.remaining ≠ 0) :
    pollStep s = .ok { s with seq := { s.seq with pollDue := false } } := by
  have hticks : (!s.seq.forever && s.seq.remaining == 0) = false := by
    rcases hr with hr | hr <;> simp [hr]
  simp [pollStep, hm, hticks]

/-- Settles O38: a poll is held, or an enabled one misses. -/
theorem failedPollChangesNothingElse : Obligations.FailedPollChangesNothingElse := by
  refine fun s h f => ⟨seqPoll_held, fun hp hd hmiss hr => ?_⟩
  rw [seqPoll, if_pos ((seqPollEnabled_iff s).2 ⟨hp, hd⟩), pollStep_miss (slotMatches_miss hmiss) hr]
  rfl

/-! ### Frames the slot does not take -/

/-- R108: each of the five frame rows delivers the bytes of its frame. -/
theorem exec_frameRow {s : State} {i : Instr} {st : Byte} {h : FrameFields} {p : List Byte}
    (hi : i = .frameCheck h p ∧ st = s.cfg.stCheck ∨ i = .frameAck h p ∧ st = s.cfg.stAck ∨
      i = .frameRequest h p ∧ st = s.cfg.stRequest ∨ i = .frameResponse h p ∧ st = s.cfg.stResponse ∨
      i = .frameOtherStatus st h p) : exec i s = deliverFrame (frameBytes st h p) s := by
  rcases hi with ⟨rfl, rfl⟩ | ⟨rfl, rfl⟩ | ⟨rfl, rfl⟩ | ⟨rfl, rfl⟩ | rfl <;> rfl

/-- `t` is `s` after a frame that the node drops: only the reassembler's buffers and the RX port differ. -/
structure FrameDropped (s t : State) : Prop where
  slot : t.slot = s.slot
  ckaPending : t.rsm.ckaPending = s.rsm.ckaPending
  ckaFrame : t.rsm.ckaFrame = s.rsm.ckaFrame
  cfg : t.cfg = s.cfg
  conn : t.conn = s.conn
  seq : t.seq = s.seq
  ports : t.ports = { s.ports with rxPort := t.ports.rxPort, skips := t.ports.skips }

section
variable {s : State} {st : Byte} {h : FrameFields} {p : List Byte}

/-- R145, R151: a frame for another node, or one with a wrong checksum, is dropped. -/
theorem deliverFrame_invalid (hk : s.rsm.ckaPending = false) (hn : s.rsm.bytesRead = 0)
    (hv : s.rsm.frameValid = true) (hl : h.lengthOk p = true)
    (hd : destOk s.cfg s.conn.ownAddr h.destination = false ∨ checksumOk (h.header st) = false) :
    ∃ t, deliverFrame (frameBytes st h p) s = .next t ∧ FrameDropped s t := by
  obtain ⟨hm, hdel⟩ := deliverBytes_invalid s (h.header st) p hk hn hv (beq_iff_eq.1 hl) (Bool.and_eq_false_iff.2 hd)
  exact ⟨_, deliverFrame_of_deliverBytes hdel, rfl, rfl, rfl, rfl, rfl, rfl, rfl⟩

/-- R171: a valid frame other than a Check that finds the slot full is dropped. -/
theorem deliverFrame_full (hk : s.rsm.ckaPending = false) (hn : s.rsm.bytesRead = 0)
    (hv : s.rsm.frameValid = true) (hl : h.lengthOk p = true)
    (hd : h.destination = s.conn.ownAddr ∨ h.destination = s.cfg.addrBroadcast)
    (hc : checksumOk (h.header st) = true) (hst : st ≠ s.cfg.stCheck) (hs : s.slot.hasPacket = true) :
    ∃ t, deliverFrame (frameBytes st h p) s = .next t ∧ FrameDropped s t := by
  obtain ⟨hm, pm, hdel⟩ := deliverBytes_valid s (h.header st) p hk hn hv (beq_iff_eq.1 hl) hd hc
  rw [settle_full p] at hdel
  · exact ⟨_, deliverFrame_of_deliverBytes hdel, rfl, rfl, rfl, rfl, rfl, rfl, rfl⟩
  · exact hst
  · exact hs

end

/-- Settles O23: the header is invalid, or the frame is valid and finds the slot full. -/
theorem frameIsDiscarded : Obligations.FrameIsDiscarded := by
  intro s i st h p _ hk hn hv hl hi hcause
  have hdrop : ∃ t, deliverFrame (frameBytes st h p) s = .next t ∧ FrameDropped s t := by
    by_cases hd : h.destination = s.conn.ownAddr ∨ h.destination = s.cfg.addrBroadcast
    case neg => exact deliverFrame_invalid hk hn hv hl (.inl (by simpa [destOk] using hd))
    case pos =>
      cases hc : checksumOk (h.header st)
      case false => exact deliverFrame_invalid hk hn hv hl (.inr hc)
      case true =>
        have hfull : s.slot.hasPacket = true ∧ st ≠ s.cfg.stCheck := by
          refine hcause.resolve_right ?_
          rintro (hbad | ⟨hown, hbroadcast⟩)
          · simp [hc] at hbad
          · exact hd.elim hown hbroadcast
        exact deliverFrame_full hk hn hv hl hd hc hfull.2 hfull.1
  obtain ⟨t, ht, hslot, hpending, hframe, hcfg, hconn, hseq, hports⟩ := hdrop
  exact ⟨t, (exec_frameRow (by tauto)).trans ht, hslot, hpending.trans hk, hframe, hcfg, hconn, hseq, hports⟩

/-! ### Who writes the slot -/

theorem execTxFrame_slot {s t : State} (h : execTxFrame s = .next t) : t.slot = s.slot := by
  rcases execTxFrame_cases h with rfl | h
  · rfl
  · obtain ⟨-, -, hf, -⟩ := seqTx_frame h
    exact hf.slot

theorem execCkaTx_slot {s t : State} (h : execCkaTx s = .next t) : t.slot = s.slot := by
  rcases execCkaTx_cases h with rfl | ⟨-, -, -, rfl⟩ <;> rfl

/-- Settles O52: received bytes fill an empty slot, a poll empties a full one, and every other step but RESET leaves the
slot as it was. -/
theorem slotHasSingleWriters : Obligations.SlotHasSingleWriters := by
  refine ⟨fun i s t h hne => ?_, fun s t h hne => (seqPoll_frame h).1.slot.resolve_left hne⟩
  have filled (hr : ReceiveFrame s t) : s.slot.hasPacket = false ∧ t.slot.hasPacket = true := hr.slot.resolve_left hne
  cases i
  case reset => exact .inl rfl
  case rxByte e b =>
    obtain ⟨hempty, hfull⟩ := filled (execRxByte_frame h)
    exact .inr ⟨hempty, hfull, .inl ⟨e, b, rfl⟩⟩
  case frameCheck | frameAck | frameRequest | frameResponse | frameOtherStatus =>
    obtain ⟨hempty, hfull⟩ := filled (deliverFrame_frame h)
    exact .inr ⟨hempty, hfull, .inr (by simp)⟩
  case txFrame => exact absurd (execTxFrame_slot h) hne
  case ckaTx => exact absurd (execCkaTx_slot h) hne
  case tick => exact absurd (execTick_frame h).1.slot hne
  all_goals exact absurd (exec_hostRow_frame rfl h).slot hne

end Sys2Proof.Machine
end

section
/-! The family of 43_sequencer.md: what each host command does at its issue (R202, R210 to R219), how a transmission
ends (R203, R204, R208), what a poll consumes and how a wait times out (R205 to R207), who takes an id (R192), and how
long a wait and an unanswered send last (R220, R221, R225). -/
namespace Sys2Proof.Machine

/-! ### The issue of a command -/

/-- `s` with the command taken from the host port as the outstanding one (R200). -/
def issued (op : CmdOp) (f : CmdFields) (data : List Byte) (s : State) : State :=
  { s with seq := { s.seq with cur := some ⟨op, f, data⟩ }, ports := issueTaken s.ports }

/-- R200, R202: an issue that passes its checks is dispatched. -/
theorem issue_accepted {op : CmdOp} {f : CmdFields} {s : State} (data : List Byte) (go : State → State)
    (hp : s.seq.phase = .idle) (he : issueError op f s = none) :
    issue op f data go s = .next (go (issued op f data s)) := by
  simp only [issue, issueEnabled, hp, decide_true, if_true, he]
  rfl

/-- R200, R201: the three checks an issue has to pass. -/
theorem issueError_eq_none (op : CmdOp) {f : CmdFields} {s : State}
    (hgate : op.gated = true → s.conn.isInitialized = true) (hst : op = .send → s.cfg.wireStatus f.s = true)
    (ha : op = .setAddress → s.cfg.claimable f.a = true) : issueError op f s = none := by
  rw [issueError, if_neg (by simpa using hgate), if_neg (by simpa using hst), if_neg (by simpa using ha)]

/-- R201, R265: the gate comes before every other check. -/
theorem issueError_gated {op : CmdOp} {s : State} (f : CmdFields) (hg : op.gated = true)
    (hi : s.conn.isInitialized = false) : issueError op f s = some .notInitialized := by
  simp [issueError, hg, hi]

/-- R191, R123: a built frame carries the sealed header of its operands. -/
theorem build_eq (own d st c id : Byte) (data : List Byte) :
    build own d st c id data = ⟨sealedHeader d own st c id (BitVec.ofNat 8 data.length), data⟩ := by
  simp [build, sealHeader, checksum, sealedHeader]

/-- R195: the registers of a wait, with the count of a wait for ever at 0. -/
theorem startWait_eq (ph : SeqPhase) (f : Filter) (T : Int) (s : State) :
    startWait ph f T s = { s with seq := waitingFor ph f T s.seq } := by
  have hcount : (if T < 0 then 0 else T.toNat) = T.toNat := by split <;> omega
  simp only [startWait, hcount, waitingFor]

/-- R219: an illegal encoding only answers. -/
theorem issueIllegal_of_idle {s : State} (hp : s.seq.phase = .idle) (hc : s.seq.cur = none) (hg : s.seq.got = none) :
    issueIllegal s = .next { s with ports := answeredAtIssue { code := .illegalCommand } s.ports } := by
  simp only [issueIllegal, issueEnabled, hp, decide_true, if_true, respond_takeHostOffer_of_idle _ hp hc hg]

/-- Settles O25: each of the eight rows is an illegal encoding. -/
theorem reservedEncodingsAnswerIllegalCommand : Obligations.ReservedEncodingsAnswerIllegalCommand := by
  intro s f data op rsv hp hc hg i hi
  simp only [List.mem_cons, List.not_mem_nil, or_false] at hi
  rcases hi with rfl | rfl | rfl | rfl | rfl | rfl | rfl | rfl <;> exact issueIllegal_of_idle hp hc hg

/-- Settles O26: the gate turns each of the six commands away. -/
theorem gatedCommandsAnswerNotInitialized : Obligations.GatedCommandsAnswerNotInitialized := by
  intro s f data hp hc hg hinit i hi
  simp only [List.mem_cons, List.not_mem_nil, or_false] at hi
  rcases hi with rfl | rfl | rfl | rfl | rfl | rfl <;>
    exact issue_error_of_idle data _ hp hc hg (issueError_gated f rfl hinit)

/-- R202: the issue of a command that sends its payload under the next id. -/
theorem issue_send_eq {op : CmdOp} {f : CmdFields} {s : State} (data : List Byte) (st : State → Byte)
    (hp : s.seq.phase = .idle) (he : issueError op f s = none) :
    issue op f data (fun u => startTx (build u.conn.ownAddr f.a (st u) f.c (nextId u) data) .transmit
      (firstSendTry (takeId u))) s = .next { s with
        conn := { s.conn with lastId := s.conn.lastId + 1 }
        seq := { s.seq with
          phase := .transmit, cur := some ⟨op, f, data⟩, txTry := 0, sendTry := 1
          txf := some ⟨sealedHeader f.a s.conn.ownAddr (st (issued op f data s)) f.c (s.conn.lastId + 1)
            (BitVec.ofNat 8 data.length), data⟩ }
        ports := issueTaken s.ports } := by
  rw [issue_accepted data _ hp he, build_eq]
  rfl

/-- Settles O28: the three commands differ in their status alone. -/
theorem sendCommandsStartTransmission : Obligations.SendCommandsStartTransmission := by
  intro s f data i op st hp hinit hi
  rcases hi with ⟨rfl, rfl, rfl, hst⟩ | ⟨rfl, rfl, rfl⟩ | ⟨rfl, rfl, rfl⟩
  · exact issue_send_eq data (fun _ => f.s) hp
      (issueError_eq_none .send (fun _ => hinit) (fun _ => hst) nofun)
  · exact issue_send_eq data (fun u => u.cfg.stResponse) hp
      (issueError_eq_none .sendResponse (fun _ => hinit) nofun nofun)
  · exact issue_send_eq data (fun u => u.cfg.stRequest) hp
      (issueError_eq_none .getResponse (fun _ => hinit) nofun nofun)

/-- Settles O29: PROBE passes no gate, and its Check frame carries no payload. -/
theorem probeStartsTransmission : Obligations.ProbeStartsTransmission := by
  intro s f data hp
  refine (issue_accepted data (dispatchProbe f) hp (issueError_eq_none .probe nofun nofun nofun)).trans ?_
  rw [dispatchProbe, build_eq]
  rfl

/-- Settles O30: the frame takes its id from the command. -/
theorem acknowledgeStartsTransmission : Obligations.AcknowledgeStartsTransmission := by
  intro s f data hp hinit
  refine (issue_accepted data (dispatchAcknowledge f) hp
    (issueError_eq_none .acknowledge (fun _ => hinit) nofun nofun)).trans ?_
  rw [dispatchAcknowledge, build_eq]
  rfl

/-- Settles O31: each of the two starts its wait. -/
theorem waitCommandsStartWait : Obligations.WaitCommandsStartWait := by
  intro s f data hp hinit
  constructor
  · exact (issue_accepted data _ hp (issueError_eq_none .waitForPacket (fun _ => hinit) nofun nofun)).trans
      (congrArg _ (startWait_eq ..))
  · exact (issue_accepted data _ hp (issueError_eq_none .getRequest (fun _ => hinit) nofun nofun)).trans
      (congrArg _ (startWait_eq ..))

/-- R209: the answer of a command that is dispatched and answered in one step. -/
theorem respond_issued {s : State} {op : CmdOp} {f : CmdFields} {data : List Byte} (r : Response)
    (hp : s.seq.phase = .idle) (hc : s.seq.cur = none) (hg : s.seq.got = none) :
    respond r (issued op f data s) = { s with ports := answeredAtIssue r s.ports } :=
  respond_takeHostOffer_of_idle r hp hc hg

/-- Settles O32: the range check decides over SET_ADDRESS; GET_ADDRESS passes every check. -/
theorem addressCommands : Obligations.AddressCommands := by
  intro s f data hp hc hg
  refine ⟨fun hmin hmax => ?_, (illegalOperandsAnswerIllegalCommand s f data hp hc hg).2, ?_⟩
  · have he : issueError .setAddress f s = none := issueError_eq_none .setAddress nofun nofun
      fun _ => (Config.claimable_iff ..).2 ⟨hmin, hmax⟩
    refine (issue_accepted data _ hp he).trans (congrArg _ ?_)
    exact congrArg (fun u : State => { u with conn := { s.conn with ownAddr := f.a, isInitialized := true } })
      (respond_issued { code := .ok } hp hc hg)
  · exact (issue_accepted data _ hp (issueError_eq_none .getAddress nofun nofun nofun)).trans
      (congrArg _ (respond_issued _ hp hc hg))

/-! ### One attempt of SEQ_TX -/

/-- `s` after one attempt to transmit `f` (R203). -/
def attempted (f : Packet) (s : State) : State :=
  { s with seq := { s.seq with txTry := s.seq.txTry + 1 }, ports := wrotePorts s f.wire }

@[simp] theorem attempted_cfg (f : Packet) (s : State) : (attempted f s).cfg = s.cfg := rfl
@[simp] theorem attempted_phase (f : Packet) (s : State) : (attempted f s).seq.phase = s.seq.phase := rfl
@[simp] theorem attempted_got (f : Packet) (s : State) : (attempted f s).seq.got = s.seq.got := rfl

/-- R203: no attempt is left after this one, or none is needed. -/
def LastAttempt (s : State) : Prop := nextTxAnswer s ≠ .collisionDetected ∨ s.cfg.maxTxAttempts ≤ s.seq.txTry + 1

theorem LastAttempt.not_retried {s : State} (h : LastAttempt s) :
    ¬ (nextTxAnswer s = .collisionDetected ∧ s.seq.txTry + 1 < s.cfg.maxTxAttempts) :=
  fun hr => h.elim (· hr.1) (Nat.not_le.2 hr.2)

theorem seqTxEnabled_iff (s : State) :
    seqTxEnabled s = true ↔ (s.seq.phase = .transmit ∨ s.seq.phase = .ackEmit) ∧ s.rsm.ckaPending = false := by
  rw [seqTxEnabled, Bool.and_eq_true]
  cases s.seq.phase <;> simp [SeqPhase.transmits]

/-- R203: an enabled SEQ_TX makes one attempt, and goes on from there. -/
theorem execTxFrame_enabled {s : State} {f : Packet} (hp : s.seq.phase = .transmit ∨ s.seq.phase = .ackEmit)
    (hk : s.rsm.ckaPending = false) (hf : s.seq.txf = some f) :
    execTxFrame s = outcomeOf (if nextTxAnswer s = .collisionDetected ∧ s.seq.txTry + 1 < s.cfg.maxTxAttempts
      then .ok (attempted f s)
      else if s.seq.phase = .ackEmit then ackDone (attempted f s)
      else need .cur s.seq.cur >>= fun cmd => txDone cmd f (nextTxAnswer s) (attempted f s)) := by
  rw [execTxFrame, if_pos ((seqTxEnabled_iff s).2 ⟨hp, hk⟩), seqTx, hf]
  rfl

/-- R203: a collision short of the limit is kept for the next attempt. -/
theorem execTxFrame_retries {s : State} {f : Packet} (hp : s.seq.phase = .transmit ∨ s.seq.phase = .ackEmit)
    (hk : s.rsm.ckaPending = false) (hf : s.seq.txf = some f) (hr : nextTxAnswer s = .collisionDetected)
    (hn : s.seq.txTry + 1 < s.cfg.maxTxAttempts) : execTxFrame s = .next (attempted f s) := by
  rw [execTxFrame_enabled hp hk hf, if_pos ⟨hr, hn⟩]
  rfl

/-- R203, R204: after the last attempt a command's own transmission is done. -/
theorem execTxFrame_txDone {s : State} {f : Packet} {cmd : Command} (hp : s.seq.phase = .transmit)
    (hk : s.rsm.ckaPending = false) (hf : s.seq.txf = some f) (hc : s.seq.cur = some cmd) (hl : LastAttempt s) :
    execTxFrame s = outcomeOf (txDone cmd f (nextTxAnswer s) (attempted f s)) := by
  rw [execTxFrame_enabled (.inl hp) hk hf, if_neg hl.not_retried, if_neg (by simp [hp]), hc]
  rfl

/-- Settles O33: SEQ_TX is not enabled, or its collision is retried. -/
theorem collisionIsRetried : Obligations.CollisionIsRetried := by
  refine fun s f => ⟨fun ht ha => ?_, execTxFrame_retries⟩
  have he : ¬ seqTxEnabled s = true := fun h => ((seqTxEnabled_iff s).1 h).1.elim ht ha
  exact if_neg he

/-- Settles O35: the emission ends with the packet that stands in `got`. -/
theorem acknowledgementEmissionEnds : Obligations.AcknowledgementEmissionEnds := by
  intro s f p hp hk hf hg hl
  rw [exec, execTxFrame_enabled (.inr hp) hk hf, if_neg (LastAttempt.not_retried hl), if_pos hp, ackDone,
    attempted_got, hg]
  rfl

/-! ### The end of a command's own transmission -/

theorem CmdOp.acknowledged_iff (op : CmdOp) :
    op.acknowledged = true ↔ op = .send ∨ op = .sendResponse ∨ op = .getResponse := by
  cases op <;> simp [CmdOp.acknowledged]

/-- R193: a frame wants no wait for an Acknowledge exactly when it is a control packet or a broadcast. -/
theorem wantsAckWait_eq_false_iff (c : Config) (f : Packet) : wantsAckWait c f = false ↔
    (f.hdr.status = c.stCheck ∨ f.hdr.status = c.stAck) ∨ f.hdr.destination = c.addrBroadcast := by
  simp only [wantsAckWait, isControl, Bool.and_eq_false_iff, Bool.not_eq_false', Bool.or_eq_true, beq_iff_eq,
    bne_eq_false_iff_eq]

/-- R204: SEND, SEND_RESPONSE and GET_RESPONSE report a failure, wait for their Acknowledge, or are done. -/
theorem txDone_acknowledged {cmd : Command} (f : Packet) (r : TxAnswer) (s : State)
    (hop : cmd.op.acknowledged = true) : txDone cmd f r s = .ok (
      if r ≠ .ok then respond { code := codeOfAnswer r } s
      else if wantsAckWait s.cfg f then
        startWait .ackWait (ackFilter s.cfg f.hdr.destination f.hdr.id) s.cfg.ackTimeout s
      else sentOk cmd f s) := by
  rcases (CmdOp.acknowledged_iff _).1 hop with h | h | h <;> simp only [txDone, h]

theorem sentOk_of_ne_getResponse {cmd : Command} (f : Packet) (s : State) (hop : cmd.op ≠ .getResponse) :
    sentOk cmd f s = respond { code := .ok } s := if_neg hop

theorem sentOk_broadcast {cmd : Command} {f : Packet} (s : State) (hop : cmd.op = .getResponse)
    (hd : f.hdr.destination = s.cfg.addrBroadcast) :
    sentOk cmd f s = respond { code := .ok, data := some [] } s := by
  rw [sentOk, if_pos hop, if_neg (not_not_intro hd)]

theorem sentOk_unicast {cmd : Command} {f : Packet} (s : State) (hop : cmd.op = .getResponse)
    (hd : f.hdr.destination ≠ s.cfg.addrBroadcast) :
    sentOk cmd f s = startWait .pktWait (responseFilter s.cfg cmd.f) (timeoutOf cmd.f) s := by
  rw [sentOk, if_pos hop, if_pos hd]

section
variable {s : State} {f : Packet} {cmd : Command} (hp : s.seq.phase = .transmit) (hk : s.rsm.ckaPending = false)
  (hf : s.seq.txf = some f) (hc : s.seq.cur = some cmd)
include hp hk hf hc

/-- R204: a send whose last attempt failed reports the failure. -/
theorem execTxFrame_fails (hl : LastAttempt s) (hop : cmd.op.acknowledged = true) (hr : nextTxAnswer s ≠ .ok) :
    execTxFrame s = .next (respond { code := codeOfAnswer (nextTxAnswer s) } (attempted f s)) := by
  rw [execTxFrame_txDone hp hk hf hc hl, txDone_acknowledged f _ _ hop, if_pos hr]
  rfl

/-- R204: a send whose frame wants an Acknowledge waits for it. -/
theorem execTxFrame_awaitsAck (hop : cmd.op.acknowledged = true) (hr : nextTxAnswer s = .ok)
    (hw : wantsAckWait s.cfg f = true) : execTxFrame s = .next { attempted f s with
      seq := waitingFor .ackWait (ackFilter s.cfg f.hdr.destination f.hdr.id) s.cfg.ackTimeout
        (attempted f s).seq } := by
  have hl : LastAttempt s := .inl (by simp [hr])
  rw [execTxFrame_txDone hp hk hf hc hl, txDone_acknowledged f _ _ hop, if_neg (not_not_intro hr), attempted_cfg,
    if_pos hw, startWait_eq]
  rfl

/-- R204: a send whose frame wants no Acknowledge is done. -/
theorem execTxFrame_sent (hop : cmd.op.acknowledged = true) (hr : nextTxAnswer s = .ok)
    (hw : wantsAckWait s.cfg f = false) : execTxFrame s = .next (sentOk cmd f (attempted f s)) := by
  have hl : LastAttempt s := .inl (by simp [hr])
  rw [execTxFrame_txDone hp hk hf hc hl, txDone_acknowledged f _ _ hop, if_neg (not_not_intro hr), attempted_cfg, hw]
  rfl

end

/-- Settles O34: the cases of `tx_done` and of `sent_ok`. -/
theorem transmissionOutcome : Obligations.TransmissionOutcome := by
  refine ⟨⟨rfl, rfl, rfl⟩, fun s f cmd hp hk hf hc hl => ⟨fun hop => ?_, fun hop => ?_, fun hop hr => ?_,
    fun hop hr hnc hnb => ?_, fun hop hr hcb => ?_, fun hop hr hb => ?_, fun hop hr hcontrol hnb => ?_⟩⟩
  · rw [exec, execTxFrame_txDone hp hk hf hc hl, txDone, hop]
    exact congrArg _ (startWait_eq ..)
  · rw [exec, execTxFrame_txDone hp hk hf hc hl, txDone, hop]
    rfl
  · exact execTxFrame_fails hp hk hf hc hl ((CmdOp.acknowledged_iff _).2 hop) hr
  · have hw : wantsAckWait s.cfg f = true := by
      rw [← Bool.not_eq_false, wantsAckWait_eq_false_iff]
      exact not_or_intro hnc hnb
    exact execTxFrame_awaitsAck hp hk hf hc ((CmdOp.acknowledged_iff _).2 hop) hr hw
  · have hack : cmd.op.acknowledged = true := (CmdOp.acknowledged_iff _).2 (hop.imp_right .inl)
    have hne : cmd.op ≠ .getResponse := by rcases hop with h | h <;> simp [h]
    rw [exec, execTxFrame_sent hp hk hf hc hack hr ((wantsAckWait_eq_false_iff ..).2 hcb),
      sentOk_of_ne_getResponse f _ hne]
    rfl
  · rw [exec, execTxFrame_sent hp hk hf hc (by rw [hop]; rfl) hr ((wantsAckWait_eq_false_iff ..).2 (.inr hb)),
      sentOk_broadcast (attempted f s) hop hb]
    rfl
  · rw [exec, execTxFrame_sent hp hk hf hc (by rw [hop]; rfl) hr ((wantsAckWait_eq_false_iff ..).2 (.inl hcontrol)),
      sentOk_unicast (attempted f s) hop hnb, startWait_eq]
    rfl

/-! ### A send to broadcast -/

/-- R225: the end of a send to broadcast is an answer Ok. -/
theorem sentOk_broadcast_answers {cmd : Command} {f : Packet} {s : State}
    (hd : f.hdr.destination = s.cfg.addrBroadcast) : ∃ r : Response, r.code = .ok ∧ sentOk cmd f s = respond r s := by
  by_cases hop : cmd.op = .getResponse
  · exact ⟨_, rfl, sentOk_broadcast s hop hd⟩
  · exact ⟨_, rfl, sentOk_of_ne_getResponse f s hop⟩

/-- R225: SEQ_TX retries a broadcast send, reports its failure or answers it Ok. -/
theorem execTxFrame_broadcast {s : State} {f : Packet} {cmd : Command} (hp : s.seq.phase = .transmit)
    (hk : s.rsm.ckaPending = false) (hf : s.seq.txf = some f) (hc : s.seq.cur = some cmd)
    (hop : cmd.op.acknowledged = true) (hd : f.hdr.destination = s.cfg.addrBroadcast) :
    nextTxAnswer s ≠ .ok ∧ execTxFrame s = .next (attempted f s) ∨
      ∃ r : Response, (nextTxAnswer s = .ok → r.code = .ok) ∧ execTxFrame s = .next (respond r (attempted f s)) := by
  by_cases hr : nextTxAnswer s = .ok
  · obtain ⟨r, hcode, hs⟩ := sentOk_broadcast_answers (cmd := cmd) (s := attempted f s) hd
    exact .inr ⟨r, fun _ => hcode,
      hs ▸ execTxFrame_sent hp hk hf hc hop hr ((wantsAckWait_eq_false_iff ..).2 (.inr hd))⟩
  · by_cases hl : LastAttempt s
    · exact .inr ⟨_, fun h => absurd h hr, execTxFrame_fails hp hk hf hc hl hop hr⟩
    · simp only [LastAttempt, not_or, not_not, Nat.not_le] at hl
      exact .inl ⟨hr, execTxFrame_retries (.inl hp) hk hf hl.1 hl.2⟩

/-- Settles O36: the issue builds a broadcast frame, and no end of its transmission is a wait for an Acknowledge. -/
theorem broadcastNeverWaits : Obligations.BroadcastNeverWaits := by
  constructor
  · intro s f data i hp hinit ha hi
    rcases hi with ⟨rfl, hst⟩ | rfl | rfl
    · exact ⟨_, _, _, sendCommandsStartTransmission s f data _ .send _ hp hinit (.inl ⟨rfl, rfl, rfl, hst⟩),
        rfl, rfl, rfl, ha, .inl rfl⟩
    · exact ⟨_, _, _, sendCommandsStartTransmission s f data _ .sendResponse _ hp hinit (.inr (.inl ⟨rfl, rfl, rfl⟩)),
        rfl, rfl, rfl, ha, .inr (.inl rfl)⟩
    · exact ⟨_, _, _, sendCommandsStartTransmission s f data _ .getResponse _ hp hinit (.inr (.inr ⟨rfl, rfl, rfl⟩)),
        rfl, rfl, rfl, ha, .inr (.inr rfl)⟩
  · intro s p cmd hp hk hf hc hd hop
    rcases execTxFrame_broadcast hp hk hf hc ((CmdOp.acknowledged_iff _).2 hop) hd with ⟨hr, he⟩ | ⟨r, hcode, he⟩
    · exact ⟨_, he, by simp [hp], fun h => absurd h hr⟩
    · exact ⟨_, he, by simp, fun h => ⟨rfl, r, rfl, hcode h⟩⟩

/-! ### A poll that matches -/

/-- `s` with the packet `p` consumed from the slot into `got` (R174, R205). -/
def consumed (p : Packet) (s : State) : State :=
  { s with slot := { s.slot with hasPacket := false }, seq := { s.seq with got := some p } }

@[simp] theorem consumed_cfg (p : Packet) (s : State) : (consumed p s).cfg = s.cfg := rfl

/-- `s` with the slot emptied and no packet kept in `got`: an Acknowledge is not kept (R207). -/
def slotEmptied (s : State) : State :=
  { s with slot := { s.slot with hasPacket := false }, seq := { s.seq with got := none } }

/-- R174: a consume reads the packet the slot holds. -/
theorem consume_eq {s : State} {h : Header} {data : List Byte} (hh : s.slot.hdr.header? = some h)
    (hdata : s.slot.pay.readRange 0 h.length.toNat = some data) :
    consume s = .ok (⟨h, data⟩, { s with slot := { s.slot with hasPacket := false } }) := by
  simp only [consume, hh, need_some, ok_bind, readPacket, hdata]

/-- R205: a poll that is owed and matches consumes the packet. -/
theorem seqPoll_hit {s : State} {h : Header} {data : List Byte} {g : Filter}
    (hp : s.seq.phase = .ackWait ∨ s.seq.phase = .pktWait) (hd : s.seq.pollDue = true)
    (hs : s.slot.hasPacket = true) (hh : s.slot.hdr.header? = some h)
    (hdata : s.slot.pay.readRange 0 h.length.toNat = some data) (hg : s.seq.flt = some g)
    (hm : matchesFilter s.cfg h g = true) :
    seqPoll s = outcomeOf (onMatch ⟨h, data⟩ (consumed ⟨h, data⟩ s)) := by
  rw [seqPoll, if_pos ((seqPollEnabled_iff s).2 ⟨hp, hd⟩), pollStep, slotMatches_full hs hh hg, hm, ok_bind,
    if_pos rfl, consume_eq hh hdata]
  rfl

/-- R207: an Acknowledge that a send waits for is followed by `sent_ok`. -/
theorem onMatch_ackWait {s : State} {cmd : Command} {f : Packet} (p : Packet) (hp : s.seq.phase = .ackWait)
    (hc : s.seq.cur = some cmd) (hf : s.seq.txf = some f) :
    onMatch p s = .ok (sentOk cmd f { s with seq := { s.seq with got := none } }) := by
  rw [onMatch, if_pos hp, hc, hf]
  rfl

/-- R207: a packet that answers a probe, is to be acknowledged, or is answered at once. -/
theorem onMatch_pktWait {s : State} {cmd : Command} (p : Packet) (hp : s.seq.phase = .pktWait)
    (hc : s.seq.cur = some cmd) : onMatch p s = .ok (
      if cmd.op = .probe then
        respond { code := .ok, inUse := some true } { s with seq := { s.seq with inUse := true, got := none } }
      else if needsAck s.cfg p then startTx (ackFrame s.cfg s.conn.ownAddr p) .ackEmit s
      else respond (packetResponse p) s) := by
  rw [onMatch, if_neg (by simp [hp]), hc]
  simp only [need_some, ok_bind]
  split_ifs <;> rfl

/-- R176: a packet that asks for no Acknowledge is one itself, or a broadcast. -/
theorem needsAck_eq_false_iff (c : Config) (p : Packet) :
    needsAck c p = false ↔ p.hdr.status = c.stAck ∨ p.hdr.destination = c.addrBroadcast := by
  simp only [needsAck, Bool.and_eq_false_iff, bne_eq_false_iff_eq]

/-- R194: the Acknowledge of a packet, sealed. -/
theorem ackFrame_eq (c : Config) (own : Byte) (p : Packet) :
    ackFrame c own p = ⟨sealedHeader p.hdr.source own c.stAck c.cmdNone p.hdr.id 0x00, []⟩ := build_eq ..

/-- Settles O39: the match is followed by `sent_ok`. -/
theorem matchedAcknowledgementEndsSend : Obligations.MatchedAcknowledgementEndsSend := by
  intro s h data g f cmd hp hd hs hh hdata hg hm hc hf
  have hx : seqPoll s = .next (sentOk cmd f (slotEmptied s)) :=
    (seqPoll_hit (.inl hp) hd hs hh hdata hg hm).trans
      (congrArg outcomeOf (onMatch_ackWait (s := consumed ⟨h, data⟩ s) ⟨h, data⟩ hp hc hf))
  refine ⟨fun hop hnb => ?_, fun hop => ?_⟩
  · rw [hx, sentOk_unicast (slotEmptied s) hop hnb, startWait_eq]
    rfl
  · rw [hx, sentOk_of_ne_getResponse _ _ hop]
    rfl

/-- Settles O40: the three outcomes of a match in `PktWait`. -/
theorem matchedPacketIsConsumed : Obligations.MatchedPacketIsConsumed := by
  intro s h data g cmd hp hd hs hh hdata hg hm hc
  have hx := (seqPoll_hit (.inr hp) hd hs hh hdata hg hm).trans
    (congrArg outcomeOf (onMatch_pktWait (s := consumed ⟨h, data⟩ s) ⟨h, data⟩ hp hc))
  refine ⟨fun hop => ?_, fun hop hnack hnb => ?_, fun hop hack => ?_⟩
  · rw [hx, if_pos hop]
    rfl
  · have hneeds : needsAck s.cfg ⟨h, data⟩ = true := by
      rw [← Bool.not_eq_false, needsAck_eq_false_iff]
      exact not_or_intro hnack hnb
    rw [hx, if_neg hop, consumed_cfg, if_pos hneeds, ackFrame_eq]
    rfl
  · have hneeds : ¬ needsAck s.cfg ⟨h, data⟩ = true := by
      rw [Bool.not_eq_true, needsAck_eq_false_iff]
      exact hack
    rw [hx, if_neg hop, consumed_cfg, if_neg hneeds]
    rfl

/-! ### A poll that ends its wait, and a tick -/

/-- R205: a poll that misses with no tick left times its wait out. -/
theorem seqPoll_timeout {s : State} (hp : s.seq.phase = .ackWait ∨ s.seq.phase = .pktWait)
    (hd : s.seq.pollDue = true) (hm : slotMatches s = .ok false) (hfor : s.seq.forever = false)
    (hr : s.seq.remaining = 0) :
    seqPoll s = outcomeOf (onTimeout { s with seq := { s.seq with pollDue := false } }) := by
  have hticks : (!s.seq.forever && s.seq.remaining == 0) = true := by simp [hfor, hr]
  rw [seqPoll, if_pos ((seqPollEnabled_iff s).2 ⟨hp, hd⟩), pollStep, hm]
  exact congrArg outcomeOf (if_pos hticks)

/-- R207: a send with attempts left is transmitted again. -/
theorem onTimeout_retransmits {s : State} {f : Packet} (hp : s.seq.phase = .ackWait)
    (hn : s.seq.sendTry < s.cfg.maxSendAttempts) (hf : s.seq.txf = some f) :
    onTimeout s = .ok { s with seq := { s.seq with
      phase := .transmit, txTry := 0, sendTry := s.seq.sendTry + 1 } } := by
  rw [onTimeout, if_pos hp, if_pos hn, hf, need_some, ok_bind, startTx, ← hf]

/-- R207: a send with no attempt left times out. -/
theorem onTimeout_givesUp {s : State} (hp : s.seq.phase = .ackWait) (hn : s.cfg.maxSendAttempts ≤ s.seq.sendTry) :
    onTimeout s = .ok (respond { code := .timeoutExceeded } s) := by
  rw [onTimeout, if_pos hp, if_neg (Nat.not_lt.2 hn)]

/-- R207: a packet wait answers that nobody uses the probed address, or that it timed out. -/
theorem onTimeout_pktWait {s : State} {cmd : Command} (hp : s.seq.phase = .pktWait) (hc : s.seq.cur = some cmd) :
    onTimeout s = .ok (respond (if cmd.op = .probe then { code := .ok, inUse := some false }
      else { code := .timeoutExceeded }) s) := by
  rw [onTimeout, if_neg (by simp [hp]), hc]
  simp only [need_some, ok_bind]
  split_ifs <;> rfl

/-- Settles O41: the poll misses and the wait times out. -/
theorem waitTimesOut : Obligations.WaitTimesOut := by
  intro s h g f cmd hd hmiss hfor hr hc
  let u : State := { s with seq := { s.seq with pollDue := false } }
  have hx (hp : s.seq.phase = .ackWait ∨ s.seq.phase = .pktWait) : seqPoll s = outcomeOf (onTimeout u) :=
    seqPoll_timeout hp hd (slotMatches_miss hmiss) hfor hr
  refine ⟨fun hp hn hf => ?_, fun hp hn => ?_, fun hp hop => ?_, fun hp hop => ?_⟩
  · rw [hx (.inl hp), onTimeout_retransmits (s := u) hp hn hf]
    rfl
  · rw [hx (.inl hp), onTimeout_givesUp (s := u) hp hn]
    rfl
  · rw [hx (.inr hp), onTimeout_pktWait (s := u) hp hc, if_pos hop]
    rfl
  · rw [hx (.inr hp), onTimeout_pktWait (s := u) hp hc, if_neg hop]
    rfl

theorem SeqPhase.waits_iff (ph : SeqPhase) : ph.waits = true ↔ ph = .ackWait ∨ ph = .pktWait := by
  cases ph <;> simp [SeqPhase.waits]

/-- Settles O42: a tick counts, or is not remembered. -/
theorem tickCountsAndOwesAPoll : Obligations.TickCountsAndOwesAPoll := by
  refine fun s => ⟨fun hp hd hr => ?_, fun hno => ?_⟩
  · have he : (s.seq.phase.waits && !s.seq.pollDue) = true := by simp [(SeqPhase.waits_iff _).2 hp, hd]
    rw [exec, execTick, if_pos he, countTick]
    cases hfor : s.seq.forever
    case true => rfl
    case false =>
      have h0 : s.seq.remaining ≠ 0 := Nat.one_le_iff_ne_zero.1 (hr.resolve_left (by simp [hfor]))
      rw [if_neg (by simp), if_neg h0]
      rfl
  · have he : ¬ (s.seq.phase.waits && !s.seq.pollDue) = true := by
      simp only [Bool.and_eq_true, SeqPhase.waits_iff, Bool.not_eq_true']
      rintro ⟨hw, hd⟩
      rcases hno with ⟨ha, hp⟩ | h
      · exact hw.elim ha hp
      · simp [hd] at h
    exact if_neg he

/-! ### Who takes an id, and what keeps the slot -/

/-- R192, R150: an instruction other than RESET leaves `last_id`, or is one of the four that take the next id. -/
theorem exec_lastId {i : Instr} {s t : State} (h : exec i s = .next t) (hreset : i ≠ .reset) :
    t.conn.lastId = s.conn.lastId ∨ t.conn.lastId = s.conn.lastId + 1 ∧
      ∃ f data, i = .send f data ∨ i = .sendResponse f data ∨ i = .getResponse f data ∨ i = .probe f data := by
  cases i
  case send f data | sendResponse f data | getResponse f data | probe f data =>
    simp only [exec] at h
    exact (issue_conn (P := fun c d => d.lastId = c.lastId ∨ d.lastId = c.lastId + 1) h (.inl rfl)
      fun _ => .inr rfl).imp_right fun hid => ⟨hid, f, data, by simp⟩
  case waitForPacket | getRequest | acknowledge | setAddress | getAddress =>
    simp only [exec] at h
    exact .inl (issue_conn (P := fun c d => d.lastId = c.lastId) h rfl fun _ => rfl)
  case reserved0 | reservedA | reservedB | reservedC | reservedD | reservedE | reservedF | reservedRsv =>
    exact .inl (congrArg _ (issueIllegal_frame h).2)
  case frameCheck | frameAck | frameRequest | frameResponse | frameOtherStatus =>
    exact .inl (congrArg _ (deliverFrame_frame h).conn)
  case rxByte => exact .inl (congrArg _ (execRxByte_frame h).conn)
  case txFrame => exact .inl (congrArg _ (execTxFrame_conn h))
  case ckaTx => exact .inl (congrArg _ (execCkaTx_conn h))
  case tick => exact .inl (congrArg _ (execTick_frame h).1.conn)
  case reset => exact absurd rfl hreset

/-- Settles O51: what each instruction and a poll do to `last_id`. -/
theorem onlySendsTakeAnId : Obligations.OnlySendsTakeAnId := by
  refine ⟨fun i s t h hne => ?_, fun s t h => congrArg _ (seqPoll_frame h).1.conn⟩
  by_cases hreset : i = .reset
  · exact .inl hreset
  · exact .inr ((exec_lastId h hreset).resolve_left hne)

/-- Only the turn of RESET fetches it. -/
theorem turn_of_fetch_reset {u : Turn} {s : State} (hf : fetch u s = .instr .reset) : u = .reset := by
  cases u
  case reset => rfl
  case host =>
    simp only [fetch] at hf
    split at hf
    case h_1 => cases hf
    case h_2 =>
      split at hf <;> cases hf
      exact absurd (decodeCommand_hostRow ‹_›) (by simp [Instr.hostRow])
  case frame =>
    simp only [fetch] at hf
    split at hf <;> cases hf
    rcases (decodeFrame_wf ‹_›).2 with ⟨h, p, hi | hi | hi | hi⟩ | ⟨st, h, p, hi⟩ <;> cases hi
  case rx | drop =>
    simp only [fetch, decode] at hf
    split at hf <;> cases hf
  case seqPoll | tick | seqTx | cka => cases hf

/-- Settles O54: a poll that does not match leaves the slot, and nothing else but RESET writes an occupied one. -/
theorem convoyKeepsTheSlot : Obligations.ConvoyKeepsTheSlot := by
  intro s t h f _ hs hh hf hm hstep hreset
  rcases step_cases hstep with ⟨i, hi, hx⟩ | ⟨-, hx⟩ | ⟨-, rfl⟩ | rfl
  · by_contra hne
    rcases slotHasSingleWriters.1 i _ t hx hne with rfl | ⟨hempty, -⟩
    · exact hreset (turn_of_fetch_reset hi)
    · simp [hs] at hempty
  · obtain ⟨-, -, -, hslot | hmatch⟩ := seqPoll_frame hx
    · exact hslot
    · rw [slotMatches_full (s := takeTurn s) hs hh hf] at hmatch
      exact absurd (Except.ok.inj hmatch) (by simp [hm])
  · rfl
  · rfl

/-! ### A counted wait with nothing in the slot -/

/-- A wait of counted ticks that owes a poll and has nothing to find (R205, R220). -/
structure CountedWait (s : State) : Prop where
  cfg_wf : s.cfg.wf = true
  waits : s.seq.phase.waits = true
  pollDue : s.seq.pollDue = true
  counted : s.seq.forever = false
  empty : s.slot.hasPacket = false

/-- `s` after a poll that found nothing (R205), with the turns `ts` to come. -/
def pollMissed (ts : List Turn) (s : State) : State :=
  { s with seq := { s.seq with pollDue := false }, ports := { s.ports with schedule := ts } }

/-- `s` after `k` polls that found nothing and `k` ticks (R205, R206), with the turns `ts` to come. -/
def waited (k : Nat) (ts : List Turn) (s : State) : State :=
  { s with
    seq := { s.seq with remaining := s.seq.remaining - k, pollDue := true }
    ports := { s.ports with schedule := ts } }

theorem takeTurn_scheduled {s : State} {u : Turn} {ts : List Turn} (h : s.ports.schedule = u :: ts) :
    takeTurn s = { s with ports := { s.ports with schedule := ts } } := by
  simp [takeTurn, h]

theorem CountedWait.keepsWaiting {s : State} (h : CountedWait s) (k : Nat) (ts : List Turn) :
    CountedWait (waited k ts s) :=
  ⟨h.cfg_wf, h.waits, rfl, h.counted, h.empty⟩

/-- R205: the poll of a wait with ticks left. -/
theorem CountedWait.step_poll {s : State} (h : CountedWait s) {ts : List Turn}
    (hsch : s.ports.schedule = .seqPoll :: ts) (hr : s.seq.remaining ≠ 0) : step s = .next (pollMissed ts s) := by
  have hticks : ¬ (!s.seq.forever && s.seq.remaining == 0) = true := by simp [hr]
  rw [step_poll_empty s ts h.cfg_wf hsch h.pollDue h.waits h.empty, takeTurn_scheduled hsch]
  exact congrArg outcomeOf (if_neg hticks)

/-- R205: the last poll of a wait. -/
theorem CountedWait.step_lastPoll {s : State} (h : CountedWait s) {ts : List Turn}
    (hsch : s.ports.schedule = .seqPoll :: ts) (hr : s.seq.remaining = 0) :
    step s = outcomeOf (onTimeout (pollMissed ts s)) := by
  have hticks : (!s.seq.forever && s.seq.remaining == 0) = true := by simp [h.counted, hr]
  rw [step_poll_empty s ts h.cfg_wf hsch h.pollDue h.waits h.empty, takeTurn_scheduled hsch]
  exact congrArg outcomeOf (if_pos hticks)

/-- R205, R206: a poll that finds nothing, and the tick after it. -/
theorem CountedWait.run_pollAndTick {s : State} (h : CountedWait s) {ts : List Turn}
    (hsch : s.ports.schedule = .seqPoll :: .tick :: ts) (hr : s.seq.remaining ≠ 0) :
    runSteps 2 s = .next (waited 1 ts s) := by
  have htick : step (pollMissed (.tick :: ts) s) = .next (waited 1 ts s) :=
    step_tick_counts (pollMissed (.tick :: ts) s) ts h.cfg_wf rfl rfl h.waits h.counted hr
  simp only [runSteps, h.step_poll hsch hr, htick]

/-- R220: each of `k` ticks follows its poll, and the next poll is owed. -/
theorem CountedWait.run_pollsAndTicks {s : State} (h : CountedWait s) {k : Nat} {rest : List Turn}
    (hsch : s.ports.schedule = pollsAndTicks k ++ rest) (hk : k ≤ s.seq.remaining) :
    runSteps (2 * k) s = .next (waited k (.seqPoll :: rest) s) := by
  induction k generalizing s with
  | zero =>
    have hs : waited 0 (.seqPoll :: rest) s = s := by
      have hsch' : .seqPoll :: rest = s.ports.schedule := hsch.symm
      rw [waited, hsch', ← h.pollDue]
      rfl
    rw [hs]
    rfl
  | succ k ih =>
    have hfirst := h.run_pollAndTick (ts := pollsAndTicks k ++ rest) hsch (by omega)
    have hrest := ih (h.keepsWaiting 1 (pollsAndTicks k ++ rest)) rfl (Nat.le_sub_of_add_le hk)
    rw [Nat.mul_succ, Nat.add_comm, runSteps_add 2 _ _ _ hfirst, hrest]
    simp only [waited, Nat.sub_sub, Nat.add_comm 1 k]

theorem runSteps_one (s : State) : runSteps 1 s = step s := by
  rw [runSteps]
  cases step s <;> rfl

/-- Settles O56: `k` ticks with their polls, then one poll more. -/
theorem packetWaitTimesOutAfterItsTicks : Obligations.PacketWaitTimesOutAfterItsTicks := by
  intro s cmd T k rest hw hp hc hop hd hfor hr hs
  have h : CountedWait s := ⟨hw, by rw [hp]; rfl, hd, hfor, hs⟩
  constructor
  · intro hk hsch
    have hpoll := (h.keepsWaiting k (.seqPoll :: rest)).step_poll rfl (show s.seq.remaining - k ≠ 0 by omega)
    refine ⟨pollMissed rest (waited k (.seqPoll :: rest) s), ?_, hp, congrArg (· - k) hr, rfl, rfl⟩
    rw [runSteps_add (2 * k) 1 _ _ (h.run_pollsAndTicks hsch (by omega)), runSteps_one, hpoll]
  · intro hsch
    have hpoll := (h.keepsWaiting T (.seqPoll :: rest)).step_lastPoll rfl (show s.seq.remaining - T = 0 by omega)
    rw [onTimeout_pktWait (s := pollMissed rest (waited T (.seqPoll :: rest) s)) hp hc, if_neg hop] at hpoll
    refine ⟨respond { code := .timeoutExceeded } (pollMissed rest (waited T (.seqPoll :: rest) s)), ?_, rfl, rfl⟩
    rw [runSteps_add (2 * T) 1 _ _ (h.run_pollsAndTicks hsch (by omega)), runSteps_one, hpoll]
    rfl

/-! ### A send nobody acknowledges -/

/-- A send of `f` that is about to be transmitted for the `n`th time, with the slot empty (R203, R221). -/
structure SendPending (f : Packet) (n : Nat) (s : State) : Prop where
  cfg_wf : s.cfg.wf = true
  unheld : s.rsm.ckaPending = false
  empty : s.slot.hasPacket = false
  phase : s.seq.phase = .transmit
  sendTry : s.seq.sendTry = n
  cur : ∃ cmd, s.seq.cur = some cmd ∧ cmd.op.acknowledged = true
  txf : s.seq.txf = some f
  wants : wantsAckWait s.cfg f = true

/-- `s` after `f` is transmitted and its Acknowledge is awaited (R204), with the turns `ts` to come. -/
def awaitingAck (f : Packet) (ts : List Turn) (s : State) : State :=
  { attempted f s with
    seq := waitingFor .ackWait (ackFilter s.cfg f.hdr.destination f.hdr.id) s.cfg.ackTimeout (attempted f s).seq
    ports := { wrotePorts s f.wire with schedule := ts } }

/-- `s` after `f` is transmitted and the wait for its Acknowledge has missed its last poll (R205, R206), with the turns
`ts` to come. -/
def unacknowledged (f : Packet) (ts : List Turn) (s : State) : State :=
  pollMissed ts (waited s.cfg.ackTimeout (.seqPoll :: ts) (awaitingAck f ts s))

theorem sendAttempts_succ_append (T n : Nat) (rest : List Turn) :
    sendAttempts T (n + 1) ++ rest = .seqTx :: (pollsAndTicks T ++ (sendAttempts T n ++ rest)) := by
  rw [sendAttempts, List.cons_append, List.append_assoc]

namespace SendPending
variable {f : Packet} {n : Nat} {s : State} {ts : List Turn} {rs : List TxAnswer}

/-- R203, R204: a transmission that is answered Ok enters the wait for its Acknowledge. -/
theorem step_tx (h : SendPending f n s) (hsch : s.ports.schedule = .seqTx :: ts)
    (hans : s.ports.txAnswers = .ok :: rs) : step s = .next (awaitingAck f ts s) := by
  obtain ⟨cmd, hc, hop⟩ := h.cur
  rw [step_of_fetch_instr (i := .txFrame) h.cfg_wf (nextTurn_scheduled s hsch) rfl, takeTurn_scheduled hsch]
  exact execTxFrame_awaitsAck h.phase h.unheld h.txf hc hop (nextTxAnswer_listed _ hans) h.wants

theorem countedWait (h : SendPending f n s) (ts : List Turn) : CountedWait (awaitingAck f ts s) :=
  ⟨h.cfg_wf, rfl, rfl, rfl, h.empty⟩

/-- R221: one transmission and the whole of its wait. -/
theorem run_attempt (h : SendPending f n s)
    (hsch : s.ports.schedule = .seqTx :: (pollsAndTicks s.cfg.ackTimeout ++ ts))
    (hans : s.ports.txAnswers = .ok :: rs) :
    runSteps (2 * s.cfg.ackTimeout + 2) s = outcomeOf (onTimeout (unacknowledged f ts s)) := by
  have hw := h.countedWait (pollsAndTicks s.cfg.ackTimeout ++ ts)
  have htx := (runSteps_one s).trans (h.step_tx hsch hans)
  have hticks := hw.run_pollsAndTicks (k := s.cfg.ackTimeout) rfl (Nat.le_refl _)
  have hlast := (hw.keepsWaiting s.cfg.ackTimeout (.seqPoll :: ts)).step_lastPoll rfl (Nat.sub_self _)
  rw [show 2 * s.cfg.ackTimeout + 2 = 1 + (2 * s.cfg.ackTimeout + 1) by omega, runSteps_add 1 _ _ _ htx,
    runSteps_add _ 1 _ _ hticks, runSteps_one, hlast]
  rfl

/-- R207: an attempt that is not the last is followed by the next one. -/
theorem run_retransmits (h : SendPending f n s) (hn : n < s.cfg.maxSendAttempts)
    (hsch : s.ports.schedule = .seqTx :: (pollsAndTicks s.cfg.ackTimeout ++ ts))
    (hans : s.ports.txAnswers = .ok :: rs) :
    ∃ t, runSteps (2 * s.cfg.ackTimeout + 2) s = .next t ∧ SendPending f (n + 1) t ∧ t.cfg = s.cfg ∧
      t.ports.schedule = ts ∧ t.ports.txAnswers = rs ∧ t.ports.responses = s.ports.responses ∧
      t.ports.txStream = s.ports.txStream ++ [⟨f.wire, .ok⟩] := by
  refine ⟨_, (h.run_attempt hsch hans).trans
    (congrArg outcomeOf (onTimeout_retransmits (s := unacknowledged f ts s) rfl (h.sendTry.trans_lt hn) h.txf)),
    ⟨h.cfg_wf, h.unheld, h.empty, rfl, congrArg (· + 1) h.sendTry, h.cur, h.txf, h.wants⟩, rfl, rfl,
    congrArg List.tail hans, rfl, ?_⟩
  rw [← nextTxAnswer_listed s hans]
  rfl

/-- R207: the last attempt is followed by the answer TimeoutExceeded. -/
theorem run_givesUp (h : SendPending f n s) (hn : s.cfg.maxSendAttempts ≤ n)
    (hsch : s.ports.schedule = .seqTx :: (pollsAndTicks s.cfg.ackTimeout ++ ts))
    (hans : s.ports.txAnswers = .ok :: rs) :
    ∃ t, runSteps (2 * s.cfg.ackTimeout + 2) s = .next t ∧ t.seq.phase = .idle ∧
      t.ports.responses = s.ports.responses ++ [{ code := .timeoutExceeded }] ∧
      t.ports.txStream = s.ports.txStream ++ [⟨f.wire, .ok⟩] ∧ t.ports.schedule = ts := by
  refine ⟨_, (h.run_attempt hsch hans).trans
    (congrArg outcomeOf (onTimeout_givesUp (s := unacknowledged f ts s) rfl (hn.trans_eq h.sendTry.symm))),
    rfl, rfl, ?_, rfl⟩
  rw [← nextTxAnswer_listed s hans]
  rfl

/-- R221: the attempt that is due and the `m` that are left after it. -/
theorem run_attempts {m : Nat} {rest : List Turn} {more : List TxAnswer} (h : SendPending f n s)
    (hn : n + m = s.cfg.maxSendAttempts) (hans : s.ports.txAnswers = List.replicate (m + 1) .ok ++ more)
    (hsch : s.ports.schedule = sendAttempts s.cfg.ackTimeout (m + 1) ++ rest) :
    ∃ t, runSteps ((m + 1) * (2 * s.cfg.ackTimeout + 2)) s = .next t ∧ t.seq.phase = .idle ∧
      t.ports.responses = s.ports.responses ++ [{ code := .timeoutExceeded }] ∧
      t.ports.txStream = s.ports.txStream ++ List.replicate (m + 1) ⟨f.wire, .ok⟩ ∧ t.ports.schedule = rest := by
  induction m generalizing n s with
  | zero =>
    rw [Nat.zero_add, Nat.one_mul]
    exact h.run_givesUp (Nat.le_of_eq hn.symm) (hsch.trans (sendAttempts_succ_append ..)) hans
  | succ m ih =>
    obtain ⟨u, hu, hnext, hcfg, husch, huans, huresp, hutx⟩ :=
      h.run_retransmits (by omega) (hsch.trans (sendAttempts_succ_append ..)) hans
    obtain ⟨t, ht, hidle, hresp, htx, hrest⟩ := ih hnext (by rw [hcfg]; omega) huans (by rw [husch, hcfg])
    refine ⟨t, ?_, hidle, hresp.trans (congrArg (· ++ _) huresp), ?_, hrest⟩
    · rw [Nat.succ_mul, Nat.add_comm, runSteps_add _ _ _ _ hu, ← hcfg, ht]
    · rw [htx, hutx, List.append_assoc, List.replicate_succ (n := m + 1)]
      rfl

end SendPending

/-- Settles O57: the first of `MAX_SEND_ATTEMPTS` attempts is due. -/
theorem unreachablePeerTimesOut : Obligations.UnreachablePeerTimesOut := by
  intro s f cmd rest more hs hk hempty hp _ hn hc hop hf hwants hans hsch
  have h : SendPending f 1 s :=
    ⟨hs.cfg_wf, hk, hempty, hp, hn, ⟨cmd, hc, by rw [hop]; rfl⟩, hf, hwants⟩
  obtain ⟨m, hm⟩ : ∃ m, s.cfg.maxSendAttempts = m + 1 := Nat.exists_eq_add_of_le' (wf_bounds hs.cfg_wf).2.1
  rw [hm] at hans hsch ⊢
  exact h.run_attempts (by omega) hans hsch

end Sys2Proof.Machine
end

section
/-! The family of 60_exceptions.md: what a step of one node does to every node of the bus (R276, log 16). -/
namespace Sys2Proof.Machine

/-- R276: when node `k` steps from `s` to `t`, it becomes `t` and every other node hears the frames it wrote. -/
theorem busStep_eq_next {k : Nat} {b b' : Bus} {s : State} (h : busStep k b = .next b')
    (hk : b.nodes[k]? = some s) :
    ∃ t, step s = .next t ∧
      ∀ j, b'.nodes[j]? = b.nodes[j]?.map fun n => if j = k then t else receiveFrom (newWrites s t) n := by
  simp only [busStep, hk] at h
  split at h
  case h_1 t ht =>
    cases h
    exact ⟨t, ht, fun _ => List.getElem?_mapIdx⟩
  case h_2 | h_3 => cases h

/-- Settles O59: the stepping node takes its own next state, another node only hears what was written. -/
theorem nodesShareNoState : Obligations.NodesShareNoState := by
  intro b b' k j s n h hjk hk hj
  obtain ⟨t, hstep, hnodes⟩ := busStep_eq_next h hk
  refine ⟨t, hstep, ?_, ?_⟩
  · rw [hnodes k, hk, Option.map_some, if_pos rfl]
  · rw [hnodes j, hj, Option.map_some, if_neg hjk]
    rfl

end Sys2Proof.Machine
end

section
/-! The family of 70_reset_and_hazards.md: what RESET sets and what it leaves (R290, R291, R293), that the parameters
stay (R295), which addresses the scan claims (R294), and quiescence (R307). -/
namespace Sys2Proof.Machine

/-! ### RESET -/

/-- Settles O43: RESET leads to `State.resetWith`, block by block the reset column of R22. -/
theorem resetValues : Obligations.ResetValues := fun s =>
  ⟨_, execReset_eq s, rfl, rfl, rfl, rfl, rfl, rfl, fun _ => rfl, fun _ => rfl, rfl, rfl, fun _ => rfl, fun _ => rfl,
    rfl, rfl, rfl, rfl, rfl, rfl, rfl, rfl, rfl, rfl, rfl⟩

/-- Settles O44: RESET's next state has the parameters and the ports of `s`, and from State.reset nothing to undo. -/
theorem resetKeepsParametersAndPorts : Obligations.ResetKeepsParametersAndPorts := by
  refine ⟨fun s t h => ?_, execReset_eq State.reset, rfl⟩
  obtain rfl : { State.resetWith s.cfg with ports := s.ports } = t :=
    Host.Outcome.next.inj ((execReset_eq s).symm.trans h)
  exact ⟨rfl, rfl⟩

/-! ### The parameters -/

/-- R203: TX_FRAME touches the sequencer and the ports alone. -/
theorem execTxFrame_frame {s t : State} (h : execTxFrame s = .next t) : SeqFrame s t := by
  rcases execTxFrame_cases h with rfl | h
  · exact .refl _
  · obtain ⟨-, -, hframe, -⟩ := seqTx_frame h
    exact hframe

theorem execCkaTx_cfg {s t : State} (h : execCkaTx s = .next t) : t.cfg = s.cfg := by
  rcases execCkaTx_cases h with rfl | ⟨-, -, -, rfl⟩ <;> rfl

/-- R295: no instruction changes a parameter. -/
theorem exec_cfg {i : Instr} {s t : State} (h : exec i s = .next t) : t.cfg = s.cfg := by
  cases i
  case frameCheck | frameAck | frameRequest | frameResponse | frameOtherStatus => exact (deliverFrame_frame h).cfg
  case rxByte => exact (execRxByte_frame h).cfg
  case txFrame => exact (execTxFrame_frame h).cfg
  case ckaTx => exact execCkaTx_cfg h
  case tick => exact (execTick_frame h).1.cfg
  case reset => exact (resetKeepsParametersAndPorts.1 s t h).1
  all_goals exact (exec_hostRow_frame rfl h).cfg

/-- Settles O49: an instruction and a poll keep the parameters, a withheld byte and a turn touch the ports alone. -/
theorem parametersNeverChange : Obligations.ParametersNeverChange := by
  intro s t h
  rcases step_cases h with ⟨i, -, hx⟩ | ⟨-, hx⟩ | ⟨-, rfl⟩ | rfl
  · exact (exec_cfg hx).trans (takeTurn_cfg s)
  · exact (seqPoll_frame hx).1.cfg.trans (takeTurn_cfg s)
  · rfl
  · rfl

/-! ### The address scan -/

/-- R294: the candidate the scan probes or claims, where it has one, is in the claimable range. -/
def Scan.InRange (c : Config) : Scan → Prop
  | .probing a => c.claimable a = true
  | .claiming a => c.claimable a = true
  | .asking => True
  | .done => True
  | .noAddressAvailable => True

/-- R8: the first candidate is claimable. -/
theorem claimable_addrMin {c : Config} (hw : c.wf = true) : c.claimable c.addrMin = true := by
  obtain ⟨-, hrange, -⟩ := (Config.wf_iff c).1 hw
  exact (Config.claimable_iff ..).2 ⟨Nat.le_refl _, hrange⟩

/-- Below `ADDR_MAX` the next candidate does not wrap, and is claimable as well. -/
theorem claimable_succ {c : Config} {a : Byte} (ha : c.claimable a = true) (hlt : a < c.addrMax) :
    c.claimable (a + 1) = true := by
  rw [Config.claimable_iff] at ha ⊢
  bv_omega

/-- R110, R294: whatever the response, the scan's candidate stays in range. -/
theorem Scan.InRange.next {c : Config} {sc : Scan} (hw : c.wf = true) (h : sc.InRange c) (r : Response) :
    (sc.next c r).InRange c := by
  cases sc with
  | asking =>
    simp only [Scan.next]
    split
    · trivial
    · exact claimable_addrMin hw
  | probing a =>
    simp only [Scan.next]
    split_ifs with hfree hlt
    · exact h
    · exact claimable_succ h hlt
    · trivial
  | claiming | done | noAddressAvailable => trivial

/-- R294: the candidate is in range after any sequence of responses. -/
theorem Scan.InRange.foldl {c : Config} (hw : c.wf = true) (rs : List Response) {sc : Scan} (h : sc.InRange c) :
    (rs.foldl (fun sc r => sc.next c r) sc).InRange c := by
  induction rs generalizing sc with
  | nil => exact h
  | cons r rs ih => exact ih (h.next hw r)

/-- Settles O60: the scan starts without a candidate, and a claimed address is its candidate. -/
theorem scanClaimsOnlyValidAddresses : Obligations.ScanClaimsOnlyValidAddresses := by
  intro c rs a hw h
  have hin : Scan.InRange c (.claiming a) := h ▸ Scan.InRange.foldl hw rs (sc := .asking) trivial
  exact hin

/-! ### Quiescence -/

theorem quiescent_iff (s : State) :
    quiescent s = true ↔ s.seq.phase = .idle ∧ s.rsm.bytesRead = 0 ∧ s.rsm.ckaPending = false := by
  simp [quiescent, and_assoc]

/-- R203: a node that waits for a command transmits nothing. -/
theorem execTxFrame_idle {s : State} (hp : s.seq.phase = .idle) : execTxFrame s = .next s := by
  simp [execTxFrame, seqTxEnabled, hp, SeqPhase.transmits, hold]

/-- R205: a node that waits for a command does not poll. -/
theorem seqPoll_idle {s : State} (hp : s.seq.phase = .idle) : seqPoll s = .next s :=
  seqPoll_held (by simp [seqPollEnabled, hp, SeqPhase.waits])

/-- R206: a node that waits for a command does not remember a tick. -/
theorem exec_tick_idle {s : State} (hp : s.seq.phase = .idle) : exec .tick s = .next s :=
  (tickCountsAndOwesAPoll s).2 (.inl (by simp [hp]))

/-- Settles O55: TICK, SEQ_TX and SEQ_POLL have no effect in Idle, CKA none with no acknowledgement pending. -/
theorem quiescentNodeMovesOnlyOnInput : Obligations.QuiescentNodeMovesOnlyOnInput := by
  intro s hw hq hturn
  obtain ⟨hp, -, hk⟩ := (quiescent_iff s).1 hq
  rcases hturn with ht | ht | ht | ht
  · exact (step_of_fetch_instr hw ht rfl).trans (exec_tick_idle (s := takeTurn s) hp)
  · exact (step_of_fetch_instr hw ht rfl).trans (execTxFrame_idle (s := takeTurn s) hp)
  · rw [step_eq_runTurn hw, ht]
    exact seqPoll_idle (s := takeTurn s) hp
  · exact (step_of_fetch_instr hw ht rfl).trans (execCkaTx_held (s := takeTurn s) hk)

end Sys2Proof.Machine
end
